-- ==== Sys2Proof/Word.lean ====
section
/-! DEFINITION. The byte of the wire, the three framing bytes and the named type codes (00_scope.md R7, 30_encoding.md R60, R67). -/

namespace Sys2Proof

/-- An 8-bit unsigned value (R7). -/
abbrev Byte := BitVec 8

/-- `START`, the start marker (R60). -/
def startByte : Byte := 0xFE
/-- `END`, the end marker (R60). -/
def endByte : Byte := 0xFD
/-- `EOS`, the lone end-of-stream sentinel (R60). -/
def eosByte : Byte := 0x00
/-- `T_KEEPALIVE` (R66). -/
def keepaliveCode : Byte := 0x0B
/-- `T_PWK`, the PanelPowerKey type code (R66). -/
def pwkCode : Byte := 0xA0

/-- `ACK1`, the Init1 acknowledgement; its type byte is a constant, not `INIT1_CODE` (R67). -/
def ack1Frame : List Byte := [0xFE, 0xF0, 0xFD]
/-- `ACK2`, the Init2 acknowledgement; its type byte is a constant, not `INIT2_CODE` (R67). -/
def ack2Frame : List Byte := [0xFE, 0xF1, 0xFD]

end Sys2Proof
end

