-- ==== Sys2Proof/Config.lean ====
section
/-! DEFINITION. The implementation parameters of 00_scope.md R5 with their constraints (R6), the channel bindings of 10_state.md R16, and the one free value. -/

namespace Sys2Proof

/-- `INIT_WRITE_TARGET` (R5, 42_gpio.md R153). -/
inductive WriteTarget
  | argPin
  | fixedPin
deriving DecidableEq, Repr

/-- `EDGE_SENSE` (R5, 42_gpio.md R157). -/
inductive EdgeSense
  | logical
  | physical
deriving DecidableEq, Repr

/-- The two channels of one FDC machine, by channel number (10_state.md R16). -/
structure Binding where
  /-- `IN`: read from, and acknowledgements go back to it. -/
  inp : Nat
  /-- `OUT`: frames are forwarded to it. -/
  out : Nat
deriving DecidableEq, Repr

/-- The parameters of R5; a machine is configured with one value of each and keeps it. -/
structure Config where
  /-- `N_DIR` (D35). -/
  nDir : Nat
  /-- `CAP` (D2). -/
  cap : Nat
  /-- `CNT_W` (D3). -/
  cntW : Nat
  /-- `ERR_W` (D32). -/
  errW : Nat
  /-- `INIT1_CODE` (D5). -/
  init1Code : Byte
  /-- `INIT2_CODE` (D5). -/
  init2Code : Byte
  /-- `INIT2_COUNTS_WERR` (D13). -/
  init2CountsWerr : Bool
  /-- `N_PINS` (D17). -/
  nPins : Nat
  /-- `PIN_W` (D17). -/
  pinW : Nat
  /-- `PWK_PIN` (D17). -/
  pwkPin : Nat
  /-- `INIT_WRITE_TARGET` (D25). -/
  initWriteTarget : WriteTarget
  /-- `FIXED_PIN` (D25), used only when the target is fixed. -/
  fixedPin : Nat
  /-- `EDGE_SENSE` (D20). -/
  edgeSense : EdgeSense
  /-- The channels bound to each direction (10_state.md R16). -/
  bindings : List Binding
deriving DecidableEq, Repr

/-- The least number of bits, counted up from `k`, that can tell `n` values apart; `fuel` bounds the search. -/
def bitsForFrom (n k : Nat) : Nat → Nat
  | 0 => k
  | fuel + 1 => if n ≤ 2 ^ k then k else bitsForFrom n (k + 1) fuel

/-- `ceil(log2(n))` (30_encoding.md R73). -/
def bitsFor (n : Nat) : Nat := bitsForFrom n 0 n

/-- The width of a command's operand `a`: `max(PIN_W, ceil(log2(N_DIR)))` (R73). -/
def Config.aWidth (c : Config) : Nat := max c.pinW (bitsFor c.nDir)

/-- The constraints of R6, with `2^PIN_W >= N_PINS` of R5 and one binding a direction (R16). -/
def Config.wf (c : Config) : Bool :=
  decide (1 ≤ c.nDir) && decide (4 ≤ c.cap) && decide (1 ≤ c.cntW)
  && decide (c.init1Code ≠ c.init2Code)
  && decide (c.init1Code ≠ keepaliveCode) && decide (c.init1Code ≠ pwkCode)
  && decide (c.init2Code ≠ keepaliveCode) && decide (c.init2Code ≠ pwkCode)
  && decide (1 ≤ c.nPins) && decide (c.nPins ≤ 2 ^ c.pinW) && decide (c.pwkPin < c.nPins)
  && decide (c.initWriteTarget = .fixedPin → c.fixedPin < c.nPins)
  && decide (c.bindings.length = c.nDir)

/-- The channels of direction `d`. A direction without a binding has none of a well-formed configuration. -/
def Config.binding (c : Config) (d : Nat) : Binding := c.bindings.getD d ⟨0, 0⟩

/-- `2^CNT_W`, the modulus of every counter (10_state.md R13). -/
def Config.cntMod (c : Config) : Nat := 2 ^ c.cntW

/-- The pin number of the sentinel handle: all ones in `PIN_W` bits (10_state.md R28). -/
def Config.allOnesPin (c : Config) : Nat := 2 ^ c.pinW - 1

/-- The hinted instantiation H of 95_test_vectors.md. DESIGN CHOICE, unsafe for a claim about `State.reset`
alone: the spec leaves `CAP`, the Init codes and the pins open (log entry 2). Channel 0 is the serial and
channel 1 the network channel; direction 0 reads the serial one (D35). -/
def Config.hinted : Config where
  nDir := 2
  cap := 16
  cntW := 32
  errW := 8
  init1Code := 0xF0
  init2Code := 0xF1
  init2CountsWerr := true
  nPins := 32
  pinW := 5
  pwkPin := 17
  initWriteTarget := .argPin
  fixedPin := 4
  edgeSense := .logical
  bindings := [⟨0, 1⟩, ⟨1, 0⟩]

/-- FREE VALUE (log entry 19). The physical level that pin `p` shows after the `n`-th `RESET` operation, which
the spec leaves unspecified (10_state.md R30, 93_implementation_defined.md U2). Nothing constrains it. -/
opaque Config.freeLevel (n p : Nat) : Bool

end Sys2Proof
end

