-- ==== Sys2Proof/Syntax.lean ====
section
/-! DEFINITION. The instructions of FDC706, one constructor per row of spec/opcode_table.json, their operand types, and the encoded items that stand for them at the block's interface. -/

namespace Sys2Proof

/-- A Frame Type Code, the tagged variant of 10_state.md R18. -/
inductive FrameTypeCode
  | invalid
  | incomplete
  | endOfStream
  | endOfFile
  | keepalive
  | init1
  | init2
  | panelPowerKey
  | forwardable (code : Byte)
deriving DecidableEq, Repr

/-- A pin's direction (10_state.md R21). -/
inductive Direction
  | input
  | output
deriving DecidableEq, Repr

/-- A pin's edge-trigger mode (10_state.md R23). -/
inductive EdgeMode
  | none
  | rising
  | falling
deriving DecidableEq, Repr

/-- A handle, the value `INIT_POWER_KEY_SENSOR` returns (10_state.md R28). -/
structure Handle where
  ok : Bool
  pin : Nat
deriving DecidableEq, Repr

/-- What the environment answers to `ChRead` (00_scope.md R8). -/
inductive ReadAns
  | bytes (bs : List Byte)
  | eof
  | err (e : Nat)
deriving DecidableEq, Repr

/-- What the environment answers to `ChWrite` (00_scope.md R8). -/
inductive WriteAns
  | count (k : Nat)
  | err (e : Nat)
deriving DecidableEq, Repr

/-- Which action emits an `ACK2` frame: `Handshake` (R122) or the Init2 action (R115); they differ in whether a
failed write is always counted. -/
inductive AckSource
  | handshake
  | init2Action
deriving DecidableEq, Repr

/-- The instructions: one constructor per row of the opcode table. `d` is a direction index, `p` a pin number. -/
inductive Instr
  -- frames (dispatched by RESOLVE), 41_packet_dispatcher.md
  | keepalive (d : Nat)
  | init1 (d : Nat)
  | init2 (d : Nat)
  | pwk (d : Nat)
  | fwd (d : Nat) (c : Byte)
  | incomplete (d : Nat)
  | eos (d : Nat)
  | invalid (d : Nat)
  -- channel answers
  | eof (d : Nat)
  | invalidRdErr (d : Nat) (e : Nat)
  -- emitted frames
  | ack1 (d : Nat)
  | ack2 (d : Nat) (src : AckSource)
  -- host commands
  | reset
  | fbInit (d : Nat)
  | fbDestroy (d : Nat)
  | cycle (d : Nat)
  | rdStatus (d : Nat)
  | exportPin (p : Nat)
  | exportIfAbsent (p : Nat)
  | setDirection (p : Nat) (x : Direction)
  | setPolarity (p : Nat) (a : Bool)
  | setEdge (p : Nat) (e : BitVec 2)
  /-- the operand is a handle, with `ok` set when it is a plain pin number (42_gpio.md R147, R155; log entry 13) -/
  | readValue (h : Handle)
  | writeValue (p : Nat) (v : Bool)
  | poll (h : Handle)
  | waitEdge (h : Handle)
  | initPowerKeySensor
  | initOutputPin (p : Nat)
  | setPin (p : Nat) (v : Bool)
  -- environment event
  | sample (p : Nat) (v : Bool)
  -- phases of CYCLE
  | readInto (d : Nat)
  | resolve (d : Nat) (t : FrameTypeCode)
deriving DecidableEq, Repr

/-- A host command as the command port carries it: the code and the two operands of 30_encoding.md R73. `hok` is
the `ok` bit of a handle operand, for which the table has no field, and is set where `a` is no handle (DESIGN
CHOICE, log entry 13). -/
structure Command where
  cmd : Byte
  a : Nat
  b : BitVec 2
  hok : Bool := true
deriving DecidableEq, Repr

/-- What the decoder reads, one constructor per encoded space of the opcode table. -/
inductive Item
  /-- a host command (R73) -/
  | command (c : Command)
  /-- the environment presents level `v` on pin `p` (42_gpio.md R149) -/
  | event (p : Nat) (v : Bool)
  /-- the reset input of the implementation is asserted (70_reset_and_hazards.md R220; DESIGN CHOICE, log entry 30) -/
  | resetInput
  /-- the content of direction `d`'s Frame Buffer after a fill (R70) -/
  | frame (d : Nat) (bs : List Byte)
  /-- an answer of direction `d`'s `IN` channel that carries no bytes (40_frame_reader.md R93, R94) -/
  | answer (d : Nat) (a : ReadAns)
  /-- a frame the block emits of its own making (R67) -/
  | emitted (d : Nat) (src : AckSource) (bs : List Byte)
deriving DecidableEq, Repr

/-- Why the decoder rejects an item. -/
inductive Reject
  /-- a `cmd` value outside the table (R73) -/
  | unknownCommand (cmd : Byte)
  /-- operand `a`, or a pin number or error code, wider than its field (R73, R8) -/
  | operandTooWide (a : Nat)
  /-- operand `b` above 1 where the operand is one bit (R74, 93_implementation_defined.md U21) -/
  | notOneBit (b : BitVec 2)
  /-- a direction index that names no FDC machine -/
  | noSuchDirection (d : Nat)
  /-- an empty buffer has no classification (40_frame_reader.md R95) -/
  | emptyFrame
  /-- bytes answered to a read are appended before they are classified (40_frame_reader.md R92) -/
  | bytesNotClassified
  /-- bytes that are neither acknowledgement in the form its emitter sends (R67) -/
  | notEmitted
deriving DecidableEq, Repr

end Sys2Proof
end

