-- ==== Sys2Proof/WellFormed.lean ====
section
/-! DEFINITION. When an instruction's operands are values the encodings of 30_encoding.md admit. -/

namespace Sys2Proof

/-- `c` is none of the four named type codes, so that it is Forwardable (30_encoding.md R66). -/
def Config.unnamed (cfg : Config) (c : Byte) : Bool :=
  decide (c ≠ keepaliveCode) && decide (c ≠ cfg.init1Code)
  && decide (c ≠ cfg.init2Code) && decide (c ≠ pwkCode)

/-- The Frame Type Codes that the reader can produce (40_frame_reader.md R96): a Forwardable code is unnamed. -/
def FrameTypeCode.wf (cfg : Config) : FrameTypeCode → Bool
  | .forwardable c => cfg.unnamed c
  | .invalid => true
  | .incomplete => true
  | .endOfStream => true
  | .endOfFile => true
  | .keepalive => true
  | .init1 => true
  | .init2 => true
  | .panelPowerKey => true

/-- Operand `a` of a command fits its field (R73). It may still name no direction or pin: such an operation is
refused (43_host_interface.md R180) or fails (42_gpio.md R141) when it runs. -/
def Config.fitsA (cfg : Config) (a : Nat) : Bool := decide (a < 2 ^ cfg.aWidth)

/-- The operands of `i` are values its encoding admits. -/
def Instr.wf (cfg : Config) : Instr → Bool
  | .keepalive d => decide (d < cfg.nDir)
  | .init1 d => decide (d < cfg.nDir)
  | .init2 d => decide (d < cfg.nDir)
  | .pwk d => decide (d < cfg.nDir)
  | .fwd d c => decide (d < cfg.nDir) && cfg.unnamed c
  | .incomplete d => decide (d < cfg.nDir)
  | .eos d => decide (d < cfg.nDir)
  | .invalid d => decide (d < cfg.nDir)
  | .eof d => decide (d < cfg.nDir)
  | .invalidRdErr d e => decide (d < cfg.nDir) && decide (e < 2 ^ cfg.errW)
  | .ack1 d => decide (d < cfg.nDir)
  | .ack2 d _ => decide (d < cfg.nDir)
  | .reset => true
  | .fbInit d => cfg.fitsA d
  | .fbDestroy d => cfg.fitsA d
  | .cycle d => cfg.fitsA d
  | .rdStatus d => cfg.fitsA d
  | .exportPin p => cfg.fitsA p
  | .exportIfAbsent p => cfg.fitsA p
  | .setDirection p _ => cfg.fitsA p
  | .setPolarity p _ => cfg.fitsA p
  | .setEdge p _ => cfg.fitsA p
  | .readValue h => cfg.fitsA h.pin
  | .writeValue p _ => cfg.fitsA p
  | .poll h => cfg.fitsA h.pin
  | .waitEdge h => cfg.fitsA h.pin
  | .initPowerKeySensor => true
  | .initOutputPin p => cfg.fitsA p
  | .setPin p _ => cfg.fitsA p
  | .sample p _ => decide (p < 2 ^ cfg.pinW)
  | .readInto d => decide (d < cfg.nDir)
  | .resolve d t => decide (d < cfg.nDir) && t.wf cfg

end Sys2Proof
end

