-- ==== Sys2Proof/Decode.lean ====
section
/-! DEFINITION. Classification of a buffered frame (40_frame_reader.md R95, 30_encoding.md R66), the decoder of every encoded space, the status port encoding (R72), the encoder, and the opcode table's words. -/

namespace Sys2Proof

/-! ## Frames -/

/-- `TypeOf(c)`: the Frame Type Code of a terminated frame whose type byte is `c` (R66). -/
def typeOf (cfg : Config) (c : Byte) : FrameTypeCode :=
  if c = keepaliveCode then .keepalive
  else if c = cfg.init1Code then .init1
  else if c = cfg.init2Code then .init2
  else if c = pwkCode then .panelPowerKey
  else .forwardable c

/-- The byte at offset `i` of a buffered frame. -/
def byteAt (bs : List Byte) (i : Nat) : Byte := bs.getD i 0

/-- `Classify(buf, cursor)` on the buffered bytes `bs = buf[0 .. cursor-1]` (40_frame_reader.md R95). Only the first,
the second and the last byte and the length are looked at; the rule defines it for a non-empty buffer. -/
def classify (cfg : Config) (bs : List Byte) : FrameTypeCode :=
  if byteAt bs 0 = startByte then
    if 2 ≤ bs.length ∧ byteAt bs (bs.length - 1) = endByte then typeOf cfg (byteAt bs 1)
    else .incomplete
  else if byteAt bs 0 = eosByte ∧ bs.length = 1 then .endOfStream
  else .invalid

/-- The instruction that a Frame Type Code selects in `RESOLVE` (41_packet_dispatcher.md R111). -/
def frameInstr (d : Nat) : FrameTypeCode → Instr
  | .invalid => .invalid d
  | .incomplete => .incomplete d
  | .endOfStream => .eos d
  | .endOfFile => .eof d
  | .keepalive => .keepalive d
  | .init1 => .init1 d
  | .init2 => .init2 d
  | .panelPowerKey => .pwk d
  | .forwardable c => .fwd d c

/-- The class number on the status port (R72). -/
def FrameTypeCode.classNo : FrameTypeCode → BitVec 4
  | .invalid => 0
  | .incomplete => 1
  | .endOfStream => 2
  | .endOfFile => 3
  | .keepalive => 4
  | .init1 => 5
  | .init2 => 6
  | .panelPowerKey => 7
  | .forwardable _ => 8

/-- The `code` field on the status port (R72). -/
def FrameTypeCode.codeField (cfg : Config) : FrameTypeCode → Byte
  | .invalid => 0
  | .incomplete => 0
  | .endOfStream => 0
  | .endOfFile => 0
  | .keepalive => keepaliveCode
  | .init1 => cfg.init1Code
  | .init2 => cfg.init2Code
  | .panelPowerKey => pwkCode
  | .forwardable c => c

/-- The 12-bit value `{class[3:0], code[7:0]}` of a Frame Type Code (R72). -/
def FrameTypeCode.statusPort (cfg : Config) (t : FrameTypeCode) : BitVec 12 :=
  t.classNo ++ t.codeField cfg

/-! ## Enumerations of operand `b` (R74) -/

/-- A one-bit operand; a larger value cannot be expressed and is rejected (log entry 14). -/
def decodeBit (b : BitVec 2) : Except Reject Bool :=
  if b = 0 then .ok false else if b = 1 then .ok true else .error (.notOneBit b)

/-- The value of a one-bit operand in the field `b`. -/
def encodeBit (v : Bool) : BitVec 2 := if v then 1 else 0

/-- `in = 0`, `out = 1`. -/
def Direction.ofBit (v : Bool) : Direction := if v then .output else .input

/-- `in = 0`, `out = 1`. -/
def Direction.toBit : Direction → Bool
  | .input => false
  | .output => true

/-- `none = 0`, `rising = 1`, `falling = 2`; 3 is not a mode. -/
def EdgeMode.ofCode (e : BitVec 2) : Option EdgeMode :=
  if e = 0 then some .none else if e = 1 then some .rising
  else if e = 2 then some .falling else Option.none

/-- The code of an edge mode (R74). -/
def EdgeMode.code : EdgeMode → BitVec 2
  | .none => 0
  | .rising => 1
  | .falling => 2

/-! ## Answers of the channel interface (00_scope.md R8) -/

/-- An answer that the channel interface can give to a read of at most `max` bytes (40_frame_reader.md R91). -/
def ReadAns.fits (cfg : Config) (max : Nat) : ReadAns → Bool
  | .bytes bs => decide (1 ≤ bs.length) && decide (bs.length ≤ max)
  | .eof => true
  | .err e => decide (e < 2 ^ cfg.errW)

/-- An answer that the channel interface can give to a write. -/
def WriteAns.fits (cfg : Config) : WriteAns → Bool
  | .count _ => true
  | .err e => decide (e < 2 ^ cfg.errW)

/-! ## The decoder -/

/-- The command selected by a port word whose operand `a` fits (R73). -/
def decodeFitting (c : Command) : Except Reject Instr :=
  match c.cmd.toNat with
  | 0x00 => .ok .reset
  | 0x01 => .ok (.fbInit c.a)
  | 0x02 => .ok (.fbDestroy c.a)
  | 0x03 => .ok (.cycle c.a)
  | 0x04 => .ok (.rdStatus c.a)
  | 0x10 => .ok (.exportPin c.a)
  | 0x11 => .ok (.exportIfAbsent c.a)
  | 0x12 => (decodeBit c.b).map fun v => .setDirection c.a (Direction.ofBit v)
  | 0x13 => (decodeBit c.b).map fun v => .setPolarity c.a v
  | 0x14 => .ok (.setEdge c.a c.b)
  | 0x15 => .ok (.readValue ⟨c.hok, c.a⟩)
  | 0x16 => (decodeBit c.b).map fun v => .writeValue c.a v
  | 0x17 => .ok (.poll ⟨c.hok, c.a⟩)
  | 0x18 => .ok (.waitEdge ⟨c.hok, c.a⟩)
  | 0x20 => .ok .initPowerKeySensor
  | 0x21 => .ok (.initOutputPin c.a)
  | 0x22 => (decodeBit c.b).map fun v => .setPin c.a v
  | _ => .error (.unknownCommand c.cmd)

/-- A host command (R73); an operand `a` wider than its field is rejected (log entry 14). -/
def decodeCommand (cfg : Config) (c : Command) : Except Reject Instr :=
  if cfg.fitsA c.a then decodeFitting c else .error (.operandTooWide c.a)

/-- A frame the block emits: `ACK1` by the handshake, `ACK2` by either of its emitters (R67). -/
def decodeEmitted (d : Nat) (src : AckSource) (bs : List Byte) : Except Reject Instr :=
  if bs = ack1Frame ∧ src = .handshake then .ok (.ack1 d)
  else if bs = ack2Frame then .ok (.ack2 d src)
  else .error .notEmitted

/-- A channel answer that carries no bytes (40_frame_reader.md R93, R94). -/
def decodeAnswer (cfg : Config) (d : Nat) : ReadAns → Except Reject Instr
  | .eof => .ok (.eof d)
  | .err e => if e < 2 ^ cfg.errW then .ok (.invalidRdErr d e) else .error (.operandTooWide e)
  | .bytes _ => .error .bytesNotClassified

/-- The content of a Frame Buffer: classified, then the instruction its Type Code selects (R70). -/
def decodeFrame (cfg : Config) (d : Nat) (bs : List Byte) : Except Reject Instr :=
  if bs = [] then .error .emptyFrame else .ok (frameInstr d (classify cfg bs))

/-- `r`, once `d` names a direction. -/
def needDirection (cfg : Config) (d : Nat) (r : Except Reject Instr) : Except Reject Instr :=
  if d < cfg.nDir then r else .error (.noSuchDirection d)

/-- The decoder, total on every item of every encoded space. -/
def decode (cfg : Config) : Item → Except Reject Instr
  | .command c => decodeCommand cfg c
  | .resetInput => .ok .reset
  | .event p v => if p < 2 ^ cfg.pinW then .ok (.sample p v) else .error (.operandTooWide p)
  | .frame d bs => needDirection cfg d (decodeFrame cfg d bs)
  | .answer d a => needDirection cfg d (decodeAnswer cfg d a)
  | .emitted d src bs => needDirection cfg d (decodeEmitted d src bs)

/-! ## The encoder -/

/-- A terminated frame with type byte `c` and a payload (30_encoding.md R61). -/
def frameBytes (c : Byte) (payload : List Byte) : List Byte := [startByte, c] ++ payload ++ [endByte]

/-- A command word whose unused fields are 0. -/
def cmdItem (cmd : Byte) (a : Nat) (b : BitVec 2) : Item := .command { cmd := cmd, a := a, b := b }

/-- The item that stands for an instruction: the port word of a command (R73), the canonical content of a frame
(R68 for Keepalive and Power, the shortest one for the rest), an answer, an emitted frame, an event. The two
phases of `CYCLE` have no code of their own (R73). `RESET` has a second form, the reset input (R220). -/
def encode (cfg : Config) : Instr → Option Item
  | .keepalive d => some (.frame d (frameBytes keepaliveCode [0x00]))
  | .init1 d => some (.frame d (frameBytes cfg.init1Code []))
  | .init2 d => some (.frame d (frameBytes cfg.init2Code []))
  | .pwk d => some (.frame d (frameBytes pwkCode [0x01]))
  | .fwd d c => some (.frame d (frameBytes c []))
  | .incomplete d => some (.frame d [startByte])
  | .eos d => some (.frame d [eosByte])
  | .invalid d => some (.frame d [0xFF])
  | .eof d => some (.answer d .eof)
  | .invalidRdErr d e => some (.answer d (.err e))
  | .ack1 d => some (.emitted d .handshake ack1Frame)
  | .ack2 d src => some (.emitted d src ack2Frame)
  | .reset => some (cmdItem 0x00 0 0)
  | .fbInit d => some (cmdItem 0x01 d 0)
  | .fbDestroy d => some (cmdItem 0x02 d 0)
  | .cycle d => some (cmdItem 0x03 d 0)
  | .rdStatus d => some (cmdItem 0x04 d 0)
  | .exportPin p => some (cmdItem 0x10 p 0)
  | .exportIfAbsent p => some (cmdItem 0x11 p 0)
  | .setDirection p x => some (cmdItem 0x12 p (encodeBit x.toBit))
  | .setPolarity p a => some (cmdItem 0x13 p (encodeBit a))
  | .setEdge p e => some (cmdItem 0x14 p e)
  | .readValue h => some (.command { cmd := 0x15, a := h.pin, b := 0, hok := h.ok })
  | .writeValue p v => some (cmdItem 0x16 p (encodeBit v))
  | .poll h => some (.command { cmd := 0x17, a := h.pin, b := 0, hok := h.ok })
  | .waitEdge h => some (.command { cmd := 0x18, a := h.pin, b := 0, hok := h.ok })
  | .initPowerKeySensor => some (cmdItem 0x20 0 0)
  | .initOutputPin p => some (cmdItem 0x21 p 0)
  | .setPin p v => some (cmdItem 0x22 p (encodeBit v))
  | .sample p v => some (.event p v)
  | .readInto _ => none
  | .resolve _ _ => none

/-! ## Words of the opcode table -/

/-- The frame content meant by a table key `{buf[0], buf[1]}` (R70), with the side conditions of the first row in
order whose key it matches: a `0xFE` key is that of a terminated frame, a `0x00` key that of the lone sentinel,
whose low byte does not exist (log entry 22). -/
def keyContent (key : Nat) : List Byte :=
  let b0 : Byte := BitVec.ofNat 8 (key / 256)
  let b1 : Byte := BitVec.ofNat 8 key
  if b0 = startByte then (if b1 = endByte then [b0, b1] else [b0, b1, endByte])
  else if b0 = eosByte then [b0]
  else [b0, b1]

/-- The item that an opcode-table word of `nbits` bits stands for, operands 0: a command code of 8 bits, a frame
key of 16 bits, an emitted frame of 24 bits whose first byte is the most significant (R67, R70, R73). -/
def tableItem (nbits w : Nat) : Option Item :=
  if nbits = 8 then some (cmdItem (BitVec.ofNat 8 w) 0 0)
  else if nbits = 16 then some (.frame 0 (keyContent w))
  else if nbits = 24 then
    some (.emitted 0 .handshake [BitVec.ofNat 8 (w / 65536), BitVec.ofNat 8 (w / 256), BitVec.ofNat 8 w])
  else none

/-- The instruction the decoder reads from an opcode-table word, under the hinted instantiation (log entry 22). -/
def decodeTableWord (nbits w : Nat) : Option Instr :=
  if w < 2 ^ nbits then
    match tableItem nbits w with
    | some x => (decode Config.hinted x).toOption
    | none => none
  else none

end Sys2Proof
end

