-- ==== Sys2Proof/Machine/State.lean ====
section
/-! DEFINITION. The state of FDC706 (10_state.md), what an operation returns, the environment and schedule the model holds as data, why a step can stop, and the state after reset. -/

namespace Sys2Proof.Machine

/-! ## The buffer space of one FDC machine -/

/-- The cells of a Frame Buffer (20_memory.md R40): rising offsets, no cell equal to what an unlisted one reads as. -/
abbrev Memory := List Host.Cell

/-- What an unlisted buffer cell reads as. DESIGN CHOICE, unsafe: the spec leaves `buf` unspecified after reset and
no rule reads a cell that was not filled (10_state.md R30, 20_memory.md R46; log entry 16). -/
def Memory.unlisted : Byte := 0x00

/-- The canonical form of a memory whose offsets are all above `low`. -/
def Memory.wfFrom : Nat → Memory → Bool
  | _, [] => true
  | low, (a, v) :: rest => decide (low ≤ a) && decide (v ≠ Memory.unlisted) && Memory.wfFrom (a + 1) rest

/-- The canonical form: strictly rising offsets, no cell that reads as an unlisted one would. -/
def Memory.wf (m : Memory) : Bool := Memory.wfFrom 0 m

/-! ## The state the spec gives the machine -/

/-- One FDC machine: a Frame Buffer with its reader and dispatcher state (10_state.md R10 to R15, R32). -/
structure Fdc where
  /-- `alive` (R32) -/
  alive : Bool
  /-- `buf` (R11) -/
  buf : Memory
  /-- `cursor` (R12) -/
  cursor : Nat
  /-- `valid` (R13) -/
  valid : Nat
  /-- `invalid` (R13) -/
  invalid : Nat
  /-- `write_errors` (R13) -/
  writeErrors : Nat
  /-- `rd_err` (R14) -/
  rdErr : Bool
  /-- `rd_err_code` (R14) -/
  rdErrCode : Nat
  /-- `fault_full` (R15) -/
  faultFull : Bool
deriving DecidableEq, Repr

/-- One pin of the GPIO edge detector (10_state.md R20 to R26). -/
structure Pin where
  /-- R20 -/
  exported : Bool
  /-- R21 -/
  dir : Direction
  /-- R22 -/
  activeLow : Bool
  /-- R23 -/
  edge : EdgeMode
  /-- R24 -/
  outLatch : Bool
  /-- R25, the physical level last presented -/
  line : Bool
  /-- R26 -/
  edgePending : Bool
deriving DecidableEq, Repr

/-! ## What an operation returns, and the observable history -/

/-- The record `RD_STATUS` returns (43_host_interface.md R182). -/
structure Status where
  alive : Bool
  cursor : Nat
  valid : Nat
  invalid : Nat
  writeErrors : Nat
  rdErr : Bool
  rdErrCode : Nat
  faultFull : Bool
deriving DecidableEq, Repr

/-- What an operation answers its invoker. -/
inductive Result
  /-- an operation with nothing to return has taken effect -/
  | done
  /-- a GPIO operation returned `ok` (42_gpio.md R141) -/
  | ok
  /-- a GPIO operation returned `fail` (R141) -/
  | fail
  /-- `ok` with a one-bit value (R147, R150) -/
  | value (b : Bool)
  /-- the Frame Type Code of a cycle, a read phase or a dispatched frame (41_packet_dispatcher.md R127) -/
  | code (t : FrameTypeCode)
  /-- the status record (R182) -/
  | status (r : Status)
  /-- a handle (R152) -/
  | handle (h : Handle)
  /-- the count of failed writes (R154) -/
  | count (n : Nat)
  /-- `refuse`: no transition, nothing changed, nothing issued (00_scope.md R8) -/
  | refused
  /-- `hold`: not enabled yet, nothing changed, nothing issued (R8) -/
  | held
deriving DecidableEq, Repr

/-- The agents that take steps (60_exceptions.md R205): the host's two contexts, the environment's lines, and the reset
input. -/
inductive Agent
  | frameHost
  | gedHost
  | environment
  /-- the reset input, the second form of `RESET` (70_reset_and_hazards.md R220; DESIGN CHOICE, log entry 30) -/
  | resetInput
deriving DecidableEq, Repr

/-- An observable event (10_state.md R29, 20_memory.md R48, 60_exceptions.md R206). -/
inductive Event
  /-- machine `d` asked channel `ch` for at most `max` bytes and got `ans` -/
  | chRead (d ch max : Nat) (ans : ReadAns)
  /-- machine `d` offered `bs` to channel `ch` and got `ans` -/
  | chWrite (d ch : Nat) (bs : List Byte) (ans : WriteAns)
  /-- a GPIO primitive drew `env_ok` -/
  | gpioEnv (ok : Bool)
  /-- `Trace(PWK, frame)` of machine `d` -/
  | tracePwk (d : Nat) (frame : List Byte)
  /-- `Trace(ReadError, e)` of machine `d` -/
  | traceReadError (d : Nat) (e : Nat)
  /-- an agent's operation ended and returned `r` -/
  | finished (who : Agent) (i : Instr) (r : Result)
  /-- an agent's item was rejected by the decoder: refused, no transition -/
  | rejected (who : Agent) (why : Reject)
deriving DecidableEq, Repr

/-! ## The environment as data -/

/-- The answers a channel will give, next first (00_scope.md R8). An exhausted list is a request not answered yet
(43_host_interface.md R184; log entry 8). -/
structure ChannelEnv where
  reads : List ReadAns
  writes : List WriteAns
deriving DecidableEq, Repr

/-- The state of the model: what the spec gives the machine, its configuration, its environment and its history. -/
structure State where
  /-- the parameters, fixed for the machine (log entry 1) -/
  cfg : Config
  /-- the `N_DIR` FDC machines (10_state.md R10) -/
  fdcs : List Fdc
  /-- the `N_PINS` pins of the GED (R10) -/
  pins : List Pin
  /-- the answers of the channels, by channel number -/
  chans : List ChannelEnv
  /-- the answers of the `GpioEnv` draws, next first -/
  draws : List Bool
  /-- commands invoked on the frame-path context, oldest first -/
  frameQ : List Command
  /-- commands invoked on the GED's context, oldest first -/
  gedQ : List Command
  /-- levels the environment has still to present, oldest first -/
  samples : List (Nat × Bool)
  /-- which agent moves next (log entry 10) -/
  turns : List Agent
  /-- what the last operation answered -/
  ret : Result
  /-- the observable history, oldest first -/
  history : List Event
  /-- how many `RESET` operations have run: the argument of the free value of `line` (log entry 19) -/
  epoch : Nat
deriving DecidableEq, Repr

/-! ## Why a step can stop -/

/-- Faults. Every condition of the spec resolves to a counter, a flag or a returned status (60_exceptions.md R190). -/
inductive Fault
  /-- Raised by nobody: the spec has no condition that stops the block. Safe. -/
  | none
deriving DecidableEq, Repr

/-- Refusals. -/
inductive Refusal
  /-- Raised by an arm of `exec` that has no meaning yet; no arm is left so. Safe. -/
  | notModelled (mnemonic : String)
  /-- Raised by `step` on a configuration that breaks 00_scope.md R6 (93_implementation_defined.md U18). Safe. -/
  | badConfiguration
  /-- Raised by a channel request to which the environment's data hold something that is no answer of the interface:
  `Bytes` with no or too many bytes, or an error code wider than `ERR_W` (40_frame_reader.md R91, U4). Safe. -/
  | notAnAnswer
deriving DecidableEq, Repr

/-! ## Reset -/

/-- An FDC machine after `RESET` (10_state.md R30, R35). -/
def Fdc.reset : Fdc where
  alive := false
  buf := []
  cursor := 0
  valid := 0
  invalid := 0
  writeErrors := 0
  rdErr := false
  rdErrCode := 0
  faultFull := false

/-- A pin after `RESET` (R30, R35). `line` is unspecified by the spec; 0 is a DESIGN CHOICE, unsafe (log entry 18). -/
def Pin.reset : Pin where
  exported := false
  dir := .input
  activeLow := false
  edge := .none
  outLatch := false
  line := false
  edgePending := false

/-- The machine of configuration `cfg` right after power-on reset, with no input waiting. -/
def State.resetOf (cfg : Config) : State where
  cfg := cfg
  fdcs := List.replicate cfg.nDir Fdc.reset
  pins := List.replicate cfg.nPins Pin.reset
  chans := List.replicate cfg.nDir ⟨[], []⟩
  draws := []
  frameQ := []
  gedQ := []
  samples := []
  turns := []
  ret := .done
  history := []
  epoch := 0

/-- The machine right after reset, under the hinted instantiation (log entry 2). -/
def State.reset : State := State.resetOf Config.hinted

end Sys2Proof.Machine
end

