-- ==== Sys2Proof/Machine/Ops.lean ====
section
/-! DEFINITION. The shared operations: buffer cells, the accessors of machines, pins and channels, the requests to the environment (00_scope.md R8) with the atomic end of an operation, the shared actions of the dispatcher (41_packet_dispatcher.md R122 to R124), and the agents' queues. The spec has no exception entry or return (60_exceptions.md R190, R200), so none stands here. -/

namespace Sys2Proof.Machine

/-! ## Buffer cells (20_memory.md R40, R41) -/

/-- The byte at offset `a`. -/
def Memory.read : Memory → Nat → Byte
  | [], _ => Memory.unlisted
  | (k, v) :: rest, a => if k = a then v else Memory.read rest a

/-- Store `v` at offset `a`, keeping the canonical form. -/
def Memory.write : Memory → Nat → Byte → Memory
  | [], a, v => if v = Memory.unlisted then [] else [(a, v)]
  | (k, w) :: rest, a, v =>
    if a < k then (if v = Memory.unlisted then (k, w) :: rest else (a, v) :: (k, w) :: rest)
    else if a = k then (if v = Memory.unlisted then rest else (a, v) :: rest)
    else (k, w) :: Memory.write rest a v

/-- Store bytes at ascending offsets from `off`, in stream order (40_frame_reader.md R92). -/
def Memory.fill (m : Memory) (off : Nat) : List Byte → Memory
  | [] => m
  | b :: bs => Memory.fill (m.write off b) (off + 1) bs

/-- The bytes at offsets `off .. off + n - 1`. -/
def Memory.bytesFrom (m : Memory) (off : Nat) : Nat → List Byte
  | 0 => []
  | n + 1 => m.read off :: Memory.bytesFrom m (off + 1) n

/-! ## FDC machines, pins and channels by number -/

/-- FDC machine `d`, where `d < N_DIR`. -/
def State.fdc? (s : State) (d : Nat) : Option Fdc := if d < s.cfg.nDir then s.fdcs[d]? else none

/-- FDC machine `d`, that of a reset machine where there is none. -/
def State.fdcD (s : State) (d : Nat) : Fdc := (s.fdc? d).getD Fdc.reset

/-- Change FDC machine `d` and nothing else (10_state.md R33). -/
def State.updFdc (s : State) (d : Nat) (g : Fdc → Fdc) : State := { s with fdcs := s.fdcs.modify d g }

/-- Pin `p`, where `p < N_PINS` (42_gpio.md R140). -/
def State.pin? (s : State) (p : Nat) : Option Pin := if p < s.cfg.nPins then s.pins[p]? else none

/-- Change pin `p` and nothing else. -/
def State.updPin (s : State) (p : Nat) (g : Pin → Pin) : State := { s with pins := s.pins.modify p g }

/-- The answers channel `c` will give; a channel nobody answers has none. -/
def State.chan (s : State) (c : Nat) : ChannelEnv := s.chans.getD c ⟨[], []⟩

/-- Replace the answers channel `c` will give. -/
def State.setChan (s : State) (c : Nat) (e : ChannelEnv) : State := { s with chans := s.chans.set c e }

/-- Record an event. -/
def State.log (s : State) (e : Event) : State := { s with history := s.history ++ [e] }

/-- The buffered frame `buf[0 .. cursor-1]` of machine `d`. -/
def State.frame (s : State) (d : Nat) : List Byte := (s.fdcD d).buf.bytesFrom 0 (s.fdcD d).cursor

/-- `IN` of direction `d` (10_state.md R16). -/
def State.inCh (s : State) (d : Nat) : Nat := (s.cfg.binding d).inp

/-- `OUT` of direction `d` (10_state.md R16). -/
def State.outCh (s : State) (d : Nat) : Nat := (s.cfg.binding d).out

/-! ## An operation as one atomic transition (00_scope.md R9) -/

/-- How far an operation got: it ran to its end, it waits for an answer or an edge, or it met something that is no
answer of the interface. -/
inductive Attempt (α : Type) where
  | done (s : State) (a : α)
  | held
  | refused (r : Refusal)

/-- Go on with what an operation left and returned. -/
def Attempt.andThen {α β : Type} (x : Attempt α) (k : State → α → Attempt β) : Attempt β :=
  match x with
  | .done s a => k s a
  | .held => .held
  | .refused r => .refused r

/-- The outcome of an operation begun in `s`: there is no partial operation, so one that waits leaves `s` as it was
(43_host_interface.md R184). -/
def State.finish (s : State) (x : Attempt Result) : Host.Outcome State Fault Refusal :=
  match x with
  | .done t r => .next { t with ret := r }
  | .held => .next { s with ret := .held }
  | .refused r => .refused r

/-- `refuse`: the operation has no transition (R8). -/
def State.refuse (s : State) : Attempt Result := .done s .refused

/-! ## Requests to the environment (R8) -/

/-- `ChRead(IN, max)` of machine `d`: the answer is consumed and the request recorded (20_memory.md R44, R48). -/
def State.chRead (s : State) (d max : Nat) : Attempt ReadAns :=
  match (s.chan (s.inCh d)).reads with
  | [] => .held
  | ans :: rest =>
    if ReadAns.fits s.cfg max ans then
      .done ((s.setChan (s.inCh d) { s.chan (s.inCh d) with reads := rest }).log
        (.chRead d (s.inCh d) max ans)) ans
    else .refused .notAnAnswer

/-- `ChWrite(ch, bs)` of machine `d`. -/
def State.chWrite (s : State) (d ch : Nat) (bs : List Byte) : Attempt WriteAns :=
  match (s.chan ch).writes with
  | [] => .held
  | ans :: rest =>
    if WriteAns.fits s.cfg ans then
      .done ((s.setChan ch { s.chan ch with writes := rest }).log (.chWrite d ch bs ans)) ans
    else .refused .notAnAnswer

/-- `GpioEnv()`: draw `env_ok` (42_gpio.md R141). -/
def State.gpioEnv (s : State) : Attempt Bool :=
  match s.draws with
  | [] => .held
  | b :: rest => .done ({ s with draws := rest }.log (.gpioEnv b)) b

/-! ## Agents and their queues (60_exceptions.md R205, 20_memory.md R49, R50) -/

/-- The item an agent offers next: a command its context has invoked, or a level on a pin. A turn of the reset input is
the input being asserted, in whatever state the two contexts are; that an implementation has this form of `RESET` beside
the command is a DESIGN CHOICE (70_reset_and_hazards.md R220; log entry 30). -/
def State.offered (s : State) : Agent → Option Item
  | .frameHost => s.frameQ.head?.map .command
  | .gedHost => s.gedQ.head?.map .command
  | .environment => s.samples.head?.map fun e => .event e.1 e.2
  | .resetInput => some .resetInput

/-- Take an agent's offered item away; the reset input has no queue. -/
def State.drop (s : State) : Agent → State
  | .frameHost => { s with frameQ := s.frameQ.tail }
  | .gedHost => { s with gedQ := s.gedQ.tail }
  | .environment => { s with samples := s.samples.tail }
  | .resetInput => s

/-- An item the decoder rejects is refused: no transition (30_encoding.md R73; log entry 11). -/
def State.rejectItem (s : State) (who : Agent) (why : Reject) : State :=
  { (s.drop who).log (.rejected who why) with ret := .refused }

/-- After an operation: one that is held stays its context's next item; any other is finished. -/
def State.retire (who : Agent) (i : Instr) (t : State) : State :=
  if t.ret = .held then t else (t.drop who).log (.finished who i t.ret)

/-- `retire` on the outcome of an operation. -/
def retireOutcome (who : Agent) (i : Instr) :
    Host.Outcome State Fault Refusal → Host.Outcome State Fault Refusal
  | .next t => .next (State.retire who i t)
  | .fault f => .fault f
  | .refused r => .refused r

end Sys2Proof.Machine
end

