-- ==== Sys2Proof/Machine/Operands.lean ====
section
/-! DEFINITION. The operand forms: an operation on a direction that must name an FDC machine, be alive or be ready for a cycle; on a pin that must exist; on a handle. Each states what happens to an operand that does not qualify. -/

namespace Sys2Proof.Machine

/-- An operation on machine `d`, refused when `d >= N_DIR` (43_host_interface.md R180). -/
def State.onFdc (s : State) (d : Nat) (k : Fdc → Attempt Result) : Attempt Result :=
  match s.fdc? d with
  | none => s.refuse
  | some f => k f

/-- An operation on machine `d`, refused when it is not alive (10_state.md R32). -/
def State.onAlive (s : State) (d : Nat) (k : Fdc → Attempt Result) : Attempt Result :=
  s.onFdc d fun f => if f.alive then k f else s.refuse

/-- An operation on machine `d`, admitted as `CYCLE` is: alive and not faulted (41_packet_dispatcher.md R110). -/
def State.onReady (s : State) (d : Nat) (k : Fdc → Attempt Result) : Attempt Result :=
  s.onAlive d fun f => if f.faultFull then s.refuse else k f

/-- Whether a GPIO primitive succeeded (42_gpio.md R141). -/
def primResult (ok : Bool) : Result := if ok then .ok else .fail

/-- A GPIO primitive on pin `p` (R141): it fails without a draw when `p >= N_PINS` or `cond` does not hold of the
pin, else draws `env_ok`, and changes the pin by `g` only on success. -/
def State.primitive (s : State) (p : Nat) (cond : Pin → Bool) (g : Pin → Pin) : Attempt Bool :=
  match s.pin? p with
  | none => .done s false
  | some q =>
    if cond q then
      s.gpioEnv.andThen fun t envOk => .done (if envOk then t.updPin p g else t) envOk
    else .done s false

/-- The pin a handle operation acts on, if it does not fail (R150, R155): `h.ok = 1`, the pin exists and is exported. -/
def State.handlePin (s : State) (h : Handle) : Option Pin :=
  if h.ok then (s.pin? h.pin).filter (·.exported) else none

end Sys2Proof.Machine
end

