-- ==== Sys2Proof/Machine/Flags.lean ====
section
/-! DEFINITION. The counters and flags: counter increments (10_state.md R13), when a write counts as failed (41_packet_dispatcher.md R112), the values derived from a pin (10_state.md R27), and edge detection (42_gpio.md R149). -/

namespace Sys2Proof.Machine

/-- A counter of `CNT_W` bits plus `n`, modulo `2^CNT_W`; no flag records the wrap (R13). -/
def addCounter (cfg : Config) (x n : Nat) : Nat := (x + n) % cfg.cntMod

/-- `fail(ans, n)`: an error, or a count that differs from the length offered (R112). -/
def writeFails : WriteAns → Nat → Nat
  | .err _, _ => 1
  | .count k, n => if k = n then 0 else 1

/-- The logical level of a pin (R27). -/
def Pin.logical (q : Pin) : Bool :=
  match q.dir with
  | .input => q.line ^^ q.activeLow
  | .output => q.outLatch

/-- The pad output of a pin, `none` where it is not driven (R27, 42_gpio.md R159). -/
def Pin.padOut (q : Pin) : Option Bool :=
  if q.exported ∧ q.dir = .output then some (q.outLatch ^^ q.activeLow) else none

/-- A transition from level `o` to level `n` is of the selected kind (R149). -/
def edgeDetects (e : EdgeMode) (o n : Bool) : Bool :=
  match e with
  | .none => false
  | .rising => !o && n
  | .falling => o && !n

/-- Presenting level `v` on pin `q` is an edge it detects: exported, an input, and a transition of the selected kind
judged after or before polarity inversion (R149, R157). -/
def Pin.edgeSeen (sense : EdgeSense) (q : Pin) (v : Bool) : Bool :=
  q.exported && decide (q.dir = .input) &&
  (match sense with
   | .logical => edgeDetects q.edge (q.line ^^ q.activeLow) (v ^^ q.activeLow)
   | .physical => edgeDetects q.edge q.line v)

/-- The pin after the environment presents level `v`: `line` follows, and a detected edge sets the flag (R149). -/
def Pin.present (sense : EdgeSense) (v : Bool) (q : Pin) : Pin :=
  { q with line := v, edgePending := q.edgePending || q.edgeSeen sense v }

end Sys2Proof.Machine
end

