-- ==== Sys2Proof/Machine/Reader.lean ====
section
/-! DEFINITION. The Frame Reader (40_frame_reader.md): the read phase `READ_INTO` of a cycle. -/

namespace Sys2Proof.Machine

/-- The fill (R92): the bytes go to `buf` at the cursor, which advances by their number. -/
def Fdc.fill (bs : List Byte) (f : Fdc) : Fdc :=
  { f with buf := f.buf.fill f.cursor bs, cursor := f.cursor + bs.length }

/-- A machine's buffer is full while its content is Incomplete (R98). -/
def State.exhausted (s : State) (d : Nat) : Bool :=
  decide (classify s.cfg (s.frame d) = .incomplete) && decide ((s.fdcD d).cursor = s.cfg.cap)

/-- `raise CapacityExhausted` on machine `d` when its buffer is full and Incomplete (R98). -/
def State.raiseIfFull (s : State) (d : Nat) : State :=
  if s.exhausted d then s.updFdc d fun f => { f with faultFull := true } else s

/-- The answer `Err(e)`: the sticky flag, the code and one trace event (R94). -/
def State.recordReadError (s : State) (d e : Nat) : State :=
  (s.updFdc d fun f => { f with rdErr := true, rdErrCode := e }).log (.traceReadError d e)

/-- `READ_INTO(d)` of an admitted machine (R90): one `ChRead` of at most `CAP - cursor` bytes (R91, R99). -/
def State.readPhase (s : State) (d : Nat) : Attempt FrameTypeCode :=
  (s.chRead d (s.cfg.cap - (s.fdcD d).cursor)).andThen fun t ans =>
    match ans with
    | .bytes bs =>
      let u := t.updFdc d (Fdc.fill bs)
      .done (u.raiseIfFull d) (classify u.cfg (u.frame d))
    | .eof => .done t .endOfFile
    | .err e => .done (t.recordReadError d e) .invalid

/-- READ_INTO: the phase on its own, admitted as R90 says, returning the Frame Type Code (log entry 4). -/
def execReadInto (d : Nat) (s : State) : Host.Outcome State Fault Refusal :=
  s.finish <| s.onReady d fun _ => (s.readPhase d).andThen fun t c => .done t (.code c)

end Sys2Proof.Machine
end

