-- ==== Sys2Proof/Machine/Dispatcher.lean ====
section
/-! DEFINITION. The Packet Dispatcher (41_packet_dispatcher.md): the shared actions, one action per Frame Type Code, `RESOLVE`, `CYCLE`, and the emitted acknowledgements. -/

namespace Sys2Proof.Machine

/-! ## Shared actions -/

/-- Add `n` to machine `d`'s `write_errors`. -/
def State.addWriteErrors (s : State) (d n : Nat) : State :=
  s.updFdc d fun f => { f with writeErrors := addCounter s.cfg f.writeErrors n }

/-- A `ChWrite` whose failure is counted in `write_errors` (R112, R126): it is never retried. -/
def State.countedWrite (s : State) (d ch : Nat) (bs : List Byte) : Attempt Unit :=
  (s.chWrite d ch bs).andThen fun t ans => .done (t.addWriteErrors d (writeFails ans bs.length)) ()

/-- `Handshake(d)`: both acknowledgements go back on `IN`, the second whatever the first answered (R122). -/
def State.handshake (s : State) (d : Nat) : Attempt Unit :=
  (s.countedWrite d (s.inCh d) ack1Frame).andThen fun t _ => t.countedWrite d (t.inCh d) ack2Frame

/-- `Ack2Only(d)`: a failure counts only when `INIT2_COUNTS_WERR` holds (R115). -/
def State.ack2Only (s : State) (d : Nat) : Attempt Unit :=
  (s.chWrite d (s.inCh d) ack2Frame).andThen fun t ans =>
    .done (if t.cfg.init2CountsWerr then t.addWriteErrors d (writeFails ans ack2Frame.length) else t) ()

/-- `Forward(d)`: the whole accumulated frame in one write to `OUT`, empty or not (R123). -/
def State.forward (s : State) (d : Nat) : Attempt Unit :=
  s.countedWrite d (s.outCh d) (s.frame d)

/-- `Done(d, valid)` (R124). -/
def State.doneValid (s : State) (d : Nat) : State :=
  s.updFdc d fun f => { f with cursor := 0, valid := addCounter s.cfg f.valid 1 }

/-- `Done(d, invalid)` (R124). -/
def State.doneInvalid (s : State) (d : Nat) : State :=
  s.updFdc d fun f => { f with cursor := 0, invalid := addCounter s.cfg f.invalid 1 }

/-- An action, then `Done(d, valid)`. -/
def State.thenValid (x : Attempt Unit) (d : Nat) : Attempt Unit :=
  x.andThen fun t _ => .done (t.doneValid d) ()

/-! ## The resolve action of each Frame Type Code (R111) -/

/-- `RESOLVE(d, t)`: one arm per alternative; Keepalive and Init1 share an action, as EndOfFile, EndOfStream and
Forwardable do (R111). -/
def State.resolveArm (s : State) (d : Nat) : FrameTypeCode → Attempt Unit
  | .keepalive => State.thenValid (s.handshake d) d
  | .init1 => State.thenValid (s.handshake d) d
  | .init2 => State.thenValid (s.ack2Only d) d
  | .panelPowerKey => .done ((s.log (.tracePwk d (s.frame d))).doneValid d) ()
  | .forwardable _ => State.thenValid (s.forward d) d
  | .endOfStream => State.thenValid (s.forward d) d
  | .endOfFile => State.thenValid (s.forward d) d
  | .incomplete => .done s ()
  | .invalid => .done (s.doneInvalid d) ()

/-- Dispatch a classified frame of an alive machine and return its Frame Type Code (log entries 4, 7). -/
def State.dispatchFrame (s : State) (d : Nat) (t : FrameTypeCode) : Host.Outcome State Fault Refusal :=
  s.finish <| s.onAlive d fun _ => (s.resolveArm d t).andThen fun u _ => .done u (.code t)

/-- KEEPALIVE (R113). -/
def execKeepalive (d : Nat) (s : State) : Host.Outcome State Fault Refusal := s.dispatchFrame d .keepalive

/-- INIT1 (R114). -/
def execInit1 (d : Nat) (s : State) : Host.Outcome State Fault Refusal := s.dispatchFrame d .init1

/-- INIT2 (R115). -/
def execInit2 (d : Nat) (s : State) : Host.Outcome State Fault Refusal := s.dispatchFrame d .init2

/-- PWK: traced, not forwarded, not interpreted (R116, R129). -/
def execPwk (d : Nat) (s : State) : Host.Outcome State Fault Refusal := s.dispatchFrame d .panelPowerKey

/-- FWD (R117). -/
def execFwd (d : Nat) (c : Byte) (s : State) : Host.Outcome State Fault Refusal :=
  s.dispatchFrame d (.forwardable c)

/-- INCOMPLETE: no action, the buffer is retained (R120). -/
def execIncomplete (d : Nat) (s : State) : Host.Outcome State Fault Refusal := s.dispatchFrame d .incomplete

/-- EOS (R118). -/
def execEos (d : Nat) (s : State) : Host.Outcome State Fault Refusal := s.dispatchFrame d .endOfStream

/-- INVALID: the buffered bytes are discarded (R121). -/
def execInvalid (d : Nat) (s : State) : Host.Outcome State Fault Refusal := s.dispatchFrame d .invalid

/-- EOF: whatever is buffered is forwarded (R119). -/
def execEof (d : Nat) (s : State) : Host.Outcome State Fault Refusal := s.dispatchFrame d .endOfFile

/-- INVALID.RDERR: the read error is recorded, then the Invalid action (40_frame_reader.md R94, R121; log entry 5). -/
def execInvalidRdErr (d e : Nat) (s : State) : Host.Outcome State Fault Refusal :=
  s.finish <| s.onAlive d fun _ =>
    ((s.recordReadError d e).resolveArm d .invalid).andThen fun u _ => .done u (.code .invalid)

/-- ACK1: emitted to `IN`, its failure counted (R67, R122). -/
def execAck1 (d : Nat) (s : State) : Host.Outcome State Fault Refusal :=
  s.finish <| s.onAlive d fun _ =>
    (s.countedWrite d (s.inCh d) ack1Frame).andThen fun u _ => .done u .done

/-- ACK2: emitted to `IN` by the handshake or by the Init2 action, which differ in what a failure counts (R67, R122,
R115; log entry 6). -/
def execAck2 (d : Nat) (src : AckSource) (s : State) : Host.Outcome State Fault Refusal :=
  s.finish <| s.onAlive d fun _ =>
    (match src with
     | .handshake => s.countedWrite d (s.inCh d) ack2Frame
     | .init2Action => s.ack2Only d).andThen fun u _ => .done u .done

/-- RESOLVE(d, t): the phase on its own (R111; log entries 4, 7). -/
def execResolve (d : Nat) (t : FrameTypeCode) (s : State) : Host.Outcome State Fault Refusal :=
  s.finish <| s.onAlive d fun _ => (s.resolveArm d t).andThen fun u _ => .done u .done

/-- CYCLE(d): the read phase, then the resolve phase, as one operation that returns what the read phase did (R110,
R127); refused on a machine that is dead or faulted. -/
def execCycle (d : Nat) (s : State) : Host.Outcome State Fault Refusal :=
  s.finish <| s.onReady d fun _ =>
    (s.readPhase d).andThen fun t c => (t.resolveArm d c).andThen fun u _ => .done u (.code c)

end Sys2Proof.Machine
end

