-- ==== Sys2Proof/Machine/Gpio.lean ====
section
/-! DEFINITION. The GPIO edge detector (42_gpio.md): configuration and value primitives, the detector's event, the polling interface, and the composite operations. -/

namespace Sys2Proof.Machine

/-! ## What each primitive does to its pin -/

/-- The defaults of a fresh export; `line` is not changed (R142). -/
def Pin.freshExport (q : Pin) : Pin :=
  { q with exported := true, dir := .input, activeLow := false, edge := .none,
           outLatch := false, edgePending := false }

/-- The direction, no pending edge, and for an output a cleared latch (R144). -/
def Pin.withDirection (x : Direction) (q : Pin) : Pin :=
  { q with dir := x, edgePending := false,
           outLatch := match x with | .output => false | .input => q.outLatch }

/-- The polarity and no pending edge: a change of the logical level by it is no edge (R145). -/
def Pin.withPolarity (a : Bool) (q : Pin) : Pin := { q with activeLow := a, edgePending := false }

/-- The edge mode and no pending edge (R146). -/
def Pin.withEdge (e : EdgeMode) (q : Pin) : Pin := { q with edge := e, edgePending := false }

/-- The latch (R148). -/
def Pin.withLatch (v : Bool) (q : Pin) : Pin := { q with outLatch := v }

/-- A consumed edge (R150). -/
def Pin.consumed (q : Pin) : Pin := { q with edgePending := false }

/-! ## The primitives, `true` for `ok` (R141) -/

/-- `EXPORT(p)` (R142). -/
def State.gpioExport (s : State) (p : Nat) : Attempt Bool :=
  s.primitive p (fun q => !q.exported) Pin.freshExport

/-- `EXPORT_IF_ABSENT(p)`: on an exported pin nothing is drawn and nothing changes (R143). -/
def State.gpioExportIfAbsent (s : State) (p : Nat) : Attempt Bool :=
  match s.pin? p with
  | none => .done s false
  | some q => if q.exported then .done s true else s.gpioExport p

/-- `SET_DIRECTION(p, x)` (R144). -/
def State.gpioSetDirection (s : State) (p : Nat) (x : Direction) : Attempt Bool :=
  s.primitive p (·.exported) (Pin.withDirection x)

/-- `SET_POLARITY(p, a)` (R145). -/
def State.gpioSetPolarity (s : State) (p : Nat) (a : Bool) : Attempt Bool :=
  s.primitive p (·.exported) (Pin.withPolarity a)

/-- `SET_EDGE(p, e)` on the code `e`; code 3 fails without a draw and stores nothing (R146). -/
def State.gpioSetEdge (s : State) (p : Nat) (e : BitVec 2) : Attempt Bool :=
  match EdgeMode.ofCode e with
  | none => .done s false
  | some m => s.primitive p (·.exported) (Pin.withEdge m)

/-- `WRITE_VALUE(p, v)`: fails on an input pin (R148). -/
def State.gpioWriteValue (s : State) (p : Nat) (v : Bool) : Attempt Bool :=
  s.primitive p (fun q => q.exported && decide (q.dir = .output)) (Pin.withLatch v)

/-- Return `ok` or `fail`. -/
def asPrim (x : Attempt Bool) : Attempt Result := x.andThen fun t ok => .done t (primResult ok)

/-- EXPORT (R142). -/
def execExportPin (p : Nat) (s : State) : Host.Outcome State Fault Refusal :=
  s.finish (asPrim (s.gpioExport p))

/-- EXPORT_IF_ABSENT (R143). -/
def execExportIfAbsent (p : Nat) (s : State) : Host.Outcome State Fault Refusal :=
  s.finish (asPrim (s.gpioExportIfAbsent p))

/-- SET_DIRECTION (R144). -/
def execSetDirection (p : Nat) (x : Direction) (s : State) : Host.Outcome State Fault Refusal :=
  s.finish (asPrim (s.gpioSetDirection p x))

/-- SET_POLARITY (R145). -/
def execSetPolarity (p : Nat) (a : Bool) (s : State) : Host.Outcome State Fault Refusal :=
  s.finish (asPrim (s.gpioSetPolarity p a))

/-- SET_EDGE (R146). -/
def execSetEdge (p : Nat) (e : BitVec 2) (s : State) : Host.Outcome State Fault Refusal :=
  s.finish (asPrim (s.gpioSetEdge p e))

/-- `READ_VALUE(p)`: the logical level, nothing changed, no edge consumed (R147). -/
def State.gpioReadValue (s : State) (p : Nat) : Attempt Result :=
  (s.primitive p (·.exported) id).andThen fun t ok =>
    match s.pin? p with
    | some q => .done t (if ok then .value q.logical else .fail)
    | none => .done t .fail

/-- READ_VALUE, of a pin or applied to a handle: one with `ok = 0` fails and changes nothing (R147, R155). -/
def execReadValue (h : Handle) (s : State) : Host.Outcome State Fault Refusal :=
  s.finish <| if h.ok then s.gpioReadValue h.pin else .done s .fail

/-- WRITE_VALUE (R148). -/
def execWriteValue (p : Nat) (v : Bool) (s : State) : Host.Outcome State Fault Refusal :=
  s.finish (asPrim (s.gpioWriteValue p v))

/-! ## The edge detector and its polling interface -/

/-- SAMPLE(p, v): admitted for every `p < N_PINS`, exported or not (R149). -/
def execSample (p : Nat) (v : Bool) (s : State) : Host.Outcome State Fault Refusal :=
  s.finish <| match s.pin? p with
    | none => s.refuse
    | some _ => .done (s.updPin p (Pin.present s.cfg.edgeSense v)) .done

/-- POLL(h): read-to-clear, no draw (R150, R158). -/
def execPoll (h : Handle) (s : State) : Host.Outcome State Fault Refusal :=
  s.finish <| match s.handlePin h with
    | none => .done s .fail
    | some q => .done (s.updPin h.pin Pin.consumed) (.value q.edgePending)

/-- WAIT_EDGE(h): fails as `POLL` does, holds while no edge is pending, then consumes it (R151). -/
def execWaitEdge (h : Handle) (s : State) : Host.Outcome State Fault Refusal :=
  s.finish <| match s.handlePin h with
    | none => .done s .fail
    | some q => if q.edgePending then .done (s.updPin h.pin Pin.consumed) .ok else .held

/-! ## Composite operations -/

/-- The next step of a composite: run only after a success; the first failure ends it and nothing is undone (D24). -/
def Attempt.ifOk (x : Attempt Bool) (k : State → Attempt Bool) : Attempt Bool :=
  x.andThen fun t ok => if ok then k t else .done t false

/-- The five steps of the sensor's initialisation, the last one opening the handle (R152). -/
def State.sensorSteps (s : State) : Attempt Bool :=
  (((s.gpioExportIfAbsent s.cfg.pwkPin).ifOk
    fun t => t.gpioSetDirection t.cfg.pwkPin .input).ifOk
    fun t => t.gpioSetPolarity t.cfg.pwkPin true).ifOk
    (fun t => (t.gpioSetEdge t.cfg.pwkPin EdgeMode.falling.code).ifOk
    fun u => u.gpioEnv)

/-- INIT_POWER_KEY_SENSOR: a handle on `PWK_PIN`, or the sentinel (R152, 10_state.md R28). -/
def execInitPowerKeySensor (s : State) : Host.Outcome State Fault Refusal :=
  s.finish <| s.sensorSteps.andThen fun t ok =>
    .done t (.handle (if ok then ⟨true, s.cfg.pwkPin⟩ else ⟨false, s.cfg.allOnesPin⟩))

/-- The pin `INIT_OUTPUT_PIN(p)` writes its initial 0 to (R153, 90_conflicts.md C2). -/
def outputInitTarget (cfg : Config) (p : Nat) : Nat :=
  match cfg.initWriteTarget with
  | .argPin => p
  | .fixedPin => cfg.fixedPin

/-- The three steps of an output pin's initialisation (R153). -/
def State.outputSteps (s : State) (p : Nat) : Attempt Bool :=
  ((s.gpioExportIfAbsent p).ifOk
    fun t => t.gpioSetDirection p .output).ifOk
    fun t => t.gpioWriteValue (outputInitTarget t.cfg p) false

/-- INIT_OUTPUT_PIN (R153). -/
def execInitOutputPin (p : Nat) (s : State) : Host.Outcome State Fault Refusal :=
  s.finish (asPrim (s.outputSteps p))

/-- SET_PIN: the count of failed writes, 0 or 1 (R154). -/
def execSetPin (p : Nat) (v : Bool) (s : State) : Host.Outcome State Fault Refusal :=
  s.finish <| (s.gpioWriteValue p v).andThen fun t ok => .done t (.count (if ok then 0 else 1))

end Sys2Proof.Machine
end

