-- ==== Sys2Proof/Machine/Lifetime.lean ====
section
/-! DEFINITION. The host operations that are neither frames nor GPIO: `RESET` (70_reset_and_hazards.md R220), `FB_INIT`, `FB_DESTROY`, `RD_STATUS` (43_host_interface.md R180 to R182). -/

namespace Sys2Proof.Machine

/-- Every element but `buf` and `alive` at its reset value (R180); `buf` is not written. -/
def Fdc.cleared (alive : Bool) (f : Fdc) : Fdc :=
  { f with alive := alive, cursor := 0, valid := 0, invalid := 0, writeErrors := 0,
           rdErr := false, rdErrCode := 0, faultFull := false }

/-- The pins from number `p` on after the `n`-th `RESET`: all elements at their reset value (R35), `line` at a FREE
VALUE (10_state.md R30; log entry 19). -/
def resetPins (n p : Nat) : List Pin → List Pin
  | [] => []
  | _ :: rest => { Pin.reset with line := Config.freeLevel n p } :: resetPins n (p + 1) rest

/-- RESET: admitted in every state (R220). The environment's inputs and the history are not state of the block. -/
def execReset (s : State) : Host.Outcome State Fault Refusal :=
  s.finish <| .done { s with
    fdcs := s.fdcs.map (Fdc.cleared false)
    pins := resetPins s.epoch 0 s.pins
    epoch := s.epoch + 1 } .done

/-- FB_INIT(d): admitted in any state of the machine (R180). -/
def execFbInit (d : Nat) (s : State) : Host.Outcome State Fault Refusal :=
  s.finish <| s.onFdc d fun _ => .done (s.updFdc d (Fdc.cleared true)) .done

/-- FB_DESTROY(d): refused on a machine that is not alive (R181). -/
def execFbDestroy (d : Nat) (s : State) : Host.Outcome State Fault Refusal :=
  s.finish <| s.onAlive d fun _ => .done (s.updFdc d fun f => { f with alive := false }) .done

/-- The status record of a machine (R182). -/
def Fdc.toStatus (f : Fdc) : Status where
  alive := f.alive
  cursor := f.cursor
  valid := f.valid
  invalid := f.invalid
  writeErrors := f.writeErrors
  rdErr := f.rdErr
  rdErrCode := f.rdErrCode
  faultFull := f.faultFull

/-- RD_STATUS(d): admitted on a dead machine too, changes nothing (R182). -/
def execRdStatus (d : Nat) (s : State) : Host.Outcome State Fault Refusal :=
  s.finish <| s.onFdc d fun f => .done s (.status f.toStatus)

end Sys2Proof.Machine
end

