-- ==== Sys2Proof/Machine/Dispatch.lean ====
section
/-! DEFINITION. One arm per constructor of Instr, each one call of its meaning. -/

namespace Sys2Proof.Machine

def exec (i : Instr) (s : State) : Host.Outcome State Fault Refusal :=
  match i with
  | .keepalive d => Sys2Proof.Machine.execKeepalive d s
  | .init1 d => Sys2Proof.Machine.execInit1 d s
  | .init2 d => Sys2Proof.Machine.execInit2 d s
  | .pwk d => Sys2Proof.Machine.execPwk d s
  | .fwd d c => Sys2Proof.Machine.execFwd d c s
  | .incomplete d => Sys2Proof.Machine.execIncomplete d s
  | .eos d => Sys2Proof.Machine.execEos d s
  | .invalid d => Sys2Proof.Machine.execInvalid d s
  | .eof d => Sys2Proof.Machine.execEof d s
  | .invalidRdErr d e => Sys2Proof.Machine.execInvalidRdErr d e s
  | .ack1 d => Sys2Proof.Machine.execAck1 d s
  | .ack2 d src => Sys2Proof.Machine.execAck2 d src s
  | .reset => Sys2Proof.Machine.execReset s
  | .fbInit d => Sys2Proof.Machine.execFbInit d s
  | .fbDestroy d => Sys2Proof.Machine.execFbDestroy d s
  | .cycle d => Sys2Proof.Machine.execCycle d s
  | .rdStatus d => Sys2Proof.Machine.execRdStatus d s
  | .exportPin p => Sys2Proof.Machine.execExportPin p s
  | .exportIfAbsent p => Sys2Proof.Machine.execExportIfAbsent p s
  | .setDirection p x => Sys2Proof.Machine.execSetDirection p x s
  | .setPolarity p a => Sys2Proof.Machine.execSetPolarity p a s
  | .setEdge p e => Sys2Proof.Machine.execSetEdge p e s
  | .readValue h => Sys2Proof.Machine.execReadValue h s
  | .writeValue p v => Sys2Proof.Machine.execWriteValue p v s
  | .poll h => Sys2Proof.Machine.execPoll h s
  | .waitEdge h => Sys2Proof.Machine.execWaitEdge h s
  | .initPowerKeySensor => Sys2Proof.Machine.execInitPowerKeySensor s
  | .initOutputPin p => Sys2Proof.Machine.execInitOutputPin p s
  | .setPin p v => Sys2Proof.Machine.execSetPin p v s
  | .sample p v => Sys2Proof.Machine.execSample p v s
  | .readInto d => Sys2Proof.Machine.execReadInto d s
  | .resolve d t => Sys2Proof.Machine.execResolve d t s

end Sys2Proof.Machine
end

