-- ==== Sys2Proof/Machine/Step.lean ====
section
/-! DEFINITION. One step: the agent whose turn it is offers an item, the item is decoded and runs. And how an opcode-table word is placed to run next. -/

namespace Sys2Proof.Machine

/-- The turn of agent `who`: with nothing offered the turn passes; a rejected item is refused; a decoded one runs, and
stays offered if it is held. -/
def stepAgent (who : Agent) (s : State) : Host.Outcome State Fault Refusal :=
  match s.offered who with
  | none => .next s
  | some x =>
    match decode s.cfg x with
    | .error why => .next (s.rejectItem who why)
    | .ok i => retireOutcome who i (exec i s)

/-- One step. A configuration that breaks 00_scope.md R6 is refused; with no turn scheduled the machine is idle. -/
def step (s : State) : Host.Outcome State Fault Refusal :=
  if s.cfg.wf then
    match s.turns with
    | [] => .next s
    | who :: rest => stepAgent who { s with turns := rest }
  else .refused .badConfiguration

/-- Offer a command as the frame-path context's next and give that context the next turn, with the draws that a GPIO
operation may need appended to those already there. -/
def State.offerCommand (s : State) (c : Command) : State :=
  { s with frameQ := c :: s.frameQ, turns := .frameHost :: s.turns,
           draws := s.draws ++ [true, true, true, true, true] }

/-- Make the next `CYCLE(0)` read the frame `bs`: machine 0 is as after `FB_INIT(0)`, its `IN` channel answers `bs`
next, and both its channels have an answer for every write the cycle can issue. -/
def State.offerFrame (s : State) (bs : List Byte) : State :=
  let t := s.updFdc 0 (Fdc.cleared true)
  let u := t.setChan (t.inCh 0)
    { reads := .bytes bs :: (t.chan (t.inCh 0)).reads, writes := (t.chan (t.inCh 0)).writes ++ [.count 3, .count 3] }
  let v := u.setChan (u.outCh 0)
    { reads := (u.chan (u.outCh 0)).reads, writes := (u.chan (u.outCh 0)).writes ++ [.count bs.length] }
  { v with frameQ := { cmd := 0x03, a := 0, b := 0 } :: v.frameQ, turns := .frameHost :: v.turns }

/-- `s` with the instruction of an opcode-table word placed where `step` takes its next one (log entry 22): a command
is offered, a frame is delivered to a cycle of machine 0, an emitted frame is provoked by a frame that makes the
machine emit it (Keepalive for `ACK1`, Init2 for `ACK2`). -/
def State.withFetchWord (s : State) (nbits w : Nat) : State :=
  match tableItem nbits w with
  | some (.command c) => s.offerCommand c
  | some (.frame _ bs) => s.offerFrame bs
  | some (.emitted _ _ bs) =>
    if bs = ack2Frame then s.offerFrame (frameBytes s.cfg.init2Code [])
    else s.offerFrame (frameBytes keepaliveCode [0x00])
  | some (.event p v) => { s with samples := (p, v) :: s.samples, turns := .environment :: s.turns }
  | some .resetInput => { s with turns := .resetInput :: s.turns }
  | some (.answer _ _) => s
  | none => s

end Sys2Proof.Machine
end

