-- ==== Sys2Proof/Safety.lean ====
section
/-! DEFINITION. What counts as a good state and a good run, the invariant of the machine, and the vocabulary claims are written in. -/

namespace Sys2Proof.Machine

/-! ## Good states and runs (60_exceptions.md R196, 43_host_interface.md R186) -/

/-- No machine has exhausted its capacity: the one condition the spec calls fatal (R196). -/
def State.good (s : State) : Prop := ∀ f ∈ s.fdcs, f.faultFull = false

/-- A run of a machine as the history shows it (R186). -/
structure Run where
  /-- what its last `CYCLE` returned, if one ran -/
  lastCode : Option FrameTypeCode
  /-- its last read was answered with all the bytes it asked for, so that the buffer was full -/
  filled : Bool
  /-- `fault_full` was set in it: a `CYCLE` that filled the buffer returned Incomplete (40_frame_reader.md R98) -/
  faulted : Bool
deriving DecidableEq, Repr

/-- A run that has just begun. -/
def Run.fresh : Run := ⟨none, false, false⟩

/-- A run after a read that was, or was not, answered in full. -/
def Run.read (full : Bool) (r : Run) : Run := { r with filled := full }

/-- A run after a `CYCLE` that returned `c`. -/
def Run.cycled (c : FrameTypeCode) (r : Run) : Run :=
  { r with lastCode := some c, faulted := r.faulted || (r.filled && decide (c = .incomplete)) }

/-- The runs of one machine: the one going on, if any, and those that have ended, oldest first. -/
structure Runs where
  current : Option Run
  ended : List Run
deriving DecidableEq, Repr

/-- The run going on ends, and `next` begins. -/
def Runs.turn (next : Option Run) (rs : Runs) : Runs := ⟨next, rs.ended ++ rs.current.toList⟩

/-- The run going on is changed by `g`. -/
def Runs.modify (g : Run → Run) (rs : Runs) : Runs := { rs with current := rs.current.map g }

/-- Whether an answer carries all of the `max` bytes asked for. -/
def answeredInFull (max : Nat) : ReadAns → Bool
  | .bytes bs => decide (bs.length = max)
  | .eof => false
  | .err _ => false

/-- What an event does to the runs of machine `d`: `FB_INIT(d)` begins one, and it ends at the next `FB_DESTROY(d)`,
`FB_INIT(d)` or `RESET` (R186). -/
def Runs.note (d : Nat) (rs : Runs) : Event → Runs
  | .chRead e _ max ans => if e = d then rs.modify (Run.read (answeredInFull max ans)) else rs
  | .finished _ (.cycle e) (.code c) => if e = d then rs.modify (Run.cycled c) else rs
  | .finished _ (.fbInit e) .done => if e = d then rs.turn (some Run.fresh) else rs
  | .finished _ (.fbDestroy e) .done => if e = d then rs.turn none else rs
  | .finished _ .reset .done => rs.turn none
  | _ => rs

/-- The runs of machine `d` in the history. -/
def State.runs (s : State) (d : Nat) : Runs := s.history.foldl (Runs.note d) ⟨none, []⟩

/-- A run is complete: its last `CYCLE` returned EndOfFile (R186). -/
def Run.complete (r : Run) : Prop := r.lastCode = some .endOfFile

/-- Machine `d` has a run going on and it is complete. -/
def State.runComplete (s : State) (d : Nat) : Prop := ∃ r, (s.runs d).current = some r ∧ r.complete

/-- Machine `d` has a run going on and it is faulted: `fault_full` was set in it (R186). -/
def State.runFaulted (s : State) (d : Nat) : Prop := ∃ r, (s.runs d).current = some r ∧ r.faulted = true

/-- The runs in the history agree with the machines: one goes on exactly where the machine is alive, and it is faulted
exactly where the machine's `fault_full` is set. -/
def State.RunsAgree (s : State) : Prop :=
  ∀ d f, s.fdc? d = some f →
    ((s.runs d).current.isSome = f.alive) ∧ ∀ r, (s.runs d).current = some r → r.faulted = f.faultFull

/-! ## The invariant -/

/-- The bytes a machine has accumulated. -/
def Fdc.content (f : Fdc) : List Byte := f.buf.bytesFrom 0 f.cursor

/-- A machine between operations: its memory is canonical and inside the buffer (20_memory.md R46), its counters and
code fit their widths (10_state.md R13, R14), the cursor is bounded (R12), what is accumulated is an Incomplete frame
(R19), and the buffer is full exactly when the fault flag says so (40_frame_reader.md R98). -/
structure Fdc.Inv (cfg : Config) (f : Fdc) : Prop where
  bufCanonical : f.buf.wf = true
  bufInside : ∀ c ∈ f.buf, c.1 < cfg.cap
  cursorBound : f.cursor ≤ cfg.cap
  validBound : f.valid < cfg.cntMod
  invalidBound : f.invalid < cfg.cntMod
  writeErrorsBound : f.writeErrors < cfg.cntMod
  codeBound : f.rdErrCode < 2 ^ cfg.errW
  accumulating : f.cursor ≠ 0 → classify cfg f.content = .incomplete
  fullIffFault : f.faultFull = true ↔ f.cursor = cfg.cap

/-- A pending edge is that of an exported input pin with an edge mode (10_state.md R26, 42_gpio.md R149). -/
def Pin.Inv (q : Pin) : Prop :=
  q.edgePending = true → q.exported = true ∧ q.dir = .input ∧ q.edge ≠ .none

/-- The invariant of the machine between operations. -/
structure State.Inv (s : State) : Prop where
  config : s.cfg.wf = true
  fdcCount : s.fdcs.length = s.cfg.nDir
  pinCount : s.pins.length = s.cfg.nPins
  fdcs : ∀ f ∈ s.fdcs, f.Inv s.cfg
  pins : ∀ q ∈ s.pins, q.Inv

/-! ## Vocabulary of the claims: a state with one thing replaced -/

/-- Machine `d` replaced. -/
def State.withFdc (s : State) (d : Nat) (f : Fdc) : State := { s with fdcs := s.fdcs.set d f }

/-- Pin `p` replaced. -/
def State.withPin (s : State) (p : Nat) (q : Pin) : State := { s with pins := s.pins.set p q }

/-- The read answers channel `c` has left replaced. -/
def State.withReads (s : State) (c : Nat) (as : List ReadAns) : State :=
  { s with chans := s.chans.set c { s.chan c with reads := as } }

/-- The write answers channel `c` has left replaced. -/
def State.withWrites (s : State) (c : Nat) (as : List WriteAns) : State :=
  { s with chans := s.chans.set c { s.chan c with writes := as } }

/-- The draws left replaced. -/
def State.withDraws (s : State) (bs : List Bool) : State := { s with draws := bs }

/-- Events recorded and a result returned. -/
def State.returning (s : State) (es : List Event) (r : Result) : State :=
  { s with history := s.history ++ es, ret := r }

/-- Machine `d` exists, is alive and is `f`. -/
def State.Alive (s : State) (d : Nat) (f : Fdc) : Prop := s.fdc? d = some f ∧ f.alive = true

/-- Machine `d` exists, is `f`, and admits a `CYCLE` (41_packet_dispatcher.md R110). -/
def State.Ready (s : State) (d : Nat) (f : Fdc) : Prop := s.Alive d f ∧ f.faultFull = false

/-- Pin `p` exists, is exported and is `q`. -/
def State.Exported (s : State) (p : Nat) (q : Pin) : Prop := s.pin? p = some q ∧ q.exported = true

/-- The machine an instruction of the frame path acts on. -/
def machineOf : Instr → Option Nat
  | .keepalive d | .init1 d | .init2 d | .pwk d | .fwd d _ | .incomplete d | .eos d | .invalid d => some d
  | .eof d | .invalidRdErr d _ | .ack1 d | .ack2 d _ => some d
  | .fbInit d | .fbDestroy d | .cycle d | .rdStatus d | .readInto d | .resolve d _ => some d
  | .reset | .exportPin _ | .exportIfAbsent _ | .setDirection _ _ | .setPolarity _ _ | .setEdge _ _ => none
  | .readValue _ | .writeValue _ _ | .poll _ | .waitEdge _ | .initPowerKeySensor | .initOutputPin _ => none
  | .setPin _ _ | .sample _ _ => none

/-- An alive machine `d` is about to meet something that is no answer of the channel interface (40_frame_reader.md R91):
the next answer of a read of its free space, one of the two next answers of writes to `IN`, or the next of a write to
`OUT`. -/
def State.MeetsNoAnswer (s : State) (d : Nat) : Prop :=
  ∃ f, s.Alive d f ∧
    ((∃ a ∈ (s.chan (s.inCh d)).reads.take 1, ReadAns.fits s.cfg (s.cfg.cap - f.cursor) a = false) ∨
     (∃ a ∈ (s.chan (s.inCh d)).writes.take 2, WriteAns.fits s.cfg a = false) ∨
     (∃ a ∈ (s.chan (s.outCh d)).writes.take 1, WriteAns.fits s.cfg a = false))

/-- The resolve action of code `c` on machine `d` issues a write that has no answer yet (43_host_interface.md R184): its
channel has fewer answers waiting than the action's writes (41_packet_dispatcher.md R115, R122, R123), and those it has
are answers of the interface. -/
def State.LacksWriteAnswer (s : State) (d : Nat) : FrameTypeCode → Prop
  | .keepalive | .init1 =>
    (s.chan (s.inCh d)).writes = [] ∨ ∃ a, WriteAns.fits s.cfg a = true ∧ (s.chan (s.inCh d)).writes = [a]
  | .init2 => (s.chan (s.inCh d)).writes = []
  | .forwardable _ | .endOfStream | .endOfFile => (s.chan (s.outCh d)).writes = []
  | .panelPowerKey | .incomplete | .invalid => False

/-- Whether an event is a read request. -/
def Event.isRead : Event → Bool
  | .chRead _ _ _ _ => true
  | _ => false

/-- Whether an event is a write request. -/
def Event.isWrite : Event → Bool
  | .chWrite _ _ _ _ => true
  | _ => false

/-- Whether an event is a write request that counts as failed (R112). -/
def Event.failures : Event → Nat
  | .chWrite _ _ bs ans => writeFails ans bs.length
  | _ => 0

/-- The number of failed write requests of a history. -/
def failedWrites (h : List Event) : Nat := (h.map Event.failures).sum

/-- The write requests of a history, in order. -/
def writesOf (h : List Event) : List Event := h.filter Event.isWrite

/-- `n` cycles of machine `d` in a row, with the codes they returned; `none` if one did not run to its end. -/
def cycles (d : Nat) : Nat → State → Option (State × List FrameTypeCode)
  | 0, s => some (s, [])
  | n + 1, s =>
    match execCycle d s with
    | .next t =>
      match t.ret with
      | .code c => (cycles d n t).map fun r => (r.1, c :: r.2)
      | _ => none
    | _ => none

/-- The environment presents the levels `vs` on pin `p`, one after the other. -/
def presentAll (p : Nat) : List Bool → State → Option State
  | [], s => some s
  | v :: vs, s =>
    match execSample p v s with
    | .next t => if t.ret = .done then presentAll p vs t else none
    | _ => none

end Sys2Proof.Machine
end

