-- ==== Sys2Proof/Certificates/Slice0/Obligations.lean ====
section
/-! DEFINITION. The statements for the provers. A next state written out with `withFdc`, `withPin`, `withReads`, `withWrites`, `withDraws` and `returning` says the frame too: everything not named in it is as it was. -/

open Sys2Proof Sys2Proof.Machine

/-! ## Encoding -/

/-- Command words of 30_encoding.md R73 and R74, frames of R61 to R66, a channel answer and an event, each written out
from the spec, decode to the instruction they stand for (under the hinted instantiation), and so does the reset input
of R220, a form whose presence is the model's choice (log entry 30). -/
def Obligations.WordsOfTheTablesDecode : Prop :=
  decode .hinted (.command ⟨0x00, 0, 0, true⟩) = .ok .reset ∧
  decode .hinted (.command ⟨0x03, 1, 0, true⟩) = .ok (.cycle 1) ∧
  decode .hinted (.command ⟨0x12, 5, 1, true⟩) = .ok (.setDirection 5 .output) ∧
  decode .hinted (.command ⟨0x14, 17, 2, true⟩) = .ok (.setEdge 17 2) ∧
  decode .hinted (.command ⟨0x18, 17, 0, true⟩) = .ok (.waitEdge ⟨true, 17⟩) ∧
  decode .hinted (.command ⟨0x22, 6, 1, true⟩) = .ok (.setPin 6 true) ∧
  decode .hinted (.frame 0 [0xFE, 0x0B, 0x00, 0xFD]) = .ok (.keepalive 0) ∧
  decode .hinted (.frame 1 [0xFE, 0xA0, 0x01, 0xFD]) = .ok (.pwk 1) ∧
  decode .hinted (.frame 0 [0xFE, 0xFD]) = .ok (.fwd 0 0xFD) ∧
  decode .hinted (.frame 0 [0x00]) = .ok (.eos 0) ∧
  decode .hinted (.frame 0 [0x00, 0x00]) = .ok (.invalid 0) ∧
  decode .hinted (.answer 1 (.err 5)) = .ok (.invalidRdErr 1 5) ∧
  decode .hinted (.event 17 true) = .ok (.sample 17 true) ∧
  decode .hinted .resetInput = .ok .reset

/-- Decoding the encoding of a well-formed instruction gives it back with every operand, for every admissible
configuration; and every instruction but the two phases of `CYCLE`, which have no code (R73), has an encoding. -/
def Obligations.DecodeOfEncodeIsIdentity : Prop :=
  ∀ (cfg : Config) (i : Instr), cfg.wf = true → i.wf cfg = true →
    (∀ x, encode cfg i = some x → decode cfg x = .ok i) ∧
    ((∃ x, encode cfg i = some x) ∨ (∃ d, i = .readInto d) ∨ (∃ d t, i = .resolve d t))

/-- R73, R74: exactly the listed command codes select an operation, each its own. Every other `cmd` value is refused by
name, whatever `b` and a handle's `ok` bit hold, and no listed one is refused so. What each listed code selects, for every
`a`: where R73 gives no `b` the field is not looked at (log entry 15), the `ok` bit of a handle stands beside the fields
(log entry 13), and a `b` that R74 gives no one-bit operand is rejected (log entry 14). -/
def Obligations.OnlyListedCommandsDecode : Prop :=
  ∀ (cfg : Config) (cmd : Byte) (a : Nat) (b : BitVec 2) (hok : Bool), cfg.fitsA a = true →
    (decode cfg (.command ⟨cmd, a, b, hok⟩) = .error (.unknownCommand cmd) ↔
      cmd ∉ ([0x00, 0x01, 0x02, 0x03, 0x04, 0x10, 0x11, 0x12, 0x13, 0x14, 0x15, 0x16, 0x17, 0x18,
        0x20, 0x21, 0x22] : List Byte)) ∧
    (∀ i : Instr,
      (cmd, i) ∈ ([(0x00, .reset), (0x01, .fbInit a), (0x02, .fbDestroy a), (0x03, .cycle a), (0x04, .rdStatus a),
        (0x10, .exportPin a), (0x11, .exportIfAbsent a), (0x14, .setEdge a b), (0x15, .readValue ⟨hok, a⟩),
        (0x17, .poll ⟨hok, a⟩), (0x18, .waitEdge ⟨hok, a⟩), (0x20, .initPowerKeySensor),
        (0x21, .initOutputPin a)] : List (Byte × Instr)) →
      decode cfg (.command ⟨cmd, a, b, hok⟩) = .ok i) ∧
    (∀ i : Instr,
      (cmd, b, i) ∈ ([(0x12, 0, .setDirection a .input), (0x12, 1, .setDirection a .output),
        (0x13, 0, .setPolarity a false), (0x13, 1, .setPolarity a true),
        (0x16, 0, .writeValue a false), (0x16, 1, .writeValue a true),
        (0x22, 0, .setPin a false), (0x22, 1, .setPin a true)] : List (Byte × BitVec 2 × Instr)) →
      decode cfg (.command ⟨cmd, a, b, hok⟩) = .ok i) ∧
    (cmd ∈ ([0x12, 0x13, 0x16, 0x22] : List Byte) → b = 2 ∨ b = 3 →
      decode cfg (.command ⟨cmd, a, b, hok⟩) = .error (.notOneBit b))

/-- R66 with R61, R64, R68 and R69: a terminated frame is classified by its type byte alone, whatever its payload, also
where the type byte is the end marker of the two-byte frame. -/
def Obligations.FramesClassifyByTypeByte : Prop :=
  ∀ (cfg : Config), cfg.wf = true →
    (∀ payload, classify cfg (frameBytes 0x0B payload) = .keepalive) ∧
    (∀ payload, classify cfg (frameBytes cfg.init1Code payload) = .init1) ∧
    (∀ payload, classify cfg (frameBytes cfg.init2Code payload) = .init2) ∧
    (∀ payload, classify cfg (frameBytes 0xA0 payload) = .panelPowerKey) ∧
    (∀ c payload, c ≠ 0x0B → c ≠ cfg.init1Code → c ≠ cfg.init2Code → c ≠ 0xA0 →
      classify cfg (frameBytes c payload) = .forwardable c) ∧
    classify cfg [0xFE, 0xFD] = classify cfg (frameBytes 0xFD [])

/-- R95: the three cases of the classification of a non-empty buffer, read off its result; it never returns EndOfFile
(R96). -/
def Obligations.ClassificationHasThreeCases : Prop :=
  ∀ (cfg : Config) (bs : List Byte), bs ≠ [] →
    (classify cfg bs = .endOfStream ↔ bs = [0x00]) ∧
    (classify cfg bs = .invalid ↔ bs.head? ≠ some 0xFE ∧ bs ≠ [0x00]) ∧
    (classify cfg bs = .incomplete ↔
      bs.head? = some 0xFE ∧ ¬ (2 ≤ bs.length ∧ bs.getLast? = some 0xFD)) ∧
    (bs.head? = some 0xFE → 2 ≤ bs.length → bs.getLast? = some 0xFD →
      ∀ c, bs[1]? = some c → classify cfg bs = typeOf cfg c) ∧
    classify cfg bs ≠ .endOfFile

/-- R72: the value of each Frame Type Code on the status port, and that the port tells the codes apart. -/
def Obligations.StatusPortTellsCodesApart : Prop :=
  ∀ (cfg : Config), cfg.wf = true →
    FrameTypeCode.statusPort cfg .invalid = 0x000 ∧
    FrameTypeCode.statusPort cfg .incomplete = 0x100 ∧
    FrameTypeCode.statusPort cfg .endOfStream = 0x200 ∧
    FrameTypeCode.statusPort cfg .endOfFile = 0x300 ∧
    FrameTypeCode.statusPort cfg .keepalive = 0x40B ∧
    FrameTypeCode.statusPort cfg .init1 = 5#4 ++ cfg.init1Code ∧
    FrameTypeCode.statusPort cfg .init2 = 6#4 ++ cfg.init2Code ∧
    FrameTypeCode.statusPort cfg .panelPowerKey = 0x7A0 ∧
    (∀ c : Byte, FrameTypeCode.statusPort cfg (.forwardable c) = 8#4 ++ c) ∧
    ∀ t u : FrameTypeCode, FrameTypeCode.statusPort cfg t = FrameTypeCode.statusPort cfg u → t = u

/-! ## The step -/

/-- A step runs the decoded instruction: when the agent whose turn it is offers an item that decodes to `i`, the step is
`exec` of `i` once the turn is taken, and a finished operation leaves its context's queue and is recorded, while a held
one stays offered. The queues and the schedule are the model's (log entry 10). -/
def Obligations.StepRunsTheDecodedItem : Prop :=
  ∀ (s : State) (who : Agent) (rest : List Agent) (x : Item) (i : Instr),
    s.cfg.wf = true → s.turns = who :: rest → s.offered who = some x → decode s.cfg x = .ok i →
    (∀ t, exec i { s with turns := rest } = .next t →
      step s = .next (if t.ret = .held then t
        else { t.drop who with history := t.history ++ [.finished who i t.ret] })) ∧
    (∀ r, exec i { s with turns := rest } = .refused r → step s = .refused r)

/-- R73: an item that the decoder rejects is refused: no transition of any machine or pin, nothing issued. That the turn
and the item are used up, the item from the queue of the agent that offered it and no other, is the model's account of
the invocation (log entries 10 and 11), and that operands outside their fields are rejected is log entry 14. With nothing
offered the turn passes, and with no turn scheduled the step changes nothing (log entry 10). -/
def Obligations.StepRefusesRejectedItems : Prop :=
  ∀ (s : State), s.cfg.wf = true →
    (∀ who rest x why, s.turns = who :: rest → s.offered who = some x → decode s.cfg x = .error why →
      step s = .next { s with
        turns := rest
        frameQ := if who = .frameHost then s.frameQ.tail else s.frameQ
        gedQ := if who = .gedHost then s.gedQ.tail else s.gedQ
        samples := if who = .environment then s.samples.tail else s.samples
        ret := .refused
        history := s.history ++ [.rejected who why] }) ∧
    (∀ who rest, s.turns = who :: rest → s.offered who = none → step s = .next { s with turns := rest }) ∧
    (s.turns = [] → step s = .next s)

/-- R8 `hold`, R184: an operation that is not enabled changes nothing but the answer its invoker sees, which is the model's
(log entries 8 and 11). -/
def Obligations.HeldOperationsChangeNothing : Prop :=
  ∀ (i : Instr) (s t : State), exec i s = .next t → t.ret = .held → t = { s with ret := .held }

/-- R8 `refuse`: a refused operation changes nothing but the answer its invoker sees, which is the model's (log entry 11). -/
def Obligations.RefusedOperationsChangeNothing : Prop :=
  ∀ (i : Instr) (s t : State), exec i s = .next t → t.ret = .refused → t = { s with ret := .refused }

/-- R190: no condition stops the block. The model stops on two things only, both refusals of its own naming: `exec` and
`step` on environment data that an alive machine's next requests meet and that are no answer of the channel interface
(R91; log entry 9), and `step`, always, on a configuration that breaks R6 (log entry 29). -/
def Obligations.NoConditionStopsTheBlock : Prop :=
  (∀ (i : Instr) (s : State) (f : Fault), exec i s ≠ .fault f) ∧
  (∀ (i : Instr) (s : State) (r : Refusal), exec i s = .refused r →
    r = .notAnAnswer ∧ ∃ d, machineOf i = some d ∧ s.MeetsNoAnswer d) ∧
  (∀ (s : State) (f : Fault), step s ≠ .fault f) ∧
  (∀ (s : State) (r : Refusal), step s = .refused r →
    (r = .badConfiguration ∧ s.cfg.wf = false) ∨
    (r = .notAnAnswer ∧ s.cfg.wf = true ∧ ∃ d, s.MeetsNoAnswer d)) ∧
  (∀ s : State, s.cfg.wf = false → step s = .refused .badConfiguration)

/-- R110, R111, R127: a cycle is its read phase, then the instruction its Frame Type Code selects, as one operation: what
the second leaves and returns, or nothing at all where the second waits for an answer. That phases and frames can be
named on their own is the model's reading (log entry 4). -/
def Obligations.CycleReadsThenDispatches : Prop :=
  ∀ (s u : State) (d : Nat) (c : FrameTypeCode), exec (.readInto d) s = .next u → u.ret = .code c →
    exec (.cycle d) s =
      (match exec (frameInstr d c) u with
       | .next t => .next (if t.ret = .held then { s with ret := .held } else t)
       | .fault f => .fault f
       | .refused r => .refused r)

/-! ## The Frame Reader -/

/-- R90 to R92, R98, R99: an admitted read phase answered `bs` issues one request for `CAP - cursor` bytes, stores `bs`
at ascending offsets from the cursor and nothing else, advances the cursor by their number, returns the
classification of what is buffered, and raises `fault_full` exactly when that is Incomplete and the buffer full. -/
def Obligations.ReadPhaseStoresTheBytes : Prop :=
  ∀ (s : State) (d : Nat) (f : Fdc) (bs : List Byte) (rest : List ReadAns),
    s.Ready d f → f.buf.wf = true → (s.chan (s.inCh d)).reads = .bytes bs :: rest →
    1 ≤ bs.length → bs.length ≤ s.cfg.cap - f.cursor →
    ∃ m : Memory,
      (∀ (i : Nat) (h : i < bs.length), m.read (f.cursor + i) = bs[i]) ∧
      (∀ a : Nat, a < f.cursor ∨ f.cursor + bs.length ≤ a → m.read a = f.buf.read a) ∧
      exec (.readInto d) s = .next
        (((s.withReads (s.inCh d) rest).withFdc d
          { f with
            buf := m
            cursor := f.cursor + bs.length
            faultFull := decide (classify s.cfg (f.content ++ bs) = .incomplete ∧
              f.cursor + bs.length = s.cfg.cap) }).returning
          [.chRead d (s.inCh d) (s.cfg.cap - f.cursor) (.bytes bs)] (.code (classify s.cfg (f.content ++ bs))))

/-- R93: a read answered `Eof` returns EndOfFile and changes neither buffer nor cursor. -/
def Obligations.ReadPhaseAtEndOfFile : Prop :=
  ∀ (s : State) (d : Nat) (f : Fdc) (rest : List ReadAns),
    s.Ready d f → (s.chan (s.inCh d)).reads = .eof :: rest →
    exec (.readInto d) s = .next ((s.withReads (s.inCh d) rest).returning
      [.chRead d (s.inCh d) (s.cfg.cap - f.cursor) .eof] (.code .endOfFile))

/-- R94: a read answered `Err(e)` returns Invalid and records the error: flag, code, one trace event; buffer and cursor
are unchanged by this phase. -/
def Obligations.ReadPhaseRecordsReadError : Prop :=
  ∀ (s : State) (d e : Nat) (f : Fdc) (rest : List ReadAns),
    s.Ready d f → e < 2 ^ s.cfg.errW → (s.chan (s.inCh d)).reads = .err e :: rest →
    exec (.readInto d) s = .next
      (((s.withReads (s.inCh d) rest).withFdc d { f with rdErr := true, rdErrCode := e }).returning
        [.chRead d (s.inCh d) (s.cfg.cap - f.cursor) (.err e), .traceReadError d e] (.code .invalid))

/-- R98, R15: a cycle whose read fills the buffer and leaves it Incomplete returns Incomplete, raises `fault_full` and does
nothing else to the counters. A machine that is faulted, or has been destroyed, refuses every cycle, and no instruction but
`FB_INIT(d)` and `RESET` takes it out of that: after any other it is so still, and refuses the next. `FB_INIT(d)` clears
the fault and admits cycles again; `RESET` clears it too, and leaves the machine to be initialised (R32). -/
def Obligations.CapacityExhaustionLatches : Prop :=
  (∀ (s : State) (d : Nat) (f : Fdc) (bs : List Byte) (rest : List ReadAns),
    s.Ready d f → f.buf.wf = true → (s.chan (s.inCh d)).reads = .bytes bs :: rest →
    1 ≤ bs.length → f.cursor + bs.length = s.cfg.cap → classify s.cfg (f.content ++ bs) = .incomplete →
    ∃ (t : State) (g : Fdc), exec (.cycle d) s = .next t ∧ t.ret = .code .incomplete ∧ t.fdc? d = some g ∧
      g.faultFull = true ∧ g.cursor = s.cfg.cap ∧ g.valid = f.valid ∧ g.invalid = f.invalid ∧
      g.writeErrors = f.writeErrors) ∧
  (∀ (s : State) (d : Nat) (f : Fdc), s.fdc? d = some f → f.faultFull = true ∨ f.alive = false →
    exec (.cycle d) s = .next { s with ret := .refused } ∧
    (∀ (i : Instr) (t : State), i ≠ .fbInit d → i ≠ .reset → exec i s = .next t →
      ∃ g : Fdc, t.fdc? d = some g ∧ (g.faultFull = true ∨ g.alive = false) ∧
        exec (.cycle d) t = .next { t with ret := .refused }) ∧
    (∃ (t : State) (g : Fdc), exec (.fbInit d) s = .next t ∧ t.Ready d g ∧ g.cursor = 0) ∧
    (∃ (t : State) (g : Fdc), exec .reset s = .next t ∧ t.fdc? d = some g ∧ g.faultFull = false ∧
      g.alive = false))

/-! ## The Packet Dispatcher: the result of each frame -/

/-- R113, R114, R122, R124: Keepalive and Init1 write `ACK1` then `ACK2` to `IN`, count each failed write, empty the
buffer and count one valid frame. That a frame's action can be named as an operation, which answers its Type Code, is
the model's reading (log entry 4), here and in the next four statements. -/
def Obligations.KeepaliveAndInit1Handshake : Prop :=
  ∀ (s : State) (d : Nat) (f : Fdc) (a1 a2 : WriteAns) (ws : List WriteAns),
    s.Alive d f → (s.chan (s.inCh d)).writes = a1 :: a2 :: ws →
    a1.fits s.cfg = true → a2.fits s.cfg = true →
    ∀ t : State, t = ((s.withWrites (s.inCh d) ws).withFdc d
        { f with
          cursor := 0
          valid := (f.valid + 1) % 2 ^ s.cfg.cntW
          writeErrors := ((f.writeErrors + writeFails a1 3) % 2 ^ s.cfg.cntW + writeFails a2 3) % 2 ^ s.cfg.cntW }) →
      exec (.keepalive d) s = .next (t.returning
        [.chWrite d (s.inCh d) [0xFE, 0xF0, 0xFD] a1, .chWrite d (s.inCh d) [0xFE, 0xF1, 0xFD] a2]
        (.code .keepalive)) ∧
      exec (.init1 d) s = .next (t.returning
        [.chWrite d (s.inCh d) [0xFE, 0xF0, 0xFD] a1, .chWrite d (s.inCh d) [0xFE, 0xF1, 0xFD] a2]
        (.code .init1))

/-- R115: Init2 writes `ACK2` to `IN`; a failure counts when `INIT2_COUNTS_WERR` is true; one valid frame. -/
def Obligations.Init2AcknowledgesOnce : Prop :=
  ∀ (s : State) (d : Nat) (f : Fdc) (a : WriteAns) (ws : List WriteAns),
    s.Alive d f → (s.chan (s.inCh d)).writes = a :: ws → a.fits s.cfg = true →
    exec (.init2 d) s = .next (((s.withWrites (s.inCh d) ws).withFdc d
      { f with
        cursor := 0
        valid := (f.valid + 1) % 2 ^ s.cfg.cntW
        writeErrors := if s.cfg.init2CountsWerr then (f.writeErrors + writeFails a 3) % 2 ^ s.cfg.cntW
          else f.writeErrors }).returning
      [.chWrite d (s.inCh d) [0xFE, 0xF1, 0xFD] a] (.code .init2))

/-- R116, R129: PanelPowerKey is traced with the buffered bytes, writes to no channel, touches no pin, and counts one
valid frame. -/
def Obligations.PanelPowerKeyIsSwallowed : Prop :=
  ∀ (s : State) (d : Nat) (f : Fdc), s.Alive d f →
    exec (.pwk d) s = .next ((s.withFdc d
      { f with cursor := 0, valid := (f.valid + 1) % 2 ^ s.cfg.cntW }).returning
      [.tracePwk d f.content] (.code .panelPowerKey))

/-- R117, R118, R119, R123: Forwardable, EndOfStream and EndOfFile write everything buffered, also nothing, to `OUT` in
one request, count its failure, empty the buffer and count one valid frame. -/
def Obligations.ForwardedVerbatim : Prop :=
  ∀ (s : State) (d : Nat) (f : Fdc) (a : WriteAns) (ws : List WriteAns),
    s.Alive d f → (s.chan (s.outCh d)).writes = a :: ws → a.fits s.cfg = true →
    ∀ (i : Instr) (c : FrameTypeCode),
      ((∃ b : Byte, i = .fwd d b ∧ c = .forwardable b) ∨ (i = .eos d ∧ c = .endOfStream) ∨
        (i = .eof d ∧ c = .endOfFile)) →
      exec i s = .next (((s.withWrites (s.outCh d) ws).withFdc d
        { f with
          cursor := 0
          valid := (f.valid + 1) % 2 ^ s.cfg.cntW
          writeErrors := (f.writeErrors + writeFails a f.cursor) % 2 ^ s.cfg.cntW }).returning
        [.chWrite d (s.outCh d) f.content a] (.code c))

/-- R120, R121, R94: Incomplete does nothing; Invalid empties the buffer and counts one invalid frame; Invalid by a read
error records the error first. None writes to a channel. -/
def Obligations.IncompleteAndInvalid : Prop :=
  ∀ (s : State) (d : Nat) (f : Fdc), s.Alive d f →
    exec (.incomplete d) s = .next (s.returning [] (.code .incomplete)) ∧
    exec (.invalid d) s = .next ((s.withFdc d
      { f with cursor := 0, invalid := (f.invalid + 1) % 2 ^ s.cfg.cntW }).returning [] (.code .invalid)) ∧
    ∀ e : Nat, exec (.invalidRdErr d e) s = .next ((s.withFdc d
      { f with
        cursor := 0
        invalid := (f.invalid + 1) % 2 ^ s.cfg.cntW
        rdErr := true
        rdErrCode := e }).returning [.traceReadError d e] (.code .invalid))

/-- R67, R112: the two frames the block emits of its own making, to `IN`, with the failure counted as their emitter
counts it: an error is one failure, and so is any count but the length offered, a larger one too. That an acknowledgement
can be named as an operation is the model's reading of its table row (log entries 4 and 6). -/
def Obligations.AcknowledgementsAreFixedFrames : Prop :=
  (∀ e n : Nat, writeFails (.err e) n = 1) ∧
  (∀ k n : Nat, (k = n → writeFails (.count k) n = 0) ∧ (k ≠ n → writeFails (.count k) n = 1)) ∧
  ∀ (s : State) (d : Nat) (f : Fdc) (a : WriteAns) (ws : List WriteAns),
    s.Alive d f → (s.chan (s.inCh d)).writes = a :: ws → a.fits s.cfg = true →
    exec (.ack1 d) s = .next (((s.withWrites (s.inCh d) ws).withFdc d
      { f with writeErrors := (f.writeErrors + writeFails a 3) % 2 ^ s.cfg.cntW }).returning
      [.chWrite d (s.inCh d) [0xFE, 0xF0, 0xFD] a] .done) ∧
    exec (.ack2 d .handshake) s = .next (((s.withWrites (s.inCh d) ws).withFdc d
      { f with writeErrors := (f.writeErrors + writeFails a 3) % 2 ^ s.cfg.cntW }).returning
      [.chWrite d (s.inCh d) [0xFE, 0xF1, 0xFD] a] .done) ∧
    exec (.ack2 d .init2Action) s = .next (((s.withWrites (s.inCh d) ws).withFdc d
      { f with writeErrors := if s.cfg.init2CountsWerr then (f.writeErrors + writeFails a 3) % 2 ^ s.cfg.cntW
          else f.writeErrors }).returning
      [.chWrite d (s.inCh d) [0xFE, 0xF1, 0xFD] a] .done)

/-- R111: `RESOLVE(d, t)` completes for every Frame Type Code when its writes are answered, and has the effect of the one
instruction that the code selects, of which it returns nothing (log entries 4 and 7). -/
def Obligations.ResolveSelectsOneArm : Prop :=
  ∀ (s : State) (d : Nat) (f : Fdc) (c : FrameTypeCode) (a1 a2 a3 : WriteAns) (ws vs : List WriteAns),
    s.Alive d f → (s.chan (s.inCh d)).writes = a1 :: a2 :: ws → (s.chan (s.outCh d)).writes = a3 :: vs →
    a1.fits s.cfg = true → a2.fits s.cfg = true → a3.fits s.cfg = true →
    ∃ t : State, exec (.resolve d c) s = .next t ∧ t.ret = .done ∧
      exec (frameInstr d c) s = .next { t with ret := .code c }

/-! ## The cycle -/

/-- R110, R184, R128: an admitted cycle whose requests are all answered runs to its end: it returns the Frame Type Code of
the answer, and either that is Incomplete and the content is retained, or the cursor is 0. -/
def Obligations.AnsweredCycleCompletes : Prop :=
  ∀ (s : State) (d : Nat) (f : Fdc) (a : ReadAns) (rest : List ReadAns) (a1 a2 a3 : WriteAns)
    (ws vs : List WriteAns),
    s.Ready d f → f.buf.wf = true → (s.chan (s.inCh d)).reads = a :: rest →
    a.fits s.cfg (s.cfg.cap - f.cursor) = true →
    (s.chan (s.inCh d)).writes = a1 :: a2 :: ws → (s.chan (s.outCh d)).writes = a3 :: vs →
    a1.fits s.cfg = true → a2.fits s.cfg = true → a3.fits s.cfg = true →
    ∃ (t : State) (c : FrameTypeCode) (g : Fdc),
      exec (.cycle d) s = .next t ∧ t.ret = .code c ∧ t.fdc? d = some g ∧
      c = (match a with
           | .bytes bs => classify s.cfg (f.content ++ bs)
           | .eof => .endOfFile
           | .err _ => .invalid) ∧
      (c = .incomplete → ∀ bs, a = .bytes bs → g.cursor = f.cursor + bs.length ∧ g.content = f.content ++ bs) ∧
      (c ≠ .incomplete → g.cursor = 0) ∧ g.alive = true

/-- R92, R93, R94, R98, R55: what a cycle that ran to its end left of its own machine's memory and flags: the bytes it read
at the offsets from the cursor on, every other byte as it was, all of them when no bytes were read; the error flag and
code moved only by a read error; the fault flag up exactly when the machine is left Incomplete and full. -/
def Obligations.CycleStoresOnlyWhatItRead : Prop :=
  ∀ (s t : State) (d : Nat) (c : FrameTypeCode) (f : Fdc) (a : ReadAns) (rest : List ReadAns),
    s.Ready d f → f.buf.wf = true → (s.chan (s.inCh d)).reads = a :: rest →
    exec (.cycle d) s = .next t → t.ret = .code c →
    ∃ g : Fdc, t.fdc? d = some g ∧ g.alive = true ∧
      (∀ bs, a = .bytes bs →
        (∀ (i : Nat) (h : i < bs.length), g.buf.read (f.cursor + i) = bs[i]) ∧
        (∀ x : Nat, x < f.cursor ∨ f.cursor + bs.length ≤ x → g.buf.read x = f.buf.read x)) ∧
      ((∀ bs, a ≠ .bytes bs) → ∀ x : Nat, g.buf.read x = f.buf.read x) ∧
      (∀ e, a = .err e → g.rdErr = true ∧ g.rdErrCode = e) ∧
      ((∀ e, a ≠ .err e) → g.rdErr = f.rdErr ∧ g.rdErrCode = f.rdErrCode) ∧
      g.faultFull = decide (c = .incomplete ∧ g.cursor = s.cfg.cap)

/-- R128: after every admitted cycle either the result is Incomplete, at least one byte is buffered and the first is
`0xFE`, or the result is anything else and the cursor is 0. -/
def Obligations.CyclePostcondition : Prop :=
  ∀ (s t : State) (d : Nat) (c : FrameTypeCode), exec (.cycle d) s = .next t → t.ret = .code c →
    ∃ g : Fdc, t.fdc? d = some g ∧
      ((c = .incomplete ∧ 1 ≤ g.cursor ∧ g.buf.read 0 = 0xFE) ∨ (c ≠ .incomplete ∧ g.cursor = 0))

/-- R125, R13: the counter law of an admitted cycle. Exactly one of `valid` and `invalid` moves, by 1, when the result is
not Incomplete and neither when it is; `write_errors` moves by the number of the cycle's failed writes, except that of
an Init2 acknowledgement when `INIT2_COUNTS_WERR` is false; all modulo `2^CNT_W`. -/
def Obligations.CounterLaw : Prop :=
  ∀ (s t : State) (d : Nat) (c : FrameTypeCode) (f : Fdc), s.fdc? d = some f →
    f.writeErrors < 2 ^ s.cfg.cntW → exec (.cycle d) s = .next t → t.ret = .code c →
    ∃ (g : Fdc) (es : List Event), t.fdc? d = some g ∧ t.history = s.history ++ es ∧ failedWrites es ≤ 2 ∧
      g.valid = (if c = .incomplete ∨ c = .invalid then f.valid else (f.valid + 1) % 2 ^ s.cfg.cntW) ∧
      g.invalid = (if c = .invalid then (f.invalid + 1) % 2 ^ s.cfg.cntW else f.invalid) ∧
      g.writeErrors = (if c = .init2 ∧ s.cfg.init2CountsWerr = false then f.writeErrors
        else (f.writeErrors + failedWrites es) % 2 ^ s.cfg.cntW)

/-- R99, R48: one cycle issues exactly one read request, first, for `CAP - cursor` bytes, and at most two writes. -/
def Obligations.OneReadAtMostTwoWrites : Prop :=
  ∀ (s t : State) (d : Nat) (c : FrameTypeCode) (f : Fdc), s.fdc? d = some f →
    exec (.cycle d) s = .next t → t.ret = .code c →
    ∃ (ans : ReadAns) (es : List Event),
      t.history = s.history ++ .chRead d (s.inCh d) (s.cfg.cap - f.cursor) ans :: es ∧
      es.filter Event.isRead = [] ∧ (writesOf es).length ≤ 2

/-- R110, R184: `CYCLE(d)` is refused on a machine that does not exist, is dead or is faulted. It is held, as a whole and
with nothing changed, while a request it issues has no answer: its read, or, the read being answered, a write of the
action that the read's Frame Type Code selects. So are the read phase, the frame instructions, `RESOLVE` and the
acknowledgements, which are operations of their own by the model's reading (log entries 4 and 8). -/
def Obligations.CycleRefusedOrHeld : Prop :=
  ∀ (s : State) (d : Nat),
    ((∀ f : Fdc, ¬ s.Ready d f) → exec (.cycle d) s = .next { s with ret := .refused }) ∧
    (∀ f : Fdc, s.Ready d f → (s.chan (s.inCh d)).reads = [] →
      exec (.cycle d) s = .next { s with ret := .held } ∧ exec (.readInto d) s = .next { s with ret := .held }) ∧
    (∀ (f : Fdc) (a : ReadAns) (rest : List ReadAns),
      s.Ready d f → f.buf.wf = true → (s.chan (s.inCh d)).reads = a :: rest →
      a.fits s.cfg (s.cfg.cap - f.cursor) = true →
      s.LacksWriteAnswer d (match a with
        | .bytes bs => classify s.cfg (f.content ++ bs)
        | .eof => .endOfFile
        | .err _ => .invalid) →
      exec (.cycle d) s = .next { s with ret := .held }) ∧
    (∀ (f : Fdc) (c : FrameTypeCode), s.Alive d f → s.LacksWriteAnswer d c →
      exec (frameInstr d c) s = .next { s with ret := .held } ∧
      exec (.resolve d c) s = .next { s with ret := .held }) ∧
    (∀ (f : Fdc) (src : AckSource), s.Alive d f → (s.chan (s.inCh d)).writes = [] →
      exec (.ack1 d) s = .next { s with ret := .held } ∧
      exec (.ack2 d src) s = .next { s with ret := .held })

/-! ## Lifetime, status, reset -/

/-- R180, R181: `FB_INIT` is admitted in any state of an existing machine, sets `alive` and zeroes every other element
but `buf`, which it does not write; `FB_DESTROY` clears `alive` only, so that the other elements keep their values, which
then mean nothing (log entry 28). Both are refused without effect where the rules
refuse them. -/
def Obligations.LifetimeOperations : Prop :=
  ∀ (s : State) (d : Nat),
    (∀ f : Fdc, s.fdc? d = some f →
      exec (.fbInit d) s = .next ((s.withFdc d
        { alive := true, buf := f.buf, cursor := 0, valid := 0, invalid := 0, writeErrors := 0,
          rdErr := false, rdErrCode := 0, faultFull := false }).returning [] .done)) ∧
    (∀ f : Fdc, s.Alive d f →
      exec (.fbDestroy d) s = .next ((s.withFdc d { f with alive := false }).returning [] .done)) ∧
    (s.cfg.nDir ≤ d → exec (.fbInit d) s = .next { s with ret := .refused }) ∧
    ((∀ f : Fdc, ¬ s.Alive d f) → exec (.fbDestroy d) s = .next { s with ret := .refused })

/-- R182: `RD_STATUS` returns the record of the machine as it stands, alive or not, and changes nothing; it is refused when
`d >= N_DIR`. -/
def Obligations.StatusReadsChangeNothing : Prop :=
  ∀ (s : State) (d : Nat),
    (∀ f : Fdc, s.fdc? d = some f →
      exec (.rdStatus d) s = .next { s with ret := .status ⟨f.alive, f.cursor, f.valid, f.invalid, f.writeErrors,
        f.rdErr, f.rdErrCode, f.faultFull⟩ }) ∧
    (s.cfg.nDir ≤ d → exec (.rdStatus d) s = .next { s with ret := .refused })

/-- R220, R30, R35: `RESET` completes in every state, leaves every machine not alive with cursor, counters and flags 0 and
every pin unexported in its default configuration, for every level its line may show, and drives no pad. The rest is the
model's: the answers of the environment and the record of what happened are no state of the block (log entries 8 and 20),
and that the commands, samples and turns that wait are kept is the model's choice (log entries 10 and 30). -/
def Obligations.ResetClearsMachinesAndPins : Prop :=
  ∀ s : State, ∃ t : State, exec .reset s = .next t ∧ t.ret = .done ∧ t.cfg = s.cfg ∧
    (∀ d f, s.fdc? d = some f → ∃ m : Memory, t.fdc? d = some
      { alive := false, buf := m, cursor := 0, valid := 0, invalid := 0, writeErrors := 0,
        rdErr := false, rdErrCode := 0, faultFull := false }) ∧
    (∀ p q, s.pin? p = some q → ∃ level : Bool, t.pin? p = some
      { exported := false, dir := .input, activeLow := false, edge := .none, outLatch := false,
        line := level, edgePending := false }) ∧
    (∀ p, (t.pin? p).bind Pin.padOut = none) ∧
    t.chans = s.chans ∧ t.draws = s.draws ∧ t.frameQ = s.frameQ ∧ t.gedQ = s.gedQ ∧
    t.samples = s.samples ∧ t.turns = s.turns ∧ t.history = s.history

/-- R30, R35: the values of the state after reset, whatever the parameters; those of `buf` and of `line` are not
stated. -/
def Obligations.ResetValues : Prop :=
  ∀ cfg : Config,
    (∀ d, d < cfg.nDir → ∃ f : Fdc, (State.resetOf cfg).fdc? d = some f ∧ f.alive = false ∧ f.cursor = 0 ∧
      f.valid = 0 ∧ f.invalid = 0 ∧ f.writeErrors = 0 ∧ f.rdErr = false ∧ f.rdErrCode = 0 ∧
      f.faultFull = false) ∧
    (∀ p, p < cfg.nPins → ∃ q : Pin, (State.resetOf cfg).pin? p = some q ∧ q.exported = false ∧
      q.dir = .input ∧ q.activeLow = false ∧ q.edge = .none ∧ q.outLatch = false ∧ q.edgePending = false)

/-! ## The GPIO edge detector -/

/-- R142: a fresh export with the draw 1 sets the inert defaults and leaves `line` and every other pin alone. It fails
without a draw and without effect on a number that names no pin and on an exported pin, and with no effect but the draw
when that is 0. -/
def Obligations.ExportSetsDefaults : Prop :=
  ∀ (s : State) (p : Nat),
    (∀ (q : Pin) (rest : List Bool), s.pin? p = some q → q.exported = false → s.draws = true :: rest →
      exec (.exportPin p) s = .next (((s.withDraws rest).withPin p
        { exported := true, dir := .input, activeLow := false, edge := .none, outLatch := false,
          line := q.line, edgePending := false }).returning [.gpioEnv true] .ok)) ∧
    (∀ (q : Pin) (rest : List Bool), s.pin? p = some q → q.exported = false → s.draws = false :: rest →
      exec (.exportPin p) s = .next ((s.withDraws rest).returning [.gpioEnv false] .fail)) ∧
    (∀ q : Pin, s.Exported p q → exec (.exportPin p) s = .next { s with ret := .fail }) ∧
    (s.cfg.nPins ≤ p → exec (.exportPin p) s = .next { s with ret := .fail })

/-- R143: on an exported pin nothing is drawn and nothing changes; on an absent one it is `EXPORT`; a number that names no
pin fails. -/
def Obligations.ExportIfAbsentIsIdempotent : Prop :=
  ∀ (s : State) (p : Nat),
    (∀ q : Pin, s.Exported p q → exec (.exportIfAbsent p) s = .next { s with ret := .ok }) ∧
    (∀ q : Pin, s.pin? p = some q → q.exported = false →
      exec (.exportIfAbsent p) s = exec (.exportPin p) s) ∧
    (s.cfg.nPins ≤ p → exec (.exportIfAbsent p) s = .next { s with ret := .fail })

/-- R144, R145, R146: the three configuration primitives. On an exported pin with the draw 1 each writes its own element
and clears a pending edge, `SET_DIRECTION` to `out` clears the latch, and the pad of an output pin shows the kept latch in
the new polarity; with the draw 0 each fails with no other
effect; edge code 3 fails without a draw. Where no exported pin is named each fails without a draw. -/
def Obligations.ConfigurationPrimitives : Prop :=
  ∀ (s : State) (p : Nat),
    (∀ (q : Pin) (rest : List Bool), s.Exported p q → s.draws = true :: rest →
      exec (.setDirection p .input) s = .next (((s.withDraws rest).withPin p
        { q with dir := .input, edgePending := false }).returning [.gpioEnv true] .ok) ∧
      exec (.setDirection p .output) s = .next (((s.withDraws rest).withPin p
        { q with dir := .output, edgePending := false, outLatch := false }).returning [.gpioEnv true] .ok) ∧
      (∀ a : Bool, exec (.setPolarity p a) s = .next (((s.withDraws rest).withPin p
        { q with activeLow := a, edgePending := false }).returning [.gpioEnv true] .ok) ∧
        (q.dir = .output → Pin.padOut { q with activeLow := a, edgePending := false } = some (q.outLatch ^^ a))) ∧
      (∀ (e : BitVec 2) (m : EdgeMode), (e, m) ∈ [((0 : BitVec 2), EdgeMode.none), (1, .rising), (2, .falling)] →
        exec (.setEdge p e) s = .next (((s.withDraws rest).withPin p
          { q with edge := m, edgePending := false }).returning [.gpioEnv true] .ok))) ∧
    (∀ (q : Pin) (rest : List Bool) (i : Instr), s.Exported p q → s.draws = false :: rest →
      ((∃ x, i = .setDirection p x) ∨ (∃ a, i = .setPolarity p a) ∨ (∃ e, e ≠ 3 ∧ i = .setEdge p e)) →
      exec i s = .next ((s.withDraws rest).returning [.gpioEnv false] .fail)) ∧
    exec (.setEdge p 3) s = .next { s with ret := .fail } ∧
    ((∀ q : Pin, ¬ s.Exported p q) → ∀ i : Instr,
      ((∃ x, i = .setDirection p x) ∨ (∃ a, i = .setPolarity p a) ∨ (∃ e, i = .setEdge p e)) →
      exec i s = .next { s with ret := .fail })

/-- R147, R148, R27: on an exported pin with the draw 1 `READ_VALUE` returns the logical level and changes no pin, and
`WRITE_VALUE` writes the latch of an output pin, whose pad then shows `v XOR active_low`; with the draw 0 both fail with no other effect. `WRITE_VALUE` fails
without a draw on an input pin, and both do where no exported pin is named. -/
def Obligations.ValuePrimitives : Prop :=
  ∀ (s : State) (p : Nat),
    (∀ (q : Pin) (rest : List Bool), s.Exported p q → s.draws = true :: rest →
      exec (.readValue ⟨true, p⟩) s = .next ((s.withDraws rest).returning [.gpioEnv true]
        (.value (if q.dir = .input then q.line ^^ q.activeLow else q.outLatch))) ∧
      (∀ v : Bool, q.dir = .output → exec (.writeValue p v) s = .next (((s.withDraws rest).withPin p
        { q with outLatch := v }).returning [.gpioEnv true] .ok) ∧
        Pin.padOut { q with outLatch := v } = some (v ^^ q.activeLow))) ∧
    (∀ (q : Pin) (rest : List Bool), s.Exported p q → s.draws = false :: rest →
      exec (.readValue ⟨true, p⟩) s = .next ((s.withDraws rest).returning [.gpioEnv false] .fail) ∧
      (∀ v : Bool, q.dir = .output →
        exec (.writeValue p v) s = .next ((s.withDraws rest).returning [.gpioEnv false] .fail))) ∧
    (∀ (q : Pin) (v : Bool), s.Exported p q → q.dir = .input →
      exec (.writeValue p v) s = .next { s with ret := .fail }) ∧
    ((∀ q : Pin, ¬ s.Exported p q) → exec (.readValue ⟨true, p⟩) s = .next { s with ret := .fail } ∧
      ∀ v : Bool, exec (.writeValue p v) s = .next { s with ret := .fail })

/-- R141: a primitive that fails changes no pin, no machine and no channel, for one of two reasons. Either a deterministic
check fails: no such pin, or the condition that the primitive's rule names of it (R142, R144 to R148); then nothing is
drawn. Or the checks pass and the draw was 0. -/
def Obligations.FailedPrimitivesChangeNoPin : Prop :=
  ∀ (s t : State) (p : Nat) (i : Instr) (checks : Pin → Bool),
    ((i = .exportPin p ∧ checks = fun q => !q.exported) ∨
      (((∃ x, i = .setDirection p x) ∨ (∃ a, i = .setPolarity p a) ∨ (∃ e, e ≠ 3 ∧ i = .setEdge p e) ∨
        i = .readValue ⟨true, p⟩) ∧ checks = fun q => q.exported) ∨
      (i = .setEdge p 3 ∧ checks = fun _ => false) ∨
      ((∃ v, i = .writeValue p v) ∧ checks = fun q => q.exported && decide (q.dir = .output))) →
    exec i s = .next t → t.ret = .fail →
    t.pins = s.pins ∧ t.fdcs = s.fdcs ∧ t.chans = s.chans ∧ t.cfg = s.cfg ∧
      ((t.draws = s.draws ∧ t.history = s.history ∧ ∀ q, s.pin? p = some q → checks q = false) ∨
        (s.draws = false :: t.draws ∧ t.history = s.history ++ [.gpioEnv false] ∧
          ∃ q, s.pin? p = some q ∧ checks q = true))

/-- R149, R157: a presented level is followed by `line` on every existing pin, and sets the pending flag exactly on a
transition of the selected kind of an exported input pin, judged on the logical or the physical levels as `EDGE_SENSE`
says; it never clears the flag. It is refused on a number that names no pin. -/
def Obligations.SampleDetectsSelectedEdges : Prop :=
  ∀ (s : State) (p : Nat) (v : Bool),
    (∀ q : Pin, s.pin? p = some q →
      ∀ o n : Bool,
        (o, n) = (if s.cfg.edgeSense = .logical then (q.line ^^ q.activeLow, v ^^ q.activeLow) else (q.line, v)) →
      exec (.sample p v) s = .next ((s.withPin p
        { q with
          line := v
          edgePending := q.edgePending || (q.exported && decide (q.dir = .input) &&
            ((decide (q.edge = .rising) && !o && n) || (decide (q.edge = .falling) && o && !n))) }).returning
        [] .done)) ∧
    (s.cfg.nPins ≤ p → exec (.sample p v) s = .next { s with ret := .refused })

/-- R150, R151: on a good handle `POLL` returns the flag and clears it, `WAIT_EDGE` returns and clears it when it is
set and holds when it is not; neither draws. A level that is a detected edge lifts the hold, and no level does on a pin
whose edge is `none` or that is an output. On a handle with `ok = 0`, or a pin that is absent or unexported, both fail
and change nothing. So does `READ_VALUE` (R147, R155); that it draws nothing on a handle with `ok = 0` is the model's
choice (log entry 13). -/
def Obligations.PollAndWaitConsumeTheEdge : Prop :=
  ∀ (s : State) (h : Handle),
    (∀ q : Pin, h.ok = true → s.Exported h.pin q →
      exec (.poll h) s = .next ((s.withPin h.pin { q with edgePending := false }).returning []
        (.value q.edgePending)) ∧
      (q.edgePending = true →
        exec (.waitEdge h) s = .next ((s.withPin h.pin { q with edgePending := false }).returning [] .ok)) ∧
      (q.edgePending = false → exec (.waitEdge h) s = .next { s with ret := .held }) ∧
      (q.edgePending = false → ∀ v : Bool, ∃ t : State, exec (.sample h.pin v) s = .next t ∧
        (q.edgeSeen s.cfg.edgeSense v = true → ∃ u : State, exec (.waitEdge h) t = .next u ∧ u.ret = .ok) ∧
        (q.edge = .none ∨ q.dir = .output → exec (.waitEdge h) t = .next { t with ret := .held }))) ∧
    ((h.ok = false ∨ ∀ q : Pin, ¬ s.Exported h.pin q) →
      exec (.poll h) s = .next { s with ret := .fail } ∧ exec (.waitEdge h) s = .next { s with ret := .fail } ∧
      exec (.readValue h) s = .next { s with ret := .fail })

/-- R158, R52: once an edge is pending, any number of further levels on the pin are absorbed: the next `POLL` returns 1
and the one after it returns 0. -/
def Obligations.EdgesMergeIntoOneFlag : Prop :=
  ∀ (s : State) (p : Nat) (q : Pin) (vs : List Bool), s.Exported p q → q.edgePending = true →
    ∃ t u w : State, presentAll p vs s = some t ∧ exec (.poll ⟨true, p⟩) t = .next u ∧ u.ret = .value true ∧
      exec (.poll ⟨true, p⟩) u = .next w ∧ w.ret = .value false

/-- R152: with its draws all 1 the sensor's initialisation exports the pin if it is absent, makes it an active-low input
with the falling edge and no pending edge, and returns a handle on `PWK_PIN`, also when it is called again. -/
def Obligations.SensorInitConfiguresThePin : Prop :=
  ∀ (s : State) (q : Pin) (rest : List Bool), s.pin? s.cfg.pwkPin = some q →
    s.draws = (if q.exported then [true, true, true, true] else [true, true, true, true, true]) ++ rest →
    exec .initPowerKeySensor s = .next (((s.withDraws rest).withPin s.cfg.pwkPin
      { q with
        exported := true
        dir := .input
        activeLow := true
        edge := .falling
        edgePending := false
        outLatch := if q.exported then q.outLatch else false }).returning
      (if q.exported then List.replicate 4 (.gpioEnv true) else List.replicate 5 (.gpioEnv true))
      (.handle ⟨true, s.cfg.pwkPin⟩))

/-- R152, R28: the first failing draw ends the sensor's initialisation with the sentinel handle, nothing already done is
undone, and no later step draws: what each of the five draws leaves of an absent pin, and each of the four of an exported
one, when it is the first 0. -/
def Obligations.SensorInitStopsAtFirstFailure : Prop :=
  ∀ (s : State) (q : Pin) (rest : List Bool), s.pin? s.cfg.pwkPin = some q →
    ∀ (n : Nat) (left : Pin),
      ((q.exported = false ∧ (n, left) ∈
        [(0, q),
         (1, ⟨true, .input, false, .none, false, q.line, false⟩),
         (2, ⟨true, .input, false, .none, false, q.line, false⟩),
         (3, ⟨true, .input, true, .none, false, q.line, false⟩),
         (4, ⟨true, .input, true, .falling, false, q.line, false⟩)]) ∨
       (q.exported = true ∧ (n, left) ∈
        [(0, q),
         (1, ⟨true, .input, q.activeLow, q.edge, q.outLatch, q.line, false⟩),
         (2, ⟨true, .input, true, q.edge, q.outLatch, q.line, false⟩),
         (3, ⟨true, .input, true, .falling, q.outLatch, q.line, false⟩)])) →
      s.draws = List.replicate n true ++ false :: rest →
      exec .initPowerKeySensor s = .next (((s.withDraws rest).withPin s.cfg.pwkPin left).returning
        (List.replicate n (.gpioEnv true) ++ [.gpioEnv false]) (.handle ⟨false, 2 ^ s.cfg.pinW - 1⟩))

/-- R153: an output pin's initialisation with its draws all 1. It exports pin `p` if it is absent and leaves it an output
whose latch is 0. Where the initial write targets `p` it returns `ok`; where it targets another pin, `FIXED_PIN`, it
clears that pin's latch and returns `ok` if that is an exported output, and else fails without a draw. -/
def Obligations.OutputInitClearsTheLatch : Prop :=
  ∀ (s : State) (p : Nat) (q out : Pin) (rest : List Bool) (k : Nat), s.pin? p = some q →
    out = { q with
      exported := true
      dir := .output
      outLatch := false
      edgePending := false
      activeLow := if q.exported then q.activeLow else false
      edge := if q.exported then q.edge else .none } →
    k = (if q.exported then 1 else 2) →
    (s.cfg.initWriteTarget = .argPin ∨ s.cfg.fixedPin = p → s.draws = List.replicate (k + 1) true ++ rest →
      exec (.initOutputPin p) s = .next (((s.withDraws rest).withPin p out).returning
        (List.replicate (k + 1) (.gpioEnv true)) .ok)) ∧
    (s.cfg.initWriteTarget = .fixedPin → s.cfg.fixedPin ≠ p →
      (∀ r : Pin, s.Exported s.cfg.fixedPin r → r.dir = .output → s.draws = List.replicate (k + 1) true ++ rest →
        exec (.initOutputPin p) s = .next ((((s.withDraws rest).withPin p out).withPin s.cfg.fixedPin
          { r with outLatch := false }).returning (List.replicate (k + 1) (.gpioEnv true)) .ok)) ∧
      ((∀ r : Pin, s.Exported s.cfg.fixedPin r → r.dir = .input) → s.draws = List.replicate k true ++ rest →
        exec (.initOutputPin p) s = .next (((s.withDraws rest).withPin p out).returning
          (List.replicate k (.gpioEnv true)) .fail)))

/-- R153, R141: where an output pin's initialisation fails. On a number that names no pin it fails without a draw. A first
draw of 0 at the export, at the direction or at the initial write ends it with `fail`, nothing already done is undone, and
no later step draws; the write draws where its target is `p` or an exported output. -/
def Obligations.OutputInitStopsAtFirstFailure : Prop :=
  ∀ (s : State) (p : Nat),
    (s.cfg.nPins ≤ p → exec (.initOutputPin p) s = .next { s with ret := .fail }) ∧
    ∀ (q left : Pin) (rest : List Bool) (n : Nat), s.pin? p = some q →
      ((q.exported = false ∧ (n, left) ∈ [(0, q), (1, ⟨true, .input, false, .none, false, q.line, false⟩)]) ∨
       (q.exported = true ∧ (n, left) = (0, q)) ∨
       ((s.cfg.initWriteTarget = .argPin ∨ s.cfg.fixedPin = p ∨
          ∃ r, s.Exported s.cfg.fixedPin r ∧ r.dir = .output) ∧
        (n, left) = (if q.exported then (1, ⟨true, .output, q.activeLow, q.edge, false, q.line, false⟩)
          else (2, ⟨true, .output, false, .none, false, q.line, false⟩)))) →
      s.draws = List.replicate n true ++ false :: rest →
      exec (.initOutputPin p) s = .next (((s.withDraws rest).withPin p left).returning
        (List.replicate n (.gpioEnv true) ++ [.gpioEnv false]) .fail)

/-- R154: `SET_PIN` makes one write and returns the count of failed ones: 0 with the latch written, or 1 with no pin
changed. -/
def Obligations.SetPinCountsFailedWrites : Prop :=
  ∀ (s : State) (p : Nat) (v : Bool),
    (∀ (q : Pin) (rest : List Bool), s.Exported p q → q.dir = .output → s.draws = true :: rest →
      exec (.setPin p v) s = .next (((s.withDraws rest).withPin p { q with outLatch := v }).returning
        [.gpioEnv true] (.count 0))) ∧
    (∀ (q : Pin) (rest : List Bool), s.Exported p q → q.dir = .output → s.draws = false :: rest →
      exec (.setPin p v) s = .next ((s.withDraws rest).returning [.gpioEnv false] (.count 1))) ∧
    ((∀ q : Pin, s.Exported p q → q.dir = .input) → exec (.setPin p v) s = .next { s with ret := .count 1 })

/-- R159, R27: an instruction changes what the pad of pin `p` shows only when it is one of those the rule names, on that
pin, or a composite of them that acts on that pin: the sensor's initialisation on `PWK_PIN`, an output pin's on the pin it
names and, with the fixed target, on `FIXED_PIN`. -/
def Obligations.PadsChangeOnlyByPinOperations : Prop :=
  ∀ (i : Instr) (s t : State) (p : Nat), exec i s = .next t →
    ((t.pin? p).bind Pin.padOut = (s.pin? p).bind Pin.padOut ∨
      (∃ v, i = .writeValue p v) ∨ (∃ x, i = .setDirection p x) ∨ (∃ a, i = .setPolarity p a) ∨
      i = .exportPin p ∨ i = .exportIfAbsent p ∨ i = .reset ∨ (∃ v, i = .setPin p v) ∨
      (i = .initPowerKeySensor ∧ p = s.cfg.pwkPin) ∨ i = .initOutputPin p ∨
      (p = s.cfg.fixedPin ∧ s.cfg.initWriteTarget = .fixedPin ∧ ∃ e, i = .initOutputPin e))

/-! ## The whole machine -/

/-- R33, R156: an instruction on machine `d` changes no other machine and no pin and draws nothing. -/
def Obligations.MachinesAreIsolated : Prop :=
  ∀ (i : Instr) (d : Nat) (s t : State),
    (i ∈ [Instr.keepalive d, .init1 d, .init2 d, .pwk d, .incomplete d, .eos d, .invalid d, .eof d, .ack1 d,
          .fbInit d, .fbDestroy d, .cycle d, .rdStatus d, .readInto d] ∨
      (∃ c, i = .fwd d c) ∨ (∃ e, i = .invalidRdErr d e) ∨ (∃ src, i = .ack2 d src) ∨ (∃ c, i = .resolve d c)) →
    exec i s = .next t →
    t.pins = s.pins ∧ t.draws = s.draws ∧ t.cfg = s.cfg ∧ ∀ e, e ≠ d → t.fdc? e = s.fdc? e

/-- R156, R33: a GPIO operation and a `SAMPLE` change no machine and no channel, and of the pins only their own, with
`FIXED_PIN` for an output pin's initialisation. -/
def Obligations.DetectorIsIsolated : Prop :=
  ∀ (i : Instr) (p : Nat) (s t : State),
    (i ∈ [Instr.exportPin p, .exportIfAbsent p, .initOutputPin p] ∨ (∃ ok, i = .readValue ⟨ok, p⟩) ∨
      (∃ x, i = .setDirection p x) ∨ (∃ a, i = .setPolarity p a) ∨ (∃ e, i = .setEdge p e) ∨
      (∃ v, i = .writeValue p v) ∨ (∃ ok, i = .poll ⟨ok, p⟩) ∨ (∃ ok, i = .waitEdge ⟨ok, p⟩) ∨
      (∃ v, i = .setPin p v) ∨ (∃ v, i = .sample p v) ∨ (i = .initPowerKeySensor ∧ p = s.cfg.pwkPin)) →
    exec i s = .next t →
    t.fdcs = s.fdcs ∧ t.chans = s.chans ∧ t.cfg = s.cfg ∧
    ∀ e, e ≠ p → (i = .initOutputPin p → s.cfg.initWriteTarget = .fixedPin → e ≠ s.cfg.fixedPin) →
      t.pin? e = s.pin? e

/-- R14, R15: the sticky flags: no step clears `rd_err` or `fault_full` of machine `d` but one that finishes
`FB_INIT(d)` or `RESET`. Of a machine that is not alive this is the model's (log entry 28). -/
def Obligations.StickyFlagsStay : Prop :=
  ∀ (i : Instr) (s t : State) (d : Nat) (f : Fdc), exec i s = .next t → i ≠ .fbInit d → i ≠ .reset →
    s.fdc? d = some f →
    ∃ g : Fdc, t.fdc? d = some g ∧ (f.rdErr = true → g.rdErr = true) ∧ (f.faultFull = true → g.faultFull = true)

/-- The invariant holds after reset, for every admissible configuration and for the model's own (log entry 2). -/
def Obligations.ResetMeetsTheInvariant : Prop :=
  (∀ cfg : Config, cfg.wf = true → (State.resetOf cfg).Inv) ∧ State.reset.Inv

/-- R12, R13, R14, R19, R26, R46, R98: every step keeps the invariant: the buffers canonical and inside their capacity,
cursors, counters and codes inside their widths, what is accumulated an Incomplete frame, a full buffer faulted, and a
pending edge only on a pin that can detect. -/
def Obligations.StepKeepsTheInvariant : Prop :=
  ∀ s t : State, s.Inv → step s = .next t → t.Inv

/-- R231: fragmentation invariance with its premises. A frame that fits, with no end marker before its last byte, delivered
to an empty machine in any number of reads cut anywhere: every cycle but the last returns Incomplete and changes no
counter, the last returns the type of the byte at offset 1, and the machine and the writes end up as if the frame had
come in one read, with the cursor 0. -/
def Obligations.FragmentationInvariance : Prop :=
  ∀ (s : State) (d : Nat) (f : Fdc) (frame : List Byte) (c : Byte) (chunks : List (List Byte))
    (rest : List ReadAns) (a1 a2 a3 : WriteAns) (ws vs : List WriteAns),
    s.Ready d f → f.buf.wf = true → f.cursor = 0 →
    frame.head? = some 0xFE → frame[1]? = some c → frame.getLast? = some 0xFD → 0xFD ∉ frame.dropLast →
    frame.length ≤ s.cfg.cap →
    chunks.flatten = frame → (∀ b ∈ chunks, b ≠ []) →
    (s.chan (s.inCh d)).reads = chunks.map .bytes ++ rest →
    (s.chan (s.inCh d)).writes = a1 :: a2 :: ws → (s.chan (s.outCh d)).writes = a3 :: vs →
    a1.fits s.cfg = true → a2.fits s.cfg = true → a3.fits s.cfg = true →
    ∃ (t u : State) (codes : List FrameTypeCode) (es es' : List Event),
      cycles d chunks.length s = some (t, codes) ∧
      codes = List.replicate (chunks.length - 1) .incomplete ++ [typeOf s.cfg c] ∧
      exec (.cycle d) (s.withReads (s.inCh d) (.bytes frame :: rest)) = .next u ∧
      t.fdc? d = u.fdc? d ∧ t.ret = u.ret ∧
      t.history = s.history ++ es ∧ u.history = s.history ++ es' ∧ writesOf es = writesOf es' ∧
      (∀ g : Fdc, t.fdc? d = some g → g.cursor = 0) ∧
      ∀ n, n < chunks.length → ∃ (w : State) (cs : List FrameTypeCode) (g : Fdc),
        cycles d n s = some (w, cs) ∧ w.fdc? d = some g ∧ g.valid = f.valid ∧ g.invalid = f.invalid ∧
        g.writeErrors = f.writeErrors

/-- R186: the runs that the history shows agree with the machines, at reset and after every step of a state in which they
do: a run of machine `d` goes on exactly while the machine is alive, and it is faulted exactly when `fault_full` was set
in it. Runs are read off the history, which is the model's record (log entry 20). -/
def Obligations.RunsFollowTheMachines : Prop :=
  State.reset.RunsAgree ∧ ∀ s t : State, s.RunsAgree → step s = .next t → t.RunsAgree

/-- R141, R8, R9: a GPIO operation whose checks pass and whose draw has no answer yet is held, as a whole and with nothing
changed, also where a composite's earlier draws are answered. That a draw can wait is the model's choice (log entry 8). -/
def Obligations.UnansweredDrawsAreHeld : Prop :=
  ∀ (s : State) (p : Nat) (q : Pin) (n : Nat), s.pin? p = some q → s.draws = List.replicate n true →
    (n = 0 → q.exported = false →
      exec (.exportPin p) s = .next { s with ret := .held } ∧
      exec (.exportIfAbsent p) s = .next { s with ret := .held }) ∧
    (n = 0 → q.exported = true →
      (∀ x, exec (.setDirection p x) s = .next { s with ret := .held }) ∧
      (∀ a, exec (.setPolarity p a) s = .next { s with ret := .held }) ∧
      (∀ e, e ≠ 3 → exec (.setEdge p e) s = .next { s with ret := .held }) ∧
      exec (.readValue ⟨true, p⟩) s = .next { s with ret := .held } ∧
      (q.dir = .output → ∀ v, exec (.writeValue p v) s = .next { s with ret := .held } ∧
        exec (.setPin p v) s = .next { s with ret := .held })) ∧
    (p = s.cfg.pwkPin → n < (if q.exported then 4 else 5) →
      exec .initPowerKeySensor s = .next { s with ret := .held }) ∧
    (n < (if q.exported then 1 else 2) ∨
        (n = (if q.exported then 1 else 2) ∧ (s.cfg.initWriteTarget = .argPin ∨ s.cfg.fixedPin = p ∨
          ∃ r, s.Exported s.cfg.fixedPin r ∧ r.dir = .output)) →
      exec (.initOutputPin p) s = .next { s with ret := .held })
end

