-- ==== Sys2Proof/Laws/Memory.lean ====
section
/-! SUPPORT. The laws of the buffer cells: read after write, the canonical form, and what a fill stores. -/

namespace Sys2Proof.Machine

theorem Memory.read_write_same (m : Memory) (a : Nat) (v : Byte) (h : Memory.wf m = true) :
    Memory.read (Memory.write m a v) a = v := by
  have key : ∀ (low : Nat) (m : Memory), Memory.wfFrom low m = true →
      (∀ b, b < low → Memory.read m b = Memory.unlisted) ∧
      Memory.read (Memory.write m a v) a = v := by
    intro low m
    induction m generalizing low with
    | nil =>
      intro _
      refine ⟨fun _ _ => rfl, ?_⟩
      by_cases hv : v = Memory.unlisted <;> simp [Memory.write, Memory.read, hv]
    | cons c rest ih =>
      obtain ⟨k, w⟩ := c
      intro hw
      simp only [Memory.wfFrom, Bool.and_eq_true, decide_eq_true_eq] at hw
      obtain ⟨⟨hlow, hne⟩, hrest⟩ := hw
      obtain ⟨ihr, ihw⟩ := ih (k + 1) hrest
      refine ⟨fun b hb => ?_, ?_⟩
      · simp only [Memory.read]
        rw [if_neg (by omega)]
        exact ihr b (by omega)
      · simp only [Memory.write]
        split
        · rename_i hlt
          split
          · rename_i hv
            simp only [Memory.read]
            rw [if_neg (by omega), ihr a (by omega), hv]
          · simp [Memory.read]
        · split
          · rename_i heq
            split
            · rename_i hv
              rw [ihr a (by omega), hv]
            · simp [Memory.read]
          · rename_i h1 h2
            simp only [Memory.read]
            rw [if_neg (by omega)]
            exact ihw
  exact (key 0 m h).2

theorem Memory.read_write_other (m : Memory) (a b : Nat) (v : Byte) (hab : b ≠ a) :
    Memory.read (Memory.write m a v) b = Memory.read m b := by
  induction m with
  | nil =>
    simp only [Memory.write]
    split
    · rfl
    · simp only [Memory.read]
      rw [if_neg (by omega)]
  | cons c rest ih =>
    obtain ⟨k, w⟩ := c
    simp only [Memory.write]
    split
    · split
      · rfl
      · simp only [Memory.read]
        rw [if_neg (show ¬ a = b by omega)]
    · split
      · rename_i heq
        subst heq
        split <;> simp only [Memory.read, if_neg (Ne.symm hab)]
      · simp only [Memory.read, ih]

theorem Memory.wfFrom_mono {low low' : Nat} {m : Memory} (hle : low' ≤ low)
    (h : Memory.wfFrom low m = true) : Memory.wfFrom low' m = true := by
  cases m with
  | nil => rfl
  | cons c rest =>
    simp only [Memory.wfFrom, Bool.and_eq_true, decide_eq_true_eq] at h ⊢
    exact ⟨⟨by omega, h.1.2⟩, h.2⟩

theorem Memory.wfFrom_write {low : Nat} {m : Memory} (a : Nat) (v : Byte) (ha : low ≤ a)
    (h : Memory.wfFrom low m = true) : Memory.wfFrom low (Memory.write m a v) = true := by
  induction m generalizing low with
  | nil =>
    simp only [Memory.write]
    split
    · rfl
    · rename_i hv
      simp [Memory.wfFrom, ha, hv]
  | cons c rest ih =>
    obtain ⟨k, w⟩ := c
    simp only [Memory.wfFrom, Bool.and_eq_true, decide_eq_true_eq] at h
    obtain ⟨⟨h1, h2⟩, h3⟩ := h
    simp only [Memory.write]
    split
    · split
      · simp only [Memory.wfFrom, Bool.and_eq_true, decide_eq_true_eq]
        exact ⟨⟨h1, h2⟩, h3⟩
      · rename_i hv
        simp only [Memory.wfFrom, Bool.and_eq_true, decide_eq_true_eq]
        exact ⟨⟨ha, hv⟩, ⟨by omega, h2⟩, h3⟩
    · split
      · rename_i heq
        subst heq
        split
        · exact Memory.wfFrom_mono (by omega) h3
        · rename_i hv
          simp only [Memory.wfFrom, Bool.and_eq_true, decide_eq_true_eq]
          exact ⟨⟨ha, hv⟩, h3⟩
      · simp only [Memory.wfFrom, Bool.and_eq_true, decide_eq_true_eq]
        exact ⟨⟨h1, h2⟩, ih (by omega) h3⟩

theorem Memory.wf_write {m : Memory} (a : Nat) (v : Byte) (h : Memory.wf m = true) :
    Memory.wf (Memory.write m a v) = true := Memory.wfFrom_write a v (Nat.zero_le _) h

theorem Memory.wf_fill {m : Memory} (off : Nat) (bs : List Byte) (h : Memory.wf m = true) :
    Memory.wf (Memory.fill m off bs) = true := by
  induction bs generalizing m off with
  | nil => exact h
  | cons b bs ih => exact ih (off + 1) (Memory.wf_write off b h)

/-- A fill leaves every byte outside the filled offsets as it was (40_frame_reader.md R92). -/
theorem Memory.read_fill_outside (m : Memory) (off : Nat) (bs : List Byte) (a : Nat)
    (h : a < off ∨ off + bs.length ≤ a) : Memory.read (Memory.fill m off bs) a = Memory.read m a := by
  induction bs generalizing m off with
  | nil => rfl
  | cons b bs ih =>
    simp only [List.length_cons] at h
    simp only [Memory.fill]
    rw [ih _ _ (by omega), Memory.read_write_other _ _ _ _ (by omega)]

/-- A fill stores the `i`-th byte at offset `off + i` (40_frame_reader.md R92). -/
theorem Memory.read_fill_inside (m : Memory) (off : Nat) (bs : List Byte) (hm : Memory.wf m = true) (i : Nat)
    (h : i < bs.length) : Memory.read (Memory.fill m off bs) (off + i) = bs[i] := by
  induction bs generalizing m off i with
  | nil => simp at h
  | cons b bs ih =>
    simp only [Memory.fill]
    cases i with
    | zero =>
      rw [Memory.read_fill_outside _ _ _ _ (by omega)]
      simpa using Memory.read_write_same m off b hm
    | succ i =>
      have := ih (m := Memory.write m off b) (off := off + 1) (Memory.wf_write off b hm) i (by simpa using h)
      rw [show off + (i + 1) = off + 1 + i by omega, this]
      simp

theorem Memory.cells_write {m : Memory} {a : Nat} {v : Byte} {c : Host.Cell}
    (h : c ∈ Memory.write m a v) : c ∈ m ∨ c = (a, v) := by
  induction m with
  | nil =>
    simp only [Memory.write] at h
    split at h <;> simp_all
  | cons d rest ih =>
    obtain ⟨k, w⟩ := d
    simp only [Memory.write] at h
    repeat' split at h
    all_goals simp only [List.mem_cons] at h ⊢
    all_goals tauto

/-- A fill lists only offsets it filled or that were listed before (20_memory.md R46). -/
theorem Memory.cells_fill {m : Memory} {off : Nat} {bs : List Byte} {c : Host.Cell}
    (h : c ∈ Memory.fill m off bs) : c ∈ m ∨ (off ≤ c.1 ∧ c.1 < off + bs.length) := by
  induction bs generalizing m off with
  | nil => exact Or.inl h
  | cons b bs ih =>
    rcases ih h with h | h
    · rcases Memory.cells_write h with h | h
      · exact Or.inl h
      · subst h
        exact Or.inr ⟨le_refl _, by simp⟩
    · exact Or.inr ⟨by omega, by simp only [List.length_cons]; omega⟩

@[simp] theorem Memory.length_bytesFrom (m : Memory) (off n : Nat) :
    (Memory.bytesFrom m off n).length = n := by
  induction n generalizing off with
  | zero => rfl
  | succ n ih => simp [Memory.bytesFrom, ih]

theorem Memory.getElem_bytesFrom (m : Memory) (off n i : Nat) (h : i < n) :
    (Memory.bytesFrom m off n)[i]'(by simpa using h) = Memory.read m (off + i) := by
  induction n generalizing off i with
  | zero => omega
  | succ n ih =>
    cases i with
    | zero => rfl
    | succ i =>
      simp only [Memory.bytesFrom, List.getElem_cons_succ]
      rw [ih (off + 1) i (by omega)]
      congr 1
      omega

/-- What is buffered after a fill at the cursor: what was buffered, then the bytes (20_memory.md R41). -/
theorem Memory.bytesFrom_fill (m : Memory) (n : Nat) (bs : List Byte) (hm : Memory.wf m = true) :
    Memory.bytesFrom (Memory.fill m n bs) 0 (n + bs.length) = Memory.bytesFrom m 0 n ++ bs := by
  apply List.ext_getElem
  · simp
  · intro i h1 h2
    simp only [Memory.length_bytesFrom] at h1
    rw [Memory.getElem_bytesFrom _ _ _ _ h1, Nat.zero_add]
    by_cases hi : i < n
    · rw [Memory.read_fill_outside _ _ _ _ (Or.inl hi), List.getElem_append_left (by simpa using hi),
        Memory.getElem_bytesFrom _ _ _ _ hi, Nat.zero_add]
    · rw [List.getElem_append_right (by simpa using hi)]
      have := Memory.read_fill_inside m n bs hm (i - n) (by omega)
      rw [show n + (i - n) = i by omega] at this
      rw [this]
      simp

end Sys2Proof.Machine
end

