-- ==== Sys2Proof/Laws/State.lean ====
section
/-! SUPPORT. One lemma per field per update of State, true by unfolding the update once, so that no later proof unfolds a record; then what each accessor reads after each update. -/

namespace Sys2Proof.Machine

@[simp] theorem State.updFdc_cfg (s : State) (d : Nat) (g : Fdc → Fdc) : (s.updFdc d g).cfg = s.cfg := rfl
@[simp] theorem State.updFdc_fdcs (s : State) (d : Nat) (g : Fdc → Fdc) : (s.updFdc d g).fdcs = s.fdcs.modify d g := rfl
@[simp] theorem State.updFdc_pins (s : State) (d : Nat) (g : Fdc → Fdc) : (s.updFdc d g).pins = s.pins := rfl
@[simp] theorem State.updFdc_chans (s : State) (d : Nat) (g : Fdc → Fdc) : (s.updFdc d g).chans = s.chans := rfl
@[simp] theorem State.updFdc_draws (s : State) (d : Nat) (g : Fdc → Fdc) : (s.updFdc d g).draws = s.draws := rfl
@[simp] theorem State.updFdc_frameQ (s : State) (d : Nat) (g : Fdc → Fdc) : (s.updFdc d g).frameQ = s.frameQ := rfl
@[simp] theorem State.updFdc_gedQ (s : State) (d : Nat) (g : Fdc → Fdc) : (s.updFdc d g).gedQ = s.gedQ := rfl
@[simp] theorem State.updFdc_samples (s : State) (d : Nat) (g : Fdc → Fdc) : (s.updFdc d g).samples = s.samples := rfl
@[simp] theorem State.updFdc_turns (s : State) (d : Nat) (g : Fdc → Fdc) : (s.updFdc d g).turns = s.turns := rfl
@[simp] theorem State.updFdc_ret (s : State) (d : Nat) (g : Fdc → Fdc) : (s.updFdc d g).ret = s.ret := rfl
@[simp] theorem State.updFdc_history (s : State) (d : Nat) (g : Fdc → Fdc) : (s.updFdc d g).history = s.history := rfl
@[simp] theorem State.updFdc_epoch (s : State) (d : Nat) (g : Fdc → Fdc) : (s.updFdc d g).epoch = s.epoch := rfl

@[simp] theorem State.updPin_cfg (s : State) (p : Nat) (g : Pin → Pin) : (s.updPin p g).cfg = s.cfg := rfl
@[simp] theorem State.updPin_fdcs (s : State) (p : Nat) (g : Pin → Pin) : (s.updPin p g).fdcs = s.fdcs := rfl
@[simp] theorem State.updPin_pins (s : State) (p : Nat) (g : Pin → Pin) : (s.updPin p g).pins = s.pins.modify p g := rfl
@[simp] theorem State.updPin_chans (s : State) (p : Nat) (g : Pin → Pin) : (s.updPin p g).chans = s.chans := rfl
@[simp] theorem State.updPin_draws (s : State) (p : Nat) (g : Pin → Pin) : (s.updPin p g).draws = s.draws := rfl
@[simp] theorem State.updPin_frameQ (s : State) (p : Nat) (g : Pin → Pin) : (s.updPin p g).frameQ = s.frameQ := rfl
@[simp] theorem State.updPin_gedQ (s : State) (p : Nat) (g : Pin → Pin) : (s.updPin p g).gedQ = s.gedQ := rfl
@[simp] theorem State.updPin_samples (s : State) (p : Nat) (g : Pin → Pin) : (s.updPin p g).samples = s.samples := rfl
@[simp] theorem State.updPin_turns (s : State) (p : Nat) (g : Pin → Pin) : (s.updPin p g).turns = s.turns := rfl
@[simp] theorem State.updPin_ret (s : State) (p : Nat) (g : Pin → Pin) : (s.updPin p g).ret = s.ret := rfl
@[simp] theorem State.updPin_history (s : State) (p : Nat) (g : Pin → Pin) : (s.updPin p g).history = s.history := rfl
@[simp] theorem State.updPin_epoch (s : State) (p : Nat) (g : Pin → Pin) : (s.updPin p g).epoch = s.epoch := rfl

@[simp] theorem State.setChan_cfg (s : State) (c : Nat) (e : ChannelEnv) : (s.setChan c e).cfg = s.cfg := rfl
@[simp] theorem State.setChan_fdcs (s : State) (c : Nat) (e : ChannelEnv) : (s.setChan c e).fdcs = s.fdcs := rfl
@[simp] theorem State.setChan_pins (s : State) (c : Nat) (e : ChannelEnv) : (s.setChan c e).pins = s.pins := rfl
@[simp] theorem State.setChan_chans (s : State) (c : Nat) (e : ChannelEnv) : (s.setChan c e).chans = s.chans.set c e := rfl
@[simp] theorem State.setChan_draws (s : State) (c : Nat) (e : ChannelEnv) : (s.setChan c e).draws = s.draws := rfl
@[simp] theorem State.setChan_frameQ (s : State) (c : Nat) (e : ChannelEnv) : (s.setChan c e).frameQ = s.frameQ := rfl
@[simp] theorem State.setChan_gedQ (s : State) (c : Nat) (e : ChannelEnv) : (s.setChan c e).gedQ = s.gedQ := rfl
@[simp] theorem State.setChan_samples (s : State) (c : Nat) (e : ChannelEnv) : (s.setChan c e).samples = s.samples := rfl
@[simp] theorem State.setChan_turns (s : State) (c : Nat) (e : ChannelEnv) : (s.setChan c e).turns = s.turns := rfl
@[simp] theorem State.setChan_ret (s : State) (c : Nat) (e : ChannelEnv) : (s.setChan c e).ret = s.ret := rfl
@[simp] theorem State.setChan_history (s : State) (c : Nat) (e : ChannelEnv) : (s.setChan c e).history = s.history := rfl
@[simp] theorem State.setChan_epoch (s : State) (c : Nat) (e : ChannelEnv) : (s.setChan c e).epoch = s.epoch := rfl

@[simp] theorem State.log_cfg (s : State) (e : Event) : (s.log e).cfg = s.cfg := rfl
@[simp] theorem State.log_fdcs (s : State) (e : Event) : (s.log e).fdcs = s.fdcs := rfl
@[simp] theorem State.log_pins (s : State) (e : Event) : (s.log e).pins = s.pins := rfl
@[simp] theorem State.log_chans (s : State) (e : Event) : (s.log e).chans = s.chans := rfl
@[simp] theorem State.log_draws (s : State) (e : Event) : (s.log e).draws = s.draws := rfl
@[simp] theorem State.log_frameQ (s : State) (e : Event) : (s.log e).frameQ = s.frameQ := rfl
@[simp] theorem State.log_gedQ (s : State) (e : Event) : (s.log e).gedQ = s.gedQ := rfl
@[simp] theorem State.log_samples (s : State) (e : Event) : (s.log e).samples = s.samples := rfl
@[simp] theorem State.log_turns (s : State) (e : Event) : (s.log e).turns = s.turns := rfl
@[simp] theorem State.log_ret (s : State) (e : Event) : (s.log e).ret = s.ret := rfl
@[simp] theorem State.log_history (s : State) (e : Event) : (s.log e).history = s.history ++ [e] := rfl
@[simp] theorem State.log_epoch (s : State) (e : Event) : (s.log e).epoch = s.epoch := rfl

@[simp] theorem State.withFdc_cfg (s : State) (d : Nat) (f : Fdc) : (s.withFdc d f).cfg = s.cfg := rfl
@[simp] theorem State.withFdc_fdcs (s : State) (d : Nat) (f : Fdc) : (s.withFdc d f).fdcs = s.fdcs.set d f := rfl
@[simp] theorem State.withFdc_pins (s : State) (d : Nat) (f : Fdc) : (s.withFdc d f).pins = s.pins := rfl
@[simp] theorem State.withFdc_chans (s : State) (d : Nat) (f : Fdc) : (s.withFdc d f).chans = s.chans := rfl
@[simp] theorem State.withFdc_draws (s : State) (d : Nat) (f : Fdc) : (s.withFdc d f).draws = s.draws := rfl
@[simp] theorem State.withFdc_frameQ (s : State) (d : Nat) (f : Fdc) : (s.withFdc d f).frameQ = s.frameQ := rfl
@[simp] theorem State.withFdc_gedQ (s : State) (d : Nat) (f : Fdc) : (s.withFdc d f).gedQ = s.gedQ := rfl
@[simp] theorem State.withFdc_samples (s : State) (d : Nat) (f : Fdc) : (s.withFdc d f).samples = s.samples := rfl
@[simp] theorem State.withFdc_turns (s : State) (d : Nat) (f : Fdc) : (s.withFdc d f).turns = s.turns := rfl
@[simp] theorem State.withFdc_ret (s : State) (d : Nat) (f : Fdc) : (s.withFdc d f).ret = s.ret := rfl
@[simp] theorem State.withFdc_history (s : State) (d : Nat) (f : Fdc) : (s.withFdc d f).history = s.history := rfl
@[simp] theorem State.withFdc_epoch (s : State) (d : Nat) (f : Fdc) : (s.withFdc d f).epoch = s.epoch := rfl

@[simp] theorem State.withPin_cfg (s : State) (p : Nat) (q : Pin) : (s.withPin p q).cfg = s.cfg := rfl
@[simp] theorem State.withPin_fdcs (s : State) (p : Nat) (q : Pin) : (s.withPin p q).fdcs = s.fdcs := rfl
@[simp] theorem State.withPin_pins (s : State) (p : Nat) (q : Pin) : (s.withPin p q).pins = s.pins.set p q := rfl
@[simp] theorem State.withPin_chans (s : State) (p : Nat) (q : Pin) : (s.withPin p q).chans = s.chans := rfl
@[simp] theorem State.withPin_draws (s : State) (p : Nat) (q : Pin) : (s.withPin p q).draws = s.draws := rfl
@[simp] theorem State.withPin_frameQ (s : State) (p : Nat) (q : Pin) : (s.withPin p q).frameQ = s.frameQ := rfl
@[simp] theorem State.withPin_gedQ (s : State) (p : Nat) (q : Pin) : (s.withPin p q).gedQ = s.gedQ := rfl
@[simp] theorem State.withPin_samples (s : State) (p : Nat) (q : Pin) : (s.withPin p q).samples = s.samples := rfl
@[simp] theorem State.withPin_turns (s : State) (p : Nat) (q : Pin) : (s.withPin p q).turns = s.turns := rfl
@[simp] theorem State.withPin_ret (s : State) (p : Nat) (q : Pin) : (s.withPin p q).ret = s.ret := rfl
@[simp] theorem State.withPin_history (s : State) (p : Nat) (q : Pin) : (s.withPin p q).history = s.history := rfl
@[simp] theorem State.withPin_epoch (s : State) (p : Nat) (q : Pin) : (s.withPin p q).epoch = s.epoch := rfl

@[simp] theorem State.withReads_cfg (s : State) (c : Nat) (as : List ReadAns) : (s.withReads c as).cfg = s.cfg := rfl
@[simp] theorem State.withReads_fdcs (s : State) (c : Nat) (as : List ReadAns) : (s.withReads c as).fdcs = s.fdcs := rfl
@[simp] theorem State.withReads_pins (s : State) (c : Nat) (as : List ReadAns) : (s.withReads c as).pins = s.pins := rfl
@[simp] theorem State.withReads_chans (s : State) (c : Nat) (as : List ReadAns) : (s.withReads c as).chans = s.chans.set c { s.chan c with reads := as } := rfl
@[simp] theorem State.withReads_draws (s : State) (c : Nat) (as : List ReadAns) : (s.withReads c as).draws = s.draws := rfl
@[simp] theorem State.withReads_frameQ (s : State) (c : Nat) (as : List ReadAns) : (s.withReads c as).frameQ = s.frameQ := rfl
@[simp] theorem State.withReads_gedQ (s : State) (c : Nat) (as : List ReadAns) : (s.withReads c as).gedQ = s.gedQ := rfl
@[simp] theorem State.withReads_samples (s : State) (c : Nat) (as : List ReadAns) : (s.withReads c as).samples = s.samples := rfl
@[simp] theorem State.withReads_turns (s : State) (c : Nat) (as : List ReadAns) : (s.withReads c as).turns = s.turns := rfl
@[simp] theorem State.withReads_ret (s : State) (c : Nat) (as : List ReadAns) : (s.withReads c as).ret = s.ret := rfl
@[simp] theorem State.withReads_history (s : State) (c : Nat) (as : List ReadAns) : (s.withReads c as).history = s.history := rfl
@[simp] theorem State.withReads_epoch (s : State) (c : Nat) (as : List ReadAns) : (s.withReads c as).epoch = s.epoch := rfl

@[simp] theorem State.withWrites_cfg (s : State) (c : Nat) (as : List WriteAns) : (s.withWrites c as).cfg = s.cfg := rfl
@[simp] theorem State.withWrites_fdcs (s : State) (c : Nat) (as : List WriteAns) : (s.withWrites c as).fdcs = s.fdcs := rfl
@[simp] theorem State.withWrites_pins (s : State) (c : Nat) (as : List WriteAns) : (s.withWrites c as).pins = s.pins := rfl
@[simp] theorem State.withWrites_chans (s : State) (c : Nat) (as : List WriteAns) : (s.withWrites c as).chans = s.chans.set c { s.chan c with writes := as } := rfl
@[simp] theorem State.withWrites_draws (s : State) (c : Nat) (as : List WriteAns) : (s.withWrites c as).draws = s.draws := rfl
@[simp] theorem State.withWrites_frameQ (s : State) (c : Nat) (as : List WriteAns) : (s.withWrites c as).frameQ = s.frameQ := rfl
@[simp] theorem State.withWrites_gedQ (s : State) (c : Nat) (as : List WriteAns) : (s.withWrites c as).gedQ = s.gedQ := rfl
@[simp] theorem State.withWrites_samples (s : State) (c : Nat) (as : List WriteAns) : (s.withWrites c as).samples = s.samples := rfl
@[simp] theorem State.withWrites_turns (s : State) (c : Nat) (as : List WriteAns) : (s.withWrites c as).turns = s.turns := rfl
@[simp] theorem State.withWrites_ret (s : State) (c : Nat) (as : List WriteAns) : (s.withWrites c as).ret = s.ret := rfl
@[simp] theorem State.withWrites_history (s : State) (c : Nat) (as : List WriteAns) : (s.withWrites c as).history = s.history := rfl
@[simp] theorem State.withWrites_epoch (s : State) (c : Nat) (as : List WriteAns) : (s.withWrites c as).epoch = s.epoch := rfl

@[simp] theorem State.withDraws_cfg (s : State) (bs : List Bool) : (s.withDraws bs).cfg = s.cfg := rfl
@[simp] theorem State.withDraws_fdcs (s : State) (bs : List Bool) : (s.withDraws bs).fdcs = s.fdcs := rfl
@[simp] theorem State.withDraws_pins (s : State) (bs : List Bool) : (s.withDraws bs).pins = s.pins := rfl
@[simp] theorem State.withDraws_chans (s : State) (bs : List Bool) : (s.withDraws bs).chans = s.chans := rfl
@[simp] theorem State.withDraws_draws (s : State) (bs : List Bool) : (s.withDraws bs).draws = bs := rfl
@[simp] theorem State.withDraws_frameQ (s : State) (bs : List Bool) : (s.withDraws bs).frameQ = s.frameQ := rfl
@[simp] theorem State.withDraws_gedQ (s : State) (bs : List Bool) : (s.withDraws bs).gedQ = s.gedQ := rfl
@[simp] theorem State.withDraws_samples (s : State) (bs : List Bool) : (s.withDraws bs).samples = s.samples := rfl
@[simp] theorem State.withDraws_turns (s : State) (bs : List Bool) : (s.withDraws bs).turns = s.turns := rfl
@[simp] theorem State.withDraws_ret (s : State) (bs : List Bool) : (s.withDraws bs).ret = s.ret := rfl
@[simp] theorem State.withDraws_history (s : State) (bs : List Bool) : (s.withDraws bs).history = s.history := rfl
@[simp] theorem State.withDraws_epoch (s : State) (bs : List Bool) : (s.withDraws bs).epoch = s.epoch := rfl

@[simp] theorem State.returning_cfg (s : State) (es : List Event) (r : Result) : (s.returning es r).cfg = s.cfg := rfl
@[simp] theorem State.returning_fdcs (s : State) (es : List Event) (r : Result) : (s.returning es r).fdcs = s.fdcs := rfl
@[simp] theorem State.returning_pins (s : State) (es : List Event) (r : Result) : (s.returning es r).pins = s.pins := rfl
@[simp] theorem State.returning_chans (s : State) (es : List Event) (r : Result) : (s.returning es r).chans = s.chans := rfl
@[simp] theorem State.returning_draws (s : State) (es : List Event) (r : Result) : (s.returning es r).draws = s.draws := rfl
@[simp] theorem State.returning_frameQ (s : State) (es : List Event) (r : Result) : (s.returning es r).frameQ = s.frameQ := rfl
@[simp] theorem State.returning_gedQ (s : State) (es : List Event) (r : Result) : (s.returning es r).gedQ = s.gedQ := rfl
@[simp] theorem State.returning_samples (s : State) (es : List Event) (r : Result) : (s.returning es r).samples = s.samples := rfl
@[simp] theorem State.returning_turns (s : State) (es : List Event) (r : Result) : (s.returning es r).turns = s.turns := rfl
@[simp] theorem State.returning_ret (s : State) (es : List Event) (r : Result) : (s.returning es r).ret = r := rfl
@[simp] theorem State.returning_history (s : State) (es : List Event) (r : Result) : (s.returning es r).history = s.history ++ es := rfl
@[simp] theorem State.returning_epoch (s : State) (es : List Event) (r : Result) : (s.returning es r).epoch = s.epoch := rfl

/-! ## Accessors after updates -/

theorem State.fdc?_eq_some {s : State} {d : Nat} {f : Fdc} :
    s.fdc? d = some f ↔ d < s.cfg.nDir ∧ s.fdcs[d]? = some f := by
  simp [State.fdc?]

theorem State.pin?_eq_some {s : State} {p : Nat} {q : Pin} :
    s.pin? p = some q ↔ p < s.cfg.nPins ∧ s.pins[p]? = some q := by
  simp [State.pin?]

theorem State.fdcD_of_some {s : State} {d : Nat} {f : Fdc} (h : s.fdc? d = some f) : s.fdcD d = f := by
  simp [State.fdcD, h]

/-- Changing a machine that is `f` is replacing it. -/
theorem State.updFdc_eq_withFdc {s : State} {d : Nat} {f : Fdc} (h : s.fdc? d = some f) (g : Fdc → Fdc) :
    s.updFdc d g = s.withFdc d (g f) := by
  obtain ⟨-, h⟩ := State.fdc?_eq_some.mp h
  obtain ⟨hl, rfl⟩ := List.getElem?_eq_some_iff.mp h
  simp [State.updFdc, State.withFdc, List.modify_eq_set_getElem?, hl]

/-- Changing a pin that is `q` is replacing it. -/
theorem State.updPin_eq_withPin {s : State} {p : Nat} {q : Pin} (h : s.pin? p = some q) (g : Pin → Pin) :
    s.updPin p g = s.withPin p (g q) := by
  obtain ⟨-, h⟩ := State.pin?_eq_some.mp h
  obtain ⟨hl, rfl⟩ := List.getElem?_eq_some_iff.mp h
  simp [State.updPin, State.withPin, List.modify_eq_set_getElem?, hl]

theorem State.fdc?_updFdc (s : State) (d : Nat) (g : Fdc → Fdc) (e : Nat) :
    (s.updFdc d g).fdc? e = if e = d then (s.fdc? e).map g else s.fdc? e := by
  by_cases h : e = d
  · subst h; simp [State.fdc?]; split <;> simp
  · simp [State.fdc?, h, Ne.symm h]

theorem State.pin?_updPin (s : State) (p : Nat) (g : Pin → Pin) (e : Nat) :
    (s.updPin p g).pin? e = if e = p then (s.pin? e).map g else s.pin? e := by
  by_cases h : e = p
  · subst h; simp [State.pin?]; split <;> simp
  · simp [State.pin?, h, Ne.symm h]

/-- Reading a machine that was replaced. -/
theorem State.fdc?_withFdc_same {s : State} {d : Nat} {f : Fdc} (h : s.fdc? d = some f) (f' : Fdc) :
    (s.withFdc d f').fdc? d = some f' := by
  obtain ⟨hd, h⟩ := State.fdc?_eq_some.mp h
  obtain ⟨hl, -⟩ := List.getElem?_eq_some_iff.mp h
  simp [State.fdc?, hd, hl]

/-- Reading another machine (10_state.md R33). -/
theorem State.fdc?_withFdc_other {s : State} {d e : Nat} (h : e ≠ d) (f' : Fdc) :
    (s.withFdc d f').fdc? e = s.fdc? e := by
  simp [State.fdc?, Ne.symm h]

theorem State.pin?_withPin_same {s : State} {p : Nat} {q : Pin} (h : s.pin? p = some q) (q' : Pin) :
    (s.withPin p q').pin? p = some q' := by
  obtain ⟨hd, h⟩ := State.pin?_eq_some.mp h
  obtain ⟨hl, -⟩ := List.getElem?_eq_some_iff.mp h
  simp [State.pin?, hd, hl]

theorem State.pin?_withPin_other {s : State} {p e : Nat} (h : e ≠ p) (q' : Pin) :
    (s.withPin p q').pin? e = s.pin? e := by
  simp [State.pin?, Ne.symm h]

theorem State.fdc?_congr {s t : State} (hc : t.cfg = s.cfg) (hf : t.fdcs = s.fdcs) (d : Nat) :
    t.fdc? d = s.fdc? d := by simp [State.fdc?, hc, hf]

theorem State.pin?_congr {s t : State} (hc : t.cfg = s.cfg) (hf : t.pins = s.pins) (p : Nat) :
    t.pin? p = s.pin? p := by simp [State.pin?, hc, hf]

theorem State.chan_congr {s t : State} (h : t.chans = s.chans) (c : Nat) : t.chan c = s.chan c := by
  simp [State.chan, h]

/-- A channel with an answer left is one of the list. -/
theorem State.chan_lt {s : State} {c : Nat} (h : s.chan c ≠ ⟨[], []⟩) : c < s.chans.length := by
  by_contra hc
  exact h (by simp [State.chan, List.getD_eq_getElem?_getD, List.getElem?_eq_none (Nat.le_of_not_lt hc)])

theorem State.chan_setChan_same {s : State} {c : Nat} (h : s.chan c ≠ ⟨[], []⟩) (e : ChannelEnv) :
    (s.setChan c e).chan c = e := by
  have := State.chan_lt h
  simp [State.chan, List.getD_eq_getElem?_getD, this]

theorem State.chan_setChan_other {s : State} {c c' : Nat} (h : c' ≠ c) (e : ChannelEnv) :
    (s.setChan c e).chan c' = s.chan c' := by
  simp [State.chan, List.getD_eq_getElem?_getD, Ne.symm h]

@[simp] theorem State.updFdc_pin_eq (s : State) (d : Nat) (g : Fdc → Fdc) (p' : Nat) : (s.updFdc d g).pin? p' = s.pin? p' := rfl
@[simp] theorem State.updFdc_chan_eq (s : State) (d : Nat) (g : Fdc → Fdc) (c' : Nat) : (s.updFdc d g).chan c' = s.chan c' := rfl
@[simp] theorem State.updFdc_inCh_eq (s : State) (d : Nat) (g : Fdc → Fdc) (d' : Nat) : (s.updFdc d g).inCh d' = s.inCh d' := rfl
@[simp] theorem State.updFdc_outCh_eq (s : State) (d : Nat) (g : Fdc → Fdc) (d' : Nat) : (s.updFdc d g).outCh d' = s.outCh d' := rfl

@[simp] theorem State.updPin_fdc_eq (s : State) (p : Nat) (g : Pin → Pin) (d' : Nat) : (s.updPin p g).fdc? d' = s.fdc? d' := rfl
@[simp] theorem State.updPin_chan_eq (s : State) (p : Nat) (g : Pin → Pin) (c' : Nat) : (s.updPin p g).chan c' = s.chan c' := rfl
@[simp] theorem State.updPin_fdcD_eq (s : State) (p : Nat) (g : Pin → Pin) (d' : Nat) : (s.updPin p g).fdcD d' = s.fdcD d' := rfl
@[simp] theorem State.updPin_frame_eq (s : State) (p : Nat) (g : Pin → Pin) (d' : Nat) : (s.updPin p g).frame d' = s.frame d' := rfl
@[simp] theorem State.updPin_inCh_eq (s : State) (p : Nat) (g : Pin → Pin) (d' : Nat) : (s.updPin p g).inCh d' = s.inCh d' := rfl
@[simp] theorem State.updPin_outCh_eq (s : State) (p : Nat) (g : Pin → Pin) (d' : Nat) : (s.updPin p g).outCh d' = s.outCh d' := rfl

@[simp] theorem State.setChan_fdc_eq (s : State) (c : Nat) (e : ChannelEnv) (d' : Nat) : (s.setChan c e).fdc? d' = s.fdc? d' := rfl
@[simp] theorem State.setChan_pin_eq (s : State) (c : Nat) (e : ChannelEnv) (p' : Nat) : (s.setChan c e).pin? p' = s.pin? p' := rfl
@[simp] theorem State.setChan_fdcD_eq (s : State) (c : Nat) (e : ChannelEnv) (d' : Nat) : (s.setChan c e).fdcD d' = s.fdcD d' := rfl
@[simp] theorem State.setChan_frame_eq (s : State) (c : Nat) (e : ChannelEnv) (d' : Nat) : (s.setChan c e).frame d' = s.frame d' := rfl
@[simp] theorem State.setChan_inCh_eq (s : State) (c : Nat) (e : ChannelEnv) (d' : Nat) : (s.setChan c e).inCh d' = s.inCh d' := rfl
@[simp] theorem State.setChan_outCh_eq (s : State) (c : Nat) (e : ChannelEnv) (d' : Nat) : (s.setChan c e).outCh d' = s.outCh d' := rfl

@[simp] theorem State.log_fdc_eq (s : State) (e : Event) (d' : Nat) : (s.log e).fdc? d' = s.fdc? d' := rfl
@[simp] theorem State.log_pin_eq (s : State) (e : Event) (p' : Nat) : (s.log e).pin? p' = s.pin? p' := rfl
@[simp] theorem State.log_chan_eq (s : State) (e : Event) (c' : Nat) : (s.log e).chan c' = s.chan c' := rfl
@[simp] theorem State.log_fdcD_eq (s : State) (e : Event) (d' : Nat) : (s.log e).fdcD d' = s.fdcD d' := rfl
@[simp] theorem State.log_frame_eq (s : State) (e : Event) (d' : Nat) : (s.log e).frame d' = s.frame d' := rfl
@[simp] theorem State.log_inCh_eq (s : State) (e : Event) (d' : Nat) : (s.log e).inCh d' = s.inCh d' := rfl
@[simp] theorem State.log_outCh_eq (s : State) (e : Event) (d' : Nat) : (s.log e).outCh d' = s.outCh d' := rfl

@[simp] theorem State.withFdc_pin_eq (s : State) (d : Nat) (f : Fdc) (p' : Nat) : (s.withFdc d f).pin? p' = s.pin? p' := rfl
@[simp] theorem State.withFdc_chan_eq (s : State) (d : Nat) (f : Fdc) (c' : Nat) : (s.withFdc d f).chan c' = s.chan c' := rfl
@[simp] theorem State.withFdc_inCh_eq (s : State) (d : Nat) (f : Fdc) (d' : Nat) : (s.withFdc d f).inCh d' = s.inCh d' := rfl
@[simp] theorem State.withFdc_outCh_eq (s : State) (d : Nat) (f : Fdc) (d' : Nat) : (s.withFdc d f).outCh d' = s.outCh d' := rfl

@[simp] theorem State.withPin_fdc_eq (s : State) (p : Nat) (q : Pin) (d' : Nat) : (s.withPin p q).fdc? d' = s.fdc? d' := rfl
@[simp] theorem State.withPin_chan_eq (s : State) (p : Nat) (q : Pin) (c' : Nat) : (s.withPin p q).chan c' = s.chan c' := rfl
@[simp] theorem State.withPin_fdcD_eq (s : State) (p : Nat) (q : Pin) (d' : Nat) : (s.withPin p q).fdcD d' = s.fdcD d' := rfl
@[simp] theorem State.withPin_frame_eq (s : State) (p : Nat) (q : Pin) (d' : Nat) : (s.withPin p q).frame d' = s.frame d' := rfl
@[simp] theorem State.withPin_inCh_eq (s : State) (p : Nat) (q : Pin) (d' : Nat) : (s.withPin p q).inCh d' = s.inCh d' := rfl
@[simp] theorem State.withPin_outCh_eq (s : State) (p : Nat) (q : Pin) (d' : Nat) : (s.withPin p q).outCh d' = s.outCh d' := rfl

@[simp] theorem State.withReads_fdc_eq (s : State) (c : Nat) (as : List ReadAns) (d' : Nat) : (s.withReads c as).fdc? d' = s.fdc? d' := rfl
@[simp] theorem State.withReads_pin_eq (s : State) (c : Nat) (as : List ReadAns) (p' : Nat) : (s.withReads c as).pin? p' = s.pin? p' := rfl
@[simp] theorem State.withReads_fdcD_eq (s : State) (c : Nat) (as : List ReadAns) (d' : Nat) : (s.withReads c as).fdcD d' = s.fdcD d' := rfl
@[simp] theorem State.withReads_frame_eq (s : State) (c : Nat) (as : List ReadAns) (d' : Nat) : (s.withReads c as).frame d' = s.frame d' := rfl
@[simp] theorem State.withReads_inCh_eq (s : State) (c : Nat) (as : List ReadAns) (d' : Nat) : (s.withReads c as).inCh d' = s.inCh d' := rfl
@[simp] theorem State.withReads_outCh_eq (s : State) (c : Nat) (as : List ReadAns) (d' : Nat) : (s.withReads c as).outCh d' = s.outCh d' := rfl

@[simp] theorem State.withWrites_fdc_eq (s : State) (c : Nat) (as : List WriteAns) (d' : Nat) : (s.withWrites c as).fdc? d' = s.fdc? d' := rfl
@[simp] theorem State.withWrites_pin_eq (s : State) (c : Nat) (as : List WriteAns) (p' : Nat) : (s.withWrites c as).pin? p' = s.pin? p' := rfl
@[simp] theorem State.withWrites_fdcD_eq (s : State) (c : Nat) (as : List WriteAns) (d' : Nat) : (s.withWrites c as).fdcD d' = s.fdcD d' := rfl
@[simp] theorem State.withWrites_frame_eq (s : State) (c : Nat) (as : List WriteAns) (d' : Nat) : (s.withWrites c as).frame d' = s.frame d' := rfl
@[simp] theorem State.withWrites_inCh_eq (s : State) (c : Nat) (as : List WriteAns) (d' : Nat) : (s.withWrites c as).inCh d' = s.inCh d' := rfl
@[simp] theorem State.withWrites_outCh_eq (s : State) (c : Nat) (as : List WriteAns) (d' : Nat) : (s.withWrites c as).outCh d' = s.outCh d' := rfl

@[simp] theorem State.withDraws_fdc_eq (s : State) (bs : List Bool) (d' : Nat) : (s.withDraws bs).fdc? d' = s.fdc? d' := rfl
@[simp] theorem State.withDraws_pin_eq (s : State) (bs : List Bool) (p' : Nat) : (s.withDraws bs).pin? p' = s.pin? p' := rfl
@[simp] theorem State.withDraws_chan_eq (s : State) (bs : List Bool) (c' : Nat) : (s.withDraws bs).chan c' = s.chan c' := rfl
@[simp] theorem State.withDraws_fdcD_eq (s : State) (bs : List Bool) (d' : Nat) : (s.withDraws bs).fdcD d' = s.fdcD d' := rfl
@[simp] theorem State.withDraws_frame_eq (s : State) (bs : List Bool) (d' : Nat) : (s.withDraws bs).frame d' = s.frame d' := rfl
@[simp] theorem State.withDraws_inCh_eq (s : State) (bs : List Bool) (d' : Nat) : (s.withDraws bs).inCh d' = s.inCh d' := rfl
@[simp] theorem State.withDraws_outCh_eq (s : State) (bs : List Bool) (d' : Nat) : (s.withDraws bs).outCh d' = s.outCh d' := rfl

@[simp] theorem State.returning_fdc_eq (s : State) (es : List Event) (r : Result) (d' : Nat) : (s.returning es r).fdc? d' = s.fdc? d' := rfl
@[simp] theorem State.returning_pin_eq (s : State) (es : List Event) (r : Result) (p' : Nat) : (s.returning es r).pin? p' = s.pin? p' := rfl
@[simp] theorem State.returning_chan_eq (s : State) (es : List Event) (r : Result) (c' : Nat) : (s.returning es r).chan c' = s.chan c' := rfl
@[simp] theorem State.returning_fdcD_eq (s : State) (es : List Event) (r : Result) (d' : Nat) : (s.returning es r).fdcD d' = s.fdcD d' := rfl
@[simp] theorem State.returning_frame_eq (s : State) (es : List Event) (r : Result) (d' : Nat) : (s.returning es r).frame d' = s.frame d' := rfl
@[simp] theorem State.returning_inCh_eq (s : State) (es : List Event) (r : Result) (d' : Nat) : (s.returning es r).inCh d' = s.inCh d' := rfl
@[simp] theorem State.returning_outCh_eq (s : State) (es : List Event) (r : Result) (d' : Nat) : (s.returning es r).outCh d' = s.outCh d' := rfl

end Sys2Proof.Machine
end

