-- ==== Sys2Proof/Laws/Ops.lean ====
section
/-! SUPPORT. What each shared operation can do, said once: requests to the environment, the end of an operation, the actions of the dispatcher, the GPIO primitive, and the agents' queues. -/

namespace Sys2Proof.Machine

/-! ## Sequencing and the end of an operation -/

@[simp] theorem Attempt.done_andThen {α β : Type} (s : State) (a : α) (k : State → α → Attempt β) :
    (Attempt.done s a).andThen k = k s a := rfl

@[simp] theorem Attempt.held_andThen {α β : Type} (k : State → α → Attempt β) :
    (Attempt.held : Attempt α).andThen k = .held := rfl

@[simp] theorem Attempt.refused_andThen {α β : Type} (r : Refusal) (k : State → α → Attempt β) :
    (Attempt.refused r : Attempt α).andThen k = .refused r := rfl

theorem Attempt.andThen_eq_done {α β : Type} {x : Attempt α} {k : State → α → Attempt β} {t : State} {b : β} :
    x.andThen k = .done t b ↔ ∃ s a, x = .done s a ∧ k s a = .done t b := by
  cases x <;> simp [Attempt.andThen]

theorem Attempt.andThen_eq_refused {α β : Type} {x : Attempt α} {k : State → α → Attempt β} {r : Refusal} :
    x.andThen k = .refused r ↔ x = .refused r ∨ ∃ s a, x = .done s a ∧ k s a = .refused r := by
  cases x <;> simp [Attempt.andThen]

@[simp] theorem State.finish_done (s t : State) (r : Result) :
    s.finish (.done t r) = .next { t with ret := r } := rfl

@[simp] theorem State.finish_held (s : State) : s.finish .held = .next { s with ret := .held } := rfl

@[simp] theorem State.finish_refused (s : State) (r : Refusal) : s.finish (.refused r) = .refused r := rfl

@[simp] theorem State.finish_refuse (s : State) : s.finish s.refuse = .next { s with ret := .refused } := rfl

/-- An operation that answers a next state either ran to its end or is held with nothing changed. -/
theorem State.finish_eq_next {s t : State} {x : Attempt Result} :
    s.finish x = .next t ↔
      (∃ u r, x = .done u r ∧ t = { u with ret := r }) ∨ (x = .held ∧ t = { s with ret := .held }) := by
  cases x <;> simp [State.finish, eq_comm]

theorem State.finish_eq_refused {s : State} {x : Attempt Result} {r : Refusal} :
    s.finish x = .refused r ↔ x = .refused r := by
  cases x <;> simp [State.finish]

theorem State.finish_ne_fault (s : State) (x : Attempt Result) (f : Fault) : s.finish x ≠ .fault f := by
  cases x <;> simp [State.finish]

/-! ## Operand forms -/

theorem State.onFdc_of_some {s : State} {d : Nat} {f : Fdc} (h : s.fdc? d = some f)
    (k : Fdc → Attempt Result) : s.onFdc d k = k f := by simp [State.onFdc, h]

theorem State.onAlive_of_alive {s : State} {d : Nat} {f : Fdc} (h : s.Alive d f)
    (k : Fdc → Attempt Result) : s.onAlive d k = k f := by
  simp [State.onAlive, State.onFdc_of_some h.1, h.2]

theorem State.onReady_of_ready {s : State} {d : Nat} {f : Fdc} (h : s.Ready d f)
    (k : Fdc → Attempt Result) : s.onReady d k = k f := by
  simp [State.onReady, State.onAlive_of_alive h.1, h.2]

/-- An operation on a machine is refused, or the machine exists. -/
theorem State.onFdc_cases (s : State) (d : Nat) (k : Fdc → Attempt Result) :
    (s.fdc? d = none ∧ s.onFdc d k = s.refuse) ∨ ∃ f, s.fdc? d = some f ∧ s.onFdc d k = k f := by
  cases h : s.fdc? d <;> simp [State.onFdc, h]

theorem State.onAlive_cases (s : State) (d : Nat) (k : Fdc → Attempt Result) :
    ((∀ f, ¬ s.Alive d f) ∧ s.onAlive d k = s.refuse) ∨ ∃ f, s.Alive d f ∧ s.onAlive d k = k f := by
  cases h : s.fdc? d with
  | none => left; simp [State.Alive, State.onAlive, State.onFdc, h]
  | some f =>
    cases ha : f.alive with
    | false => left; simp [State.Alive, State.onAlive, State.onFdc, h, ha]
    | true => right; exact ⟨f, ⟨h, ha⟩, State.onAlive_of_alive ⟨h, ha⟩ k⟩

theorem State.onReady_cases (s : State) (d : Nat) (k : Fdc → Attempt Result) :
    ((∀ f, ¬ s.Ready d f) ∧ s.onReady d k = s.refuse) ∨ ∃ f, s.Ready d f ∧ s.onReady d k = k f := by
  rcases s.onAlive_cases d (fun f => if f.faultFull then s.refuse else k f) with ⟨h, e⟩ | ⟨f, h, e⟩
  · exact Or.inl ⟨fun f hf => h f hf.1, e⟩
  · cases hf : f.faultFull with
    | true =>
      refine Or.inl ⟨fun g hg => ?_, by simpa [State.onReady, hf] using e⟩
      have : f = g := Option.some.inj (h.1.symm.trans hg.1.1)
      subst this
      exact absurd hg.2 (by simp [hf])
    | false => exact Or.inr ⟨f, ⟨h, hf⟩, by simpa [State.onReady, hf] using e⟩

/-! ## Requests -/

theorem State.chRead_of_reads {s : State} {d max : Nat} {a : ReadAns} {rest : List ReadAns}
    (h : (s.chan (s.inCh d)).reads = a :: rest) (hf : a.fits s.cfg max = true) :
    s.chRead d max = .done ((s.withReads (s.inCh d) rest).log (.chRead d (s.inCh d) max a)) a := by
  simp [State.chRead, h, hf, State.setChan, State.withReads]

/-- What a read request can do: it takes the answer next in line, if that is one of the interface. -/
theorem State.chRead_eq_done {s t : State} {d max : Nat} {a : ReadAns} (h : s.chRead d max = .done t a) :
    ∃ rest, (s.chan (s.inCh d)).reads = a :: rest ∧ a.fits s.cfg max = true ∧
      t = (s.withReads (s.inCh d) rest).log (.chRead d (s.inCh d) max a) := by
  unfold State.chRead at h
  split at h
  · cases h
  · rename_i b rest hr
    split at h
    · rename_i hf
      cases h
      exact ⟨rest, hr, hf, rfl⟩
    · cases h

theorem State.chRead_held {s : State} {d max : Nat} (h : (s.chan (s.inCh d)).reads = []) :
    s.chRead d max = .held := by simp [State.chRead, h]

theorem State.chRead_refused {s : State} {d max : Nat} {r : Refusal} (h : s.chRead d max = .refused r) :
    r = .notAnAnswer := by
  unfold State.chRead at h
  split at h
  · cases h
  · split at h
    · cases h
    · exact (Attempt.refused.inj h).symm

theorem State.chWrite_of_writes {s : State} {d ch : Nat} {bs : List Byte} {a : WriteAns} {rest : List WriteAns}
    (h : (s.chan ch).writes = a :: rest) (hf : a.fits s.cfg = true) :
    s.chWrite d ch bs = .done ((s.withWrites ch rest).log (.chWrite d ch bs a)) a := by
  simp [State.chWrite, h, hf, State.setChan, State.withWrites]

/-- What a write request can do. -/
theorem State.chWrite_eq_done {s t : State} {d ch : Nat} {bs : List Byte} {a : WriteAns}
    (h : s.chWrite d ch bs = .done t a) :
    ∃ rest, (s.chan ch).writes = a :: rest ∧ a.fits s.cfg = true ∧
      t = (s.withWrites ch rest).log (.chWrite d ch bs a) := by
  unfold State.chWrite at h
  split at h
  · cases h
  · rename_i b rest hr
    split at h
    · rename_i hf
      cases h
      exact ⟨rest, hr, hf, rfl⟩
    · cases h

theorem State.chWrite_held {s : State} {ch : Nat} (h : (s.chan ch).writes = []) (d : Nat) (bs : List Byte) :
    s.chWrite d ch bs = .held := by simp [State.chWrite, h]

theorem State.countedWrite_held {s : State} {ch : Nat} (h : (s.chan ch).writes = []) (d : Nat) (bs : List Byte) :
    s.countedWrite d ch bs = .held := by rw [State.countedWrite, State.chWrite_held h]; rfl

theorem State.chWrite_refused {s : State} {d ch : Nat} {bs : List Byte} {r : Refusal}
    (h : s.chWrite d ch bs = .refused r) : r = .notAnAnswer := by
  unfold State.chWrite at h
  split at h
  · cases h
  · split at h
    · cases h
    · exact (Attempt.refused.inj h).symm

theorem State.gpioEnv_of_draws {s : State} {b : Bool} {rest : List Bool} (h : s.draws = b :: rest) :
    s.gpioEnv = .done ((s.withDraws rest).log (.gpioEnv b)) b := by
  simp [State.gpioEnv, h, State.withDraws]

/-- What a draw can do. -/
theorem State.gpioEnv_eq_done {s t : State} {b : Bool} (h : s.gpioEnv = .done t b) :
    ∃ rest, s.draws = b :: rest ∧ t = (s.withDraws rest).log (.gpioEnv b) := by
  unfold State.gpioEnv at h
  split at h
  · cases h
  · rename_i c rest hd
    cases h
    exact ⟨rest, hd, rfl⟩

theorem State.gpioEnv_ne_refused (s : State) (r : Refusal) : s.gpioEnv ≠ .refused r := by
  unfold State.gpioEnv
  split <;> simp

/-- The answers of a channel after its write answers were replaced. -/
theorem State.chan_withWrites_same {s : State} {c : Nat} {a : WriteAns} {rest : List WriteAns}
    (h : (s.chan c).writes = a :: rest) (ws : List WriteAns) :
    (s.withWrites c ws).chan c = { s.chan c with writes := ws } := by
  refine State.chan_setChan_same (s := s) ?_ { s.chan c with writes := ws }
  intro hc
  rw [hc] at h
  cases h

/-- The answers of a channel after its read answers were replaced. -/
theorem State.chan_withReads_same {s : State} {c : Nat} {a : ReadAns} {rest : List ReadAns}
    (h : (s.chan c).reads = a :: rest) (as : List ReadAns) :
    (s.withReads c as).chan c = { s.chan c with reads := as } := by
  refine State.chan_setChan_same (s := s) ?_ { s.chan c with reads := as }
  intro hc
  rw [hc] at h
  cases h

/-- Taking read answers leaves every channel's write answers. -/
theorem State.writes_withReads (s : State) (c : Nat) (as : List ReadAns) (c' : Nat) :
    ((s.withReads c as).chan c').writes = (s.chan c').writes := by
  by_cases h : c' = c
  · subst h
    by_cases hc : c' < s.chans.length
    · simp [State.chan, List.getD_eq_getElem?_getD, hc]
    · simp [State.chan, List.getD_eq_getElem?_getD, hc]
  · rw [show (s.withReads c as).chan c' = s.chan c' from State.chan_setChan_other h _]

/-! ## The dispatcher's actions on a machine that is `f` -/

theorem State.addWriteErrors_eq {s : State} {d n : Nat} {f : Fdc} (h : s.fdc? d = some f) :
    s.addWriteErrors d n = s.withFdc d { f with writeErrors := (f.writeErrors + n) % 2 ^ s.cfg.cntW } :=
  State.updFdc_eq_withFdc h _

theorem State.doneValid_eq {s : State} {d : Nat} {f : Fdc} (h : s.fdc? d = some f) :
    s.doneValid d = s.withFdc d { f with cursor := 0, valid := (f.valid + 1) % 2 ^ s.cfg.cntW } :=
  State.updFdc_eq_withFdc h _

theorem State.doneInvalid_eq {s : State} {d : Nat} {f : Fdc} (h : s.fdc? d = some f) :
    s.doneInvalid d = s.withFdc d { f with cursor := 0, invalid := (f.invalid + 1) % 2 ^ s.cfg.cntW } :=
  State.updFdc_eq_withFdc h _

@[simp] theorem State.withFdc_withFdc (s : State) (d : Nat) (f g : Fdc) :
    (s.withFdc d f).withFdc d g = s.withFdc d g := by simp [State.withFdc]

@[simp] theorem State.withPin_withPin (s : State) (p : Nat) (q r : Pin) :
    (s.withPin p q).withPin p r = s.withPin p r := by simp [State.withPin]

theorem State.frame_eq {s : State} {d : Nat} {f : Fdc} (h : s.fdc? d = some f) : s.frame d = f.content := by
  simp [State.frame, Fdc.content, State.fdcD_of_some h]

/-- A counted write that is answered (41_packet_dispatcher.md R112). -/
theorem State.countedWrite_of_writes {s : State} {d ch : Nat} {bs : List Byte} {a : WriteAns}
    {rest : List WriteAns} {f : Fdc} (hf : s.fdc? d = some f) (h : (s.chan ch).writes = a :: rest)
    (ha : a.fits s.cfg = true) :
    s.countedWrite d ch bs = .done (((s.withWrites ch rest).log (.chWrite d ch bs a)).withFdc d
      { f with writeErrors := (f.writeErrors + writeFails a bs.length) % 2 ^ s.cfg.cntW }) () := by
  simp only [State.countedWrite, State.chWrite_of_writes h ha, Attempt.done_andThen]
  rw [State.addWriteErrors_eq (s := (s.withWrites ch rest).log (.chWrite d ch bs a)) (f := f) hf]
  rfl

/-- What a counted write can do. -/
theorem State.countedWrite_eq_done {s t : State} {d ch : Nat} {bs : List Byte}
    (h : s.countedWrite d ch bs = .done t ()) :
    ∃ a rest, (s.chan ch).writes = a :: rest ∧ a.fits s.cfg = true ∧
      t = ((s.withWrites ch rest).log (.chWrite d ch bs a)).addWriteErrors d (writeFails a bs.length) := by
  obtain ⟨u, a, h1, h2⟩ := Attempt.andThen_eq_done.mp h
  obtain ⟨rest, hw, hf, rfl⟩ := State.chWrite_eq_done h1
  cases h2
  exact ⟨a, rest, hw, hf, rfl⟩

/-- The handshake when both writes are answered (R122). -/
theorem State.handshake_of_writes {s : State} {d : Nat} {a1 a2 : WriteAns} {ws : List WriteAns} {f : Fdc}
    (hf : s.fdc? d = some f) (h : (s.chan (s.inCh d)).writes = a1 :: a2 :: ws)
    (h1 : a1.fits s.cfg = true) (h2 : a2.fits s.cfg = true) :
    s.handshake d = .done (((s.withWrites (s.inCh d) ws).withFdc d
      { f with writeErrors :=
          ((f.writeErrors + writeFails a1 3) % 2 ^ s.cfg.cntW + writeFails a2 3) % 2 ^ s.cfg.cntW }).returning
      [.chWrite d (s.inCh d) ack1Frame a1, .chWrite d (s.inCh d) ack2Frame a2] s.ret) () := by
  simp only [State.handshake, State.countedWrite_of_writes hf h h1, Attempt.done_andThen]
  have hc := congrArg ChannelEnv.writes (State.chan_withWrites_same h (a2 :: ws))
  simp only [State.withFdc_inCh_eq, State.log_inCh_eq, State.withWrites_inCh_eq]
  rw [State.countedWrite_of_writes (a := a2) (rest := ws)
    (State.fdc?_withFdc_same (s := (s.withWrites (s.inCh d) (a2 :: ws)).log _) hf _) hc h2]
  have hlen := State.chan_lt (s := s) (c := s.inCh d) (by intro hc; rw [hc] at h; cases h)
  simp [State.withFdc, State.withWrites, State.log, State.returning, State.inCh, State.chan, ack1Frame, ack2Frame,
    List.getD_eq_getElem?_getD] at hlen ⊢
  simp [hlen]

/-! ## GPIO primitives -/

theorem State.primitive_absent {s : State} {p : Nat} (h : s.pin? p = none) (cond : Pin → Bool) (g : Pin → Pin) :
    s.primitive p cond g = .done s false := by simp [State.primitive, h]

theorem State.primitive_unmet {s : State} {p : Nat} {q : Pin} {cond : Pin → Bool} (h : s.pin? p = some q)
    (hc : cond q = false) (g : Pin → Pin) : s.primitive p cond g = .done s false := by
  simp [State.primitive, h, hc]

theorem State.primitive_ok {s : State} {p : Nat} {q : Pin} {rest : List Bool} {cond : Pin → Bool}
    (h : s.pin? p = some q) (hc : cond q = true) (hd : s.draws = true :: rest) (g : Pin → Pin) :
    s.primitive p cond g = .done (((s.withDraws rest).log (.gpioEnv true)).withPin p (g q)) true := by
  simp only [State.primitive, h, hc, State.gpioEnv_of_draws hd, Attempt.done_andThen, if_true]
  rw [State.updPin_eq_withPin (s := (s.withDraws rest).log (.gpioEnv true)) (q := q) h]

theorem State.primitive_fail {s : State} {p : Nat} {q : Pin} {rest : List Bool} {cond : Pin → Bool}
    (h : s.pin? p = some q) (hc : cond q = true) (hd : s.draws = false :: rest) (g : Pin → Pin) :
    s.primitive p cond g = .done ((s.withDraws rest).log (.gpioEnv false)) false := by
  simp [State.primitive, h, hc, State.gpioEnv_of_draws hd]

theorem State.primitive_held {s : State} {p : Nat} {q : Pin} {cond : Pin → Bool} (h : s.pin? p = some q)
    (hc : cond q = true) (hd : s.draws = []) (g : Pin → Pin) : s.primitive p cond g = .held := by
  simp [State.primitive, h, hc, State.gpioEnv, hd]

/-- What a primitive can do (42_gpio.md R141): fail with nothing changed but a draw, or draw 1 and change its pin. -/
theorem State.primitive_eq_done {s t : State} {p : Nat} {cond : Pin → Bool} {g : Pin → Pin} {ok : Bool}
    (h : s.primitive p cond g = .done t ok) :
    (ok = false ∧ t = s) ∨
    (∃ q rest, s.pin? p = some q ∧ cond q = true ∧ s.draws = ok :: rest ∧
      t = (if ok then ((s.withDraws rest).log (.gpioEnv ok)).withPin p (g q)
        else (s.withDraws rest).log (.gpioEnv ok))) := by
  unfold State.primitive at h
  split at h
  · cases h; exact Or.inl ⟨rfl, rfl⟩
  · rename_i q hq
    split at h
    · rename_i hc
      obtain ⟨u, b, h1, h2⟩ := Attempt.andThen_eq_done.mp h
      obtain ⟨rest, hd, rfl⟩ := State.gpioEnv_eq_done h1
      cases h2
      refine Or.inr ⟨q, rest, hq, hc, hd, ?_⟩
      cases ok
      · rfl
      · simp only [if_true]
        rw [State.updPin_eq_withPin (s := (s.withDraws rest).log (.gpioEnv true)) (q := q) hq]
    · cases h; exact Or.inl ⟨rfl, rfl⟩

theorem State.primitive_ne_refused (s : State) (p : Nat) (cond : Pin → Bool) (g : Pin → Pin) (r : Refusal) :
    s.primitive p cond g ≠ .refused r := by
  unfold State.primitive
  split
  · simp
  · split
    · intro h
      rcases Attempt.andThen_eq_refused.mp h with h | ⟨u, b, -, h⟩
      · exact State.gpioEnv_ne_refused _ _ h
      · cases h
    · simp

/-! ## Agents and their queues -/

@[simp] theorem State.drop_fdcs (s : State) (who : Agent) : (s.drop who).fdcs = s.fdcs := by cases who <;> rfl
@[simp] theorem State.drop_pins (s : State) (who : Agent) : (s.drop who).pins = s.pins := by cases who <;> rfl
@[simp] theorem State.drop_cfg (s : State) (who : Agent) : (s.drop who).cfg = s.cfg := by cases who <;> rfl
@[simp] theorem State.drop_chans (s : State) (who : Agent) : (s.drop who).chans = s.chans := by cases who <;> rfl
@[simp] theorem State.drop_draws (s : State) (who : Agent) : (s.drop who).draws = s.draws := by cases who <;> rfl
@[simp] theorem State.drop_turns (s : State) (who : Agent) : (s.drop who).turns = s.turns := by cases who <;> rfl
@[simp] theorem State.drop_ret (s : State) (who : Agent) : (s.drop who).ret = s.ret := by cases who <;> rfl
@[simp] theorem State.drop_history (s : State) (who : Agent) : (s.drop who).history = s.history := by
  cases who <;> rfl
@[simp] theorem State.drop_epoch (s : State) (who : Agent) : (s.drop who).epoch = s.epoch := by cases who <;> rfl

end Sys2Proof.Machine
end

