-- ==== Sys2Proof/Laws/Frames.lean ====
section
/-! SUPPORT. What the frame path can do, said once: each action when its requests are answered, that an action which ran to its end had its requests answered, and what the read phase leaves. -/

namespace Sys2Proof.Machine

/-- Replacing a machine by itself changes nothing. -/
theorem State.withFdc_self {s : State} {d : Nat} {f : Fdc} (h : s.fdc? d = some f) : s.withFdc d f = s := by
  obtain ⟨-, h⟩ := State.fdc?_eq_some.mp h
  obtain ⟨hl, rfl⟩ := List.getElem?_eq_some_iff.mp h
  simp [State.withFdc]

/-- Replacing a pin by itself changes nothing. -/
theorem State.withPin_self {s : State} {p : Nat} {q : Pin} (h : s.pin? p = some q) : s.withPin p q = s := by
  obtain ⟨-, h⟩ := State.pin?_eq_some.mp h
  obtain ⟨hl, rfl⟩ := List.getElem?_eq_some_iff.mp h
  simp [State.withPin]

@[simp] theorem Fdc.length_content (f : Fdc) : f.content.length = f.cursor := by simp [Fdc.content]

theorem State.doneValid_returning (s : State) (es : List Event) (r : Result) (d : Nat) :
    (s.returning es r).doneValid d = (s.doneValid d).returning es r := rfl

/-! ## Actions whose requests are answered -/

theorem State.ack2Only_of_writes {s : State} {d : Nat} {f : Fdc} {a : WriteAns} {ws : List WriteAns}
    (hf : s.fdc? d = some f) (hw : (s.chan (s.inCh d)).writes = a :: ws) (ha : a.fits s.cfg = true) :
    s.ack2Only d = .done (((s.withWrites (s.inCh d) ws).withFdc d
      { f with writeErrors := if s.cfg.init2CountsWerr then (f.writeErrors + writeFails a 3) % 2 ^ s.cfg.cntW
          else f.writeErrors }).returning [.chWrite d (s.inCh d) ack2Frame a] s.ret) () := by
  simp only [State.ack2Only, State.chWrite_of_writes hw ha, Attempt.done_andThen]
  show Attempt.done (if s.cfg.init2CountsWerr then _ else _) () = _
  by_cases hb : s.cfg.init2CountsWerr = true
  · rw [if_pos hb, if_pos hb]
    rw [State.addWriteErrors_eq (s := (s.withWrites (s.inCh d) ws).log _) hf]
    rfl
  · rw [if_neg hb, if_neg hb, State.withFdc_self (s := s.withWrites (s.inCh d) ws) hf]
    rfl

theorem State.forward_of_writes {s : State} {d : Nat} {f : Fdc} {a : WriteAns} {ws : List WriteAns}
    (hf : s.fdc? d = some f) (hw : (s.chan (s.outCh d)).writes = a :: ws) (ha : a.fits s.cfg = true) :
    s.forward d = .done (((s.withWrites (s.outCh d) ws).withFdc d
      { f with writeErrors := (f.writeErrors + writeFails a f.cursor) % 2 ^ s.cfg.cntW }).returning
      [.chWrite d (s.outCh d) f.content a] s.ret) () := by
  rw [State.forward, State.countedWrite_of_writes hf hw ha, State.frame_eq hf, Fdc.length_content]
  rfl

/-! ## An action that ran to its end had its requests answered -/

theorem State.handshake_eq_done {s t : State} {d : Nat}
    (h : s.handshake d = .done t ()) :
    ∃ a1 a2 ws, (s.chan (s.inCh d)).writes = a1 :: a2 :: ws ∧ a1.fits s.cfg = true ∧ a2.fits s.cfg = true := by
  obtain ⟨u, _, h1, h2⟩ := Attempt.andThen_eq_done.mp h
  obtain ⟨a1, rest, hw, ha1, rfl⟩ := State.countedWrite_eq_done h1
  obtain ⟨a2, ws, hw2, ha2, -⟩ := State.countedWrite_eq_done h2
  have hc := congrArg ChannelEnv.writes (State.chan_withWrites_same hw rest)
  simp only [State.addWriteErrors, State.updFdc_inCh_eq, State.log_inCh_eq, State.withWrites_inCh_eq,
    State.updFdc_chan_eq, State.log_chan_eq] at hw2
  rw [hc] at hw2
  simp only at hw2
  subst hw2
  exact ⟨a1, a2, ws, hw, ha1, ha2⟩

theorem State.ack2Only_eq_done {s t : State} {d : Nat} (h : s.ack2Only d = .done t ()) :
    ∃ a ws, (s.chan (s.inCh d)).writes = a :: ws ∧ a.fits s.cfg = true := by
  obtain ⟨u, a, h1, -⟩ := Attempt.andThen_eq_done.mp h
  obtain ⟨ws, hw, ha, -⟩ := State.chWrite_eq_done h1
  exact ⟨a, ws, hw, ha⟩

theorem State.forward_eq_done {s t : State} {d : Nat} (h : s.forward d = .done t ()) :
    ∃ a ws, (s.chan (s.outCh d)).writes = a :: ws ∧ a.fits s.cfg = true := by
  obtain ⟨a, ws, hw, ha, -⟩ := State.countedWrite_eq_done h
  exact ⟨a, ws, hw, ha⟩

/-! ## The resolve phase -/

/-- What the resolve phase of code `c` can leave of a machine that was `f` (41_packet_dispatcher.md R111 to R125):
the machine, the events it added, and the channel answers it took are its only effects. -/
def State.ResolvedTo (s : State) (d : Nat) (c : FrameTypeCode) (f : Fdc) (t : State) : Prop :=
  ∃ (es : List Event) (g : Fdc) (chans : List ChannelEnv),
    t = { (s.withFdc d g) with chans := chans, history := s.history ++ es } ∧
    es.filter Event.isRead = [] ∧ (writesOf es).length ≤ 2 ∧ failedWrites es ≤ 2 ∧
    g = { f with
      cursor := if c = .incomplete then f.cursor else 0
      valid := if c = .incomplete ∨ c = .invalid then f.valid else (f.valid + 1) % 2 ^ s.cfg.cntW
      invalid := if c = .invalid then (f.invalid + 1) % 2 ^ s.cfg.cntW else f.invalid
      writeErrors := g.writeErrors } ∧
    (f.writeErrors < 2 ^ s.cfg.cntW → g.writeErrors =
      (if c = .init2 ∧ s.cfg.init2CountsWerr = false then f.writeErrors
        else (f.writeErrors + failedWrites es) % 2 ^ s.cfg.cntW))

theorem State.resolveArm_eq_done {s t : State} {d : Nat} {c : FrameTypeCode} {f : Fdc}
    (hf : s.fdc? d = some f) (h : s.resolveArm d c = .done t ()) : s.ResolvedTo d c f t := by
  have fails : ∀ a n, writeFails a n ≤ 1 := by
    intro a n; unfold writeFails; split <;> [skip; split] <;> omega
  have hand : ∀ u, State.thenValid (s.handshake d) d = .done u () → c = .keepalive ∨ c = .init1 →
      u = t → s.ResolvedTo d c f t := by
    intro u hu hc hut
    subst hut
    obtain ⟨v, _, h1, h2⟩ := Attempt.andThen_eq_done.mp hu
    obtain ⟨a1, a2, ws, hw, ha1, ha2⟩ := State.handshake_eq_done h1
    rw [State.handshake_of_writes hf hw ha1 ha2] at h1
    cases h1; cases h2
    rw [State.doneValid_returning,
      State.doneValid_eq (State.fdc?_withFdc_same (s := s.withWrites (s.inCh d) ws) hf _)]
    refine ⟨[.chWrite d (s.inCh d) ack1Frame a1, .chWrite d (s.inCh d) ack2Frame a2], _, _,
      by simp only [State.withFdc, State.returning, State.withWrites, List.set_set]; rfl, rfl, ?_, ?_, ?_, ?_⟩
    · exact le_trans (List.length_filter_le _ _) (by simp)
    · have := fails a1 ack1Frame.length; have := fails a2 ack2Frame.length
      simp only [failedWrites, List.map, Event.failures, List.sum_cons, List.sum_nil]; omega
    · rcases hc with rfl | rfl <;> simp
    · intro _
      rcases hc with rfl | rfl <;>
        simp [failedWrites, Event.failures, ack1Frame, ack2Frame, Nat.add_assoc]
  have fwd : ∀ u, State.thenValid (s.forward d) d = .done u () →
      c ≠ .incomplete ∧ c ≠ .invalid ∧ c ≠ .init2 → u = t → s.ResolvedTo d c f t := by
    intro u hu hc hut
    subst hut
    obtain ⟨v, _, h1, h2⟩ := Attempt.andThen_eq_done.mp hu
    obtain ⟨a, ws, hw, ha⟩ := State.forward_eq_done h1
    rw [State.forward_of_writes hf hw ha] at h1
    cases h1; cases h2
    rw [State.doneValid_returning,
      State.doneValid_eq (State.fdc?_withFdc_same (s := s.withWrites (s.outCh d) ws) hf _)]
    refine ⟨[.chWrite d (s.outCh d) f.content a], _, _,
      by simp only [State.withFdc, State.returning, State.withWrites, List.set_set]; rfl, rfl, ?_, ?_, ?_, ?_⟩
    · exact le_trans (List.length_filter_le _ _) (by simp)
    · have := fails a f.content.length
      simp only [failedWrites, List.map, Event.failures, List.sum_cons, List.sum_nil]; omega
    · simp [hc.1, hc.2.1]
    · intro _
      simp [hc.2.2, failedWrites, Event.failures]
  cases c <;> simp only [State.resolveArm] at h
  case keepalive => exact hand _ h (Or.inl rfl) rfl
  case init1 => exact hand _ h (Or.inr rfl) rfl
  case forwardable => exact fwd _ h (by simp) rfl
  case endOfStream => exact fwd _ h (by simp) rfl
  case endOfFile => exact fwd _ h (by simp) rfl
  case init2 =>
    obtain ⟨v, _, h1, h2⟩ := Attempt.andThen_eq_done.mp h
    obtain ⟨a, ws, hw, ha⟩ := State.ack2Only_eq_done h1
    rw [State.ack2Only_of_writes hf hw ha] at h1
    cases h1; cases h2
    rw [State.doneValid_returning,
      State.doneValid_eq (State.fdc?_withFdc_same (s := s.withWrites (s.inCh d) ws) hf _)]
    refine ⟨[.chWrite d (s.inCh d) ack2Frame a], _, _,
      by simp only [State.withFdc, State.returning, State.withWrites, List.set_set]; rfl, rfl, ?_, ?_, ?_, ?_⟩
    · exact le_trans (List.length_filter_le _ _) (by simp)
    · have := fails a ack2Frame.length
      simp only [failedWrites, List.map, Event.failures, List.sum_cons, List.sum_nil]; omega
    · simp
    · intro _
      cases hb : s.cfg.init2CountsWerr <;> simp [failedWrites, Event.failures, ack2Frame]
  case panelPowerKey =>
    cases h
    rw [State.doneValid_eq (s := s.log _) (f := f) hf]
    refine ⟨[.tracePwk d (s.frame d)], _, s.chans, rfl, rfl, le_trans (List.length_filter_le _ _) (by simp),
      by simp [failedWrites, Event.failures], by simp, ?_⟩
    intro hlt
    simp [failedWrites, Event.failures, Nat.mod_eq_of_lt hlt]
  case incomplete =>
    cases h
    refine ⟨[], f, s.chans, ?_, rfl, by simp [writesOf], by simp [failedWrites], by simp, ?_⟩
    · rw [State.withFdc_self hf]; simp
    · intro hlt
      simp [failedWrites, Nat.mod_eq_of_lt hlt]
  case invalid =>
    cases h
    rw [State.doneInvalid_eq hf]
    refine ⟨[], { f with cursor := 0, invalid := (f.invalid + 1) % 2 ^ s.cfg.cntW }, s.chans, by simp [State.withFdc], rfl,
      by simp [writesOf], by simp [failedWrites], by simp, ?_⟩
    intro hlt
    simp [failedWrites, Nat.mod_eq_of_lt hlt]

/-- The resolve phase runs to its end when the writes it may issue are answered. -/
theorem State.resolveArm_of_writes {s : State} {d : Nat} {f : Fdc} (c : FrameTypeCode) {a1 a2 a3 : WriteAns}
    {ws vs : List WriteAns} (hf : s.fdc? d = some f) (hw : (s.chan (s.inCh d)).writes = a1 :: a2 :: ws)
    (hv : (s.chan (s.outCh d)).writes = a3 :: vs) (h1 : a1.fits s.cfg = true) (h2 : a2.fits s.cfg = true)
    (h3 : a3.fits s.cfg = true) : ∃ t, s.resolveArm d c = .done t () := by
  cases c <;> simp only [State.resolveArm, State.thenValid]
  case keepalive => rw [State.handshake_of_writes hf hw h1 h2]; exact ⟨_, rfl⟩
  case init1 => rw [State.handshake_of_writes hf hw h1 h2]; exact ⟨_, rfl⟩
  case init2 => rw [State.ack2Only_of_writes hf hw h1]; exact ⟨_, rfl⟩
  case forwardable => rw [State.forward_of_writes hf hv h3]; exact ⟨_, rfl⟩
  case endOfStream => rw [State.forward_of_writes hf hv h3]; exact ⟨_, rfl⟩
  case endOfFile => rw [State.forward_of_writes hf hv h3]; exact ⟨_, rfl⟩
  all_goals exact ⟨_, rfl⟩

/-- The resolve phase waits while a write it issues has no answer (43_host_interface.md R184). -/
theorem State.resolveArm_held {s : State} {d : Nat} {c : FrameTypeCode} {f : Fdc} (hf : s.fdc? d = some f)
    (h : s.LacksWriteAnswer d c) : s.resolveArm d c = .held := by
  have hand (h : (s.chan (s.inCh d)).writes = [] ∨
      ∃ a, WriteAns.fits s.cfg a = true ∧ (s.chan (s.inCh d)).writes = [a]) : s.handshake d = .held := by
    rcases h with h | ⟨a, ha, h⟩
    · rw [State.handshake, State.countedWrite_held h]; rfl
    · rw [State.handshake, State.countedWrite_of_writes hf h ha]
      simp only [Attempt.done_andThen]
      apply State.countedWrite_held
      exact congrArg ChannelEnv.writes (State.chan_withWrites_same h [])
  cases c <;> simp only [State.LacksWriteAnswer] at h
  case keepalive => rw [State.resolveArm, hand h]; rfl
  case init1 => rw [State.resolveArm, hand h]; rfl
  case init2 => rw [State.resolveArm, State.ack2Only, State.chWrite_held h]; rfl
  all_goals rw [State.resolveArm, State.forward, State.countedWrite_held h]; rfl

/-! ## The read phase -/

/-- The machine after a read answered `bs`. -/
def Fdc.afterBytes (cfg : Config) (f : Fdc) (bs : List Byte) : Fdc :=
  { f with
    buf := f.buf.fill f.cursor bs
    cursor := f.cursor + bs.length
    faultFull := f.faultFull ||
      decide (classify cfg (f.content ++ bs) = .incomplete ∧ f.cursor + bs.length = cfg.cap) }

theorem Fdc.content_fill {f : Fdc} (hb : f.buf.wf = true) (bs : List Byte) :
    (Fdc.fill bs f).content = f.content ++ bs := Memory.bytesFrom_fill f.buf f.cursor bs hb

theorem State.raiseIfFull_eq {s : State} {d : Nat} {f : Fdc} (hf : s.fdc? d = some f) :
    s.raiseIfFull d = s.withFdc d
      { f with faultFull := f.faultFull || decide (classify s.cfg f.content = .incomplete ∧ f.cursor = s.cfg.cap) } := by
  unfold State.raiseIfFull State.exhausted
  rw [State.frame_eq hf, State.fdcD_of_some hf]
  by_cases hx : classify s.cfg f.content = .incomplete ∧ f.cursor = s.cfg.cap
  · simp [hx, State.updFdc_eq_withFdc hf]
  · have : (decide (classify s.cfg f.content = .incomplete) && decide (f.cursor = s.cfg.cap)) = false := by
      simpa using hx
    simp only [this, decide_eq_false hx, Bool.or_false, Bool.false_eq_true, if_false]
    exact (State.withFdc_self hf).symm

theorem State.readPhase_bytes {s : State} {d : Nat} {f : Fdc} {bs : List Byte} {rest : List ReadAns}
    (hf : s.fdc? d = some f) (hb : f.buf.wf = true)
    (hr : (s.chan (s.inCh d)).reads = .bytes bs :: rest) (h1 : 1 ≤ bs.length)
    (h2 : bs.length ≤ s.cfg.cap - f.cursor) :
    s.readPhase d = .done (((s.withReads (s.inCh d) rest).withFdc d (f.afterBytes s.cfg bs)).returning
      [.chRead d (s.inCh d) (s.cfg.cap - f.cursor) (.bytes bs)] s.ret) (classify s.cfg (f.content ++ bs)) := by
  have hfit : ReadAns.fits s.cfg (s.cfg.cap - f.cursor) (.bytes bs) = true := by
    simp [ReadAns.fits, h1, h2]
  rw [State.readPhase, State.fdcD_of_some hf, State.chRead_of_reads hr hfit]
  simp only [Attempt.done_andThen]
  have e := State.updFdc_eq_withFdc (s := (s.withReads (s.inCh d) rest).log
    (.chRead d (s.inCh d) (s.cfg.cap - f.cursor) (.bytes bs))) (d := d) (f := f) hf (Fdc.fill bs)
  rw [e]
  have hg := State.fdc?_withFdc_same (s := (s.withReads (s.inCh d) rest).log
    (.chRead d (s.inCh d) (s.cfg.cap - f.cursor) (.bytes bs))) hf (Fdc.fill bs f)
  rw [State.frame_eq hg, Fdc.content_fill hb, State.raiseIfFull_eq hg, Fdc.content_fill hb]
  simp only [State.withFdc_withFdc]
  rfl

theorem State.readPhase_eof {s : State} {d : Nat} {f : Fdc} {rest : List ReadAns}
    (hf : s.fdc? d = some f) (hr : (s.chan (s.inCh d)).reads = .eof :: rest) :
    s.readPhase d = .done ((s.withReads (s.inCh d) rest).returning
      [.chRead d (s.inCh d) (s.cfg.cap - f.cursor) .eof] s.ret) .endOfFile := by
  rw [State.readPhase, State.fdcD_of_some hf, State.chRead_of_reads hr rfl]
  rfl

theorem State.readPhase_err {s : State} {d e : Nat} {f : Fdc} {rest : List ReadAns}
    (hf : s.fdc? d = some f) (he : e < 2 ^ s.cfg.errW) (hr : (s.chan (s.inCh d)).reads = .err e :: rest) :
    s.readPhase d = .done (((s.withReads (s.inCh d) rest).withFdc d { f with rdErr := true, rdErrCode := e }).returning
      [.chRead d (s.inCh d) (s.cfg.cap - f.cursor) (.err e), .traceReadError d e] s.ret) .invalid := by
  rw [State.readPhase, State.fdcD_of_some hf, State.chRead_of_reads hr (by simp [ReadAns.fits, he])]
  simp only [Attempt.done_andThen, State.recordReadError]
  rw [State.updFdc_eq_withFdc (s := (s.withReads (s.inCh d) rest).log _) (f := f) hf]
  simp [State.withFdc, State.returning, State.log]

/-- A read phase that ran to its end had its one request answered. -/
theorem State.readPhase_eq_done {s t : State} {d : Nat} {c : FrameTypeCode} (h : s.readPhase d = .done t c) :
    ∃ a rest, (s.chan (s.inCh d)).reads = a :: rest ∧ a.fits s.cfg (s.cfg.cap - (s.fdcD d).cursor) = true := by
  obtain ⟨u, a, h1, -⟩ := Attempt.andThen_eq_done.mp h
  obtain ⟨rest, hr, hfit, -⟩ := State.chRead_eq_done h1
  exact ⟨a, rest, hr, hfit⟩

/-- What the read phase of a machine that was `f` can leave (40_frame_reader.md R90 to R98), also where its memory is not
canonical: the machine, one read request and at most a trace event are its only effects, the counters are untouched, and
a machine left Incomplete holds the bytes read and is faulted exactly when it is full. -/
theorem State.readPhase_effect {s u : State} {d : Nat} {c : FrameTypeCode} {f : Fdc} (hf : s.fdc? d = some f)
    (hff : f.faultFull = false) (h : s.readPhase d = .done u c) :
    ∃ (a : ReadAns) (g : Fdc) (chans : List ChannelEnv) (es : List Event),
      a.fits s.cfg (s.cfg.cap - f.cursor) = true ∧
      u = { (s.withFdc d g) with
        chans := chans
        history := s.history ++ (.chRead d (s.inCh d) (s.cfg.cap - f.cursor) a) :: es } ∧
      es.filter Event.isRead = [] ∧ es.filter Event.isWrite = [] ∧ failedWrites es = 0 ∧
      g.valid = f.valid ∧ g.invalid = f.invalid ∧ g.writeErrors = f.writeErrors ∧ g.alive = f.alive ∧
      (c = .incomplete → ∃ bs, a = .bytes bs ∧
        g = { Fdc.fill bs f with faultFull := decide (g.cursor = s.cfg.cap) } ∧
        classify s.cfg (Fdc.fill bs f).content = .incomplete) ∧
      (c ≠ .incomplete → g.faultFull = false) := by
  obtain ⟨a, rest, hq, hfit⟩ := State.readPhase_eq_done h
  rw [State.fdcD_of_some hf] at hfit
  cases a with
  | eof =>
    rw [State.readPhase_eof hf hq] at h; cases h
    refine ⟨.eof, f, (s.withReads (s.inCh d) rest).chans, [], rfl, ?_, rfl, rfl, rfl, rfl, rfl, rfl, rfl, by simp, fun _ => hff⟩
    rw [State.withFdc_self hf]; rfl
  | err e =>
    have he : e < 2 ^ s.cfg.errW := by simpa [ReadAns.fits] using hfit
    rw [State.readPhase_err hf he hq] at h; cases h
    exact ⟨.err e, { f with rdErr := true, rdErrCode := e }, (s.withReads (s.inCh d) rest).chans,
      [.traceReadError d e], hfit, by simp [State.withFdc, State.withReads, State.returning], rfl, rfl, rfl, rfl, rfl, rfl,
      rfl, by simp, fun _ => hff⟩
  | bytes bs =>
    rw [State.readPhase, State.fdcD_of_some hf, State.chRead_of_reads hq hfit] at h
    simp only [Attempt.done_andThen] at h
    have e := State.updFdc_eq_withFdc (s := (s.withReads (s.inCh d) rest).log
      (.chRead d (s.inCh d) (s.cfg.cap - f.cursor) (.bytes bs))) (d := d) (f := f) hf (Fdc.fill bs)
    rw [e] at h
    have hg := State.fdc?_withFdc_same (s := (s.withReads (s.inCh d) rest).log
      (.chRead d (s.inCh d) (s.cfg.cap - f.cursor) (.bytes bs))) hf (Fdc.fill bs f)
    rw [State.frame_eq hg, State.raiseIfFull_eq hg] at h
    cases h
    refine ⟨.bytes bs, { Fdc.fill bs f with
        faultFull := (Fdc.fill bs f).faultFull || decide (classify s.cfg (Fdc.fill bs f).content = .incomplete ∧
          (Fdc.fill bs f).cursor = s.cfg.cap) }, (s.withReads (s.inCh d) rest).chans, [], hfit,
      by simp only [State.withFdc_withFdc]; rfl, rfl, rfl, rfl, rfl, rfl, rfl, rfl, ?_, ?_⟩
    · intro hc
      refine ⟨bs, rfl, ?_, hc⟩
      have hc' : classify s.cfg (Fdc.fill bs f).content = .incomplete := hc
      have : (Fdc.fill bs f).faultFull = false := hff
      simp only [this, Bool.false_or]
      congr 1
      apply decide_eq_decide.mpr
      constructor
      · intro h; exact h.2
      · intro h; exact ⟨hc', h⟩
    · intro hc
      have : (Fdc.fill bs f).faultFull = false := hff
      simp only [this, Bool.false_or]
      exact decide_eq_false (fun h => hc h.1)

/-! ## No action reads what the last operation returned -/

/-- An attempt that ends with `r` as the last answer. -/
def Attempt.reret (r : Result) {α : Type} : Attempt α → Attempt α
  | .done t a => .done { t with ret := r } a
  | .held => .held
  | .refused e => .refused e

theorem Attempt.reret_andThen {α β : Type} (r : Result) (x : Attempt α) (k k' : State → α → Attempt β)
    (h : ∀ s a, k' { s with ret := r } a = (k s a).reret r) :
    (x.reret r).andThen k' = (x.andThen k).reret r := by cases x <;> simp [Attempt.reret, h]

theorem State.chWrite_ret (s : State) (r : Result) (d ch : Nat) (bs : List Byte) :
    State.chWrite { s with ret := r } d ch bs = (s.chWrite d ch bs).reret r := by
  unfold State.chWrite
  simp only [State.chan]
  split
  · rfl
  · split <;> rfl

theorem State.countedWrite_ret (s : State) (r : Result) (d ch : Nat) (bs : List Byte) :
    State.countedWrite { s with ret := r } d ch bs = (s.countedWrite d ch bs).reret r := by
  unfold State.countedWrite
  rw [State.chWrite_ret]
  exact Attempt.reret_andThen r _ _ _ (fun _ _ => rfl)

theorem State.handshake_ret (s : State) (r : Result) (d : Nat) :
    State.handshake { s with ret := r } d = (s.handshake d).reret r := by
  unfold State.handshake
  rw [State.countedWrite_ret]
  exact Attempt.reret_andThen r _ _ _ (fun _ _ => State.countedWrite_ret _ _ _ _ _)

theorem State.thenValid_ret (r : Result) (x : Attempt Unit) (d : Nat) :
    State.thenValid (x.reret r) d = (State.thenValid x d).reret r :=
  Attempt.reret_andThen r _ _ _ (fun _ _ => rfl)

theorem State.ack2Only_ret (s : State) (r : Result) (d : Nat) :
    State.ack2Only { s with ret := r } d = (s.ack2Only d).reret r := by
  unfold State.ack2Only
  rw [State.chWrite_ret]
  refine Attempt.reret_andThen r _ _ _ (fun t _ => ?_)
  show Attempt.done (if t.cfg.init2CountsWerr then _ else _) _ =
    Attempt.reret r (Attempt.done (if t.cfg.init2CountsWerr then _ else _) _)
  split <;> rfl

theorem State.resolveArm_ret (s : State) (r : Result) (d : Nat) (c : FrameTypeCode) :
    State.resolveArm { s with ret := r } d c = (s.resolveArm d c).reret r := by
  cases c <;> simp only [State.resolveArm, State.handshake_ret, State.ack2Only_ret, State.thenValid_ret] <;> try rfl
  all_goals (unfold State.forward; rw [State.countedWrite_ret]; exact State.thenValid_ret _ _ _)

/-! ## The cycle -/

/-- Every frame instruction dispatches its Frame Type Code. -/
theorem exec_frameInstr (s : State) (d : Nat) (c : FrameTypeCode) :
    exec (frameInstr d c) s = s.dispatchFrame d c := by cases c <;> rfl

/-- A cycle that returned a Frame Type Code ran on an admitted machine, its read phase and its resolve phase to their
ends. -/
theorem execCycle_eq_code {s t : State} {d : Nat} {c : FrameTypeCode} (h : execCycle d s = .next t)
    (ht : t.ret = .code c) :
    ∃ f u v, s.Ready d f ∧ s.readPhase d = .done u c ∧ u.resolveArm d c = .done v () ∧
      t = { v with ret := .code c } := by
  rcases s.onReady_cases d (fun _ =>
    (s.readPhase d).andThen fun t c => (t.resolveArm d c).andThen fun u _ => .done u (.code c)) with
    ⟨_, e⟩ | ⟨f, hf, e⟩
  · rw [execCycle, e] at h
    cases h
    cases ht
  · rw [execCycle, e] at h
    rcases State.finish_eq_next.mp h with ⟨u, r, h1, rfl⟩ | ⟨-, rfl⟩
    · obtain ⟨v, c', h2, h3⟩ := Attempt.andThen_eq_done.mp h1
      obtain ⟨w, _, h4, h5⟩ := Attempt.andThen_eq_done.mp h3
      cases h5
      cases ht
      exact ⟨f, v, u, hf, h2, h4, rfl⟩
    · cases ht

end Sys2Proof.Machine
end

