-- ==== Sys2Proof/Laws/Gpio.lean ====
section
/-! SUPPORT. What the GPIO operations can do, said once: the pins they touch, that they keep the invariant of every pin, and that nothing else but draws and history moves. -/

namespace Sys2Proof.Machine

/-- `t` is `s` but for draws taken, events recorded, and the pins of `P`, which keep the invariant if all pins met it. -/
def State.TouchesPins (P : List Nat) (s t : State) : Prop :=
  ∃ (pins : List Pin) (draws : List Bool) (history : List Event),
    t = { s with pins := pins, draws := draws, history := history } ∧
    pins.length = s.pins.length ∧ (∀ e, e ∉ P → pins[e]? = s.pins[e]?) ∧
    ((∀ q ∈ s.pins, q.Inv) → ∀ q ∈ pins, q.Inv)

theorem State.TouchesPins.refl (P : List Nat) (s : State) : State.TouchesPins P s s :=
  ⟨s.pins, s.draws, s.history, rfl, rfl, fun _ _ => rfl, fun h => h⟩

theorem State.TouchesPins.trans {P : List Nat} {s t u : State} (h1 : State.TouchesPins P s t)
    (h2 : State.TouchesPins P t u) : State.TouchesPins P s u := by
  obtain ⟨pins, draws, hist, rfl, hl, ho, hi⟩ := h1
  obtain ⟨pins', draws', hist', rfl, hl', ho', hi'⟩ := h2
  exact ⟨pins', draws', hist', rfl, hl'.trans hl, fun e he => (ho' e he).trans (ho e he), fun h => hi' (hi h)⟩

/-- Replacing a listed pin by one that meets the invariant if it did. -/
theorem State.TouchesPins.withPin {P : List Nat} {s : State} {p : Nat} {q r : Pin} (hp : p ∈ P)
    (hq : s.pin? p = some q) (hr : q.Inv → r.Inv) : State.TouchesPins P s (s.withPin p r) := by
  refine ⟨s.pins.set p r, s.draws, s.history, rfl, by simp, ?_, ?_⟩
  · intro e he
    have hne : p ≠ e := fun h => he (h ▸ hp)
    exact List.getElem?_set_ne hne
  · intro h x hx
    obtain ⟨-, hq⟩ := State.pin?_eq_some.mp hq
    rcases List.mem_or_eq_of_mem_set hx with hx | rfl
    · exact h x hx
    · exact hr (h q (List.mem_of_getElem? hq))

theorem State.gpioEnv_touches {P : List Nat} {s t : State} {ok : Bool} (h : s.gpioEnv = .done t ok) :
    State.TouchesPins P s t := by
  obtain ⟨rest, -, rfl⟩ := State.gpioEnv_eq_done h
  exact ⟨s.pins, rest, s.history ++ [.gpioEnv ok], rfl, rfl, fun _ _ => rfl, fun h => h⟩

/-- A primitive touches its own pin (42_gpio.md R141). -/
theorem State.primitive_touches {P : List Nat} {s t : State} {p : Nat} {cond : Pin → Bool} {g : Pin → Pin}
    {ok : Bool} (hp : p ∈ P) (hg : ∀ q, cond q = true → q.Inv → (g q).Inv)
    (h : s.primitive p cond g = .done t ok) : State.TouchesPins P s t := by
  rcases State.primitive_eq_done h with ⟨-, rfl⟩ | ⟨q, rest, hq, hc, -, rfl⟩
  · exact .refl P t
  · have h1 : State.TouchesPins P s ((s.withDraws rest).log (.gpioEnv ok)) :=
      ⟨s.pins, rest, s.history ++ [.gpioEnv ok], rfl, rfl, fun _ _ => rfl, fun h => h⟩
    split
    · exact h1.trans (State.TouchesPins.withPin (s := (s.withDraws rest).log (.gpioEnv ok)) hp hq (hg q hc))
    · exact h1

theorem State.gpioExport_touches {P : List Nat} {s t : State} {p : Nat} {ok : Bool} (hp : p ∈ P)
    (h : s.gpioExport p = .done t ok) : State.TouchesPins P s t :=
  State.primitive_touches hp (fun q _ _ hq => by simp [Pin.freshExport] at hq) h

theorem State.gpioExportIfAbsent_touches {P : List Nat} {s t : State} {p : Nat} {ok : Bool} (hp : p ∈ P)
    (h : s.gpioExportIfAbsent p = .done t ok) : State.TouchesPins P s t := by
  unfold State.gpioExportIfAbsent at h
  split at h
  · cases h; exact .refl P _
  · split at h
    · cases h; exact .refl P _
    · exact State.gpioExport_touches hp h

theorem State.gpioSetDirection_touches {P : List Nat} {s t : State} {p : Nat} {x : Direction} {ok : Bool}
    (hp : p ∈ P) (h : s.gpioSetDirection p x = .done t ok) : State.TouchesPins P s t :=
  State.primitive_touches hp (fun q _ _ hq => by simp [Pin.withDirection] at hq) h

theorem State.gpioSetPolarity_touches {P : List Nat} {s t : State} {p : Nat} {a ok : Bool} (hp : p ∈ P)
    (h : s.gpioSetPolarity p a = .done t ok) : State.TouchesPins P s t :=
  State.primitive_touches hp (fun q _ _ hq => by simp [Pin.withPolarity] at hq) h

theorem State.gpioSetEdge_touches {P : List Nat} {s t : State} {p : Nat} {e : BitVec 2} {ok : Bool} (hp : p ∈ P)
    (h : s.gpioSetEdge p e = .done t ok) : State.TouchesPins P s t := by
  unfold State.gpioSetEdge at h
  split at h
  · cases h; exact .refl P _
  · exact State.primitive_touches hp (fun q _ _ hq => by simp [Pin.withEdge] at hq) h

theorem State.gpioWriteValue_touches {P : List Nat} {s t : State} {p : Nat} {v ok : Bool} (hp : p ∈ P)
    (h : s.gpioWriteValue p v = .done t ok) : State.TouchesPins P s t :=
  State.primitive_touches (g := Pin.withLatch v) hp (fun _ _ hi hq => hi hq) h

/-- A read of a value touches no pin (42_gpio.md R147). -/
theorem State.gpioReadValue_touches {s t : State} {p : Nat} {r : Result} (h : s.gpioReadValue p = .done t r) :
    State.TouchesPins [] s t := by
  obtain ⟨u, ok, h1, h2⟩ := Attempt.andThen_eq_done.mp h
  have ht : t = u := by
    split at h2 <;> cases h2 <;> rfl
  subst ht
  rcases State.primitive_eq_done h1 with ⟨-, rfl⟩ | ⟨q, rest, hq, -, -, rfl⟩
  · exact .refl _ _
  · refine ⟨s.pins, rest, s.history ++ [.gpioEnv ok], ?_, rfl, fun _ _ => rfl, fun h => h⟩
    split
    · rw [show (id q : Pin) = q from rfl]
      exact State.withPin_self (s := (s.withDraws rest).log (.gpioEnv ok)) hq
    · rfl

theorem Attempt.ifOk_touches {P : List Nat} {s t : State} {x : Attempt Bool} {k : State → Attempt Bool} {ok : Bool}
    (hx : ∀ u b, x = .done u b → State.TouchesPins P s u)
    (hk : ∀ u v b, State.TouchesPins P s u → k u = .done v b → State.TouchesPins P u v)
    (h : x.ifOk k = .done t ok) : State.TouchesPins P s t := by
  obtain ⟨u, b, h1, h2⟩ := Attempt.andThen_eq_done.mp h
  split at h2
  · exact (hx u b h1).trans (hk u t ok (hx u b h1) h2)
  · cases h2; exact hx _ _ h1

/-- The configuration never changes under a GPIO operation. -/
theorem State.TouchesPins.cfg {P : List Nat} {s t : State} (h : State.TouchesPins P s t) : t.cfg = s.cfg := by
  obtain ⟨_, _, _, rfl, -⟩ := h
  rfl

/-- The sensor's initialisation touches `PWK_PIN` only (42_gpio.md R152). -/
theorem State.sensorSteps_touches {s t : State} {ok : Bool} (h : s.sensorSteps = .done t ok) :
    State.TouchesPins [s.cfg.pwkPin] s t := by
  refine Attempt.ifOk_touches (fun _ _ h => ?_) (fun u v b hu h => ?_) h
  · refine Attempt.ifOk_touches (fun _ _ h => ?_) (fun u v b hu h => ?_) h
    · refine Attempt.ifOk_touches (fun _ _ h => ?_) (fun u v b hu h => ?_) h
      · exact State.gpioExportIfAbsent_touches (by simp) h
      · exact State.gpioSetDirection_touches (by simp [hu.cfg]) h
    · exact State.gpioSetPolarity_touches (by simp [hu.cfg]) h
  · refine Attempt.ifOk_touches (fun _ _ h => ?_) (fun _ _ _ _ h => ?_) h
    · exact State.gpioSetEdge_touches (by simp [hu.cfg]) h
    · exact State.gpioEnv_touches h

/-- An output pin's initialisation touches that pin and the target of its write (42_gpio.md R153). -/
theorem State.outputSteps_touches {s t : State} {p : Nat} {ok : Bool} (h : s.outputSteps p = .done t ok) :
    State.TouchesPins [p, outputInitTarget s.cfg p] s t := by
  refine Attempt.ifOk_touches (fun _ _ h => ?_) (fun u v b hu h => ?_) h
  · refine Attempt.ifOk_touches (fun _ _ h => ?_) (fun _ _ _ _ h => ?_) h
    · exact State.gpioExportIfAbsent_touches (by simp) h
    · exact State.gpioSetDirection_touches (by simp) h
  · exact State.gpioWriteValue_touches (by simp [hu.cfg]) h

/-- A presented level keeps the invariant of its pin: only a selected edge sets the flag (42_gpio.md R149). -/
theorem Pin.Inv_present {q : Pin} (sense : EdgeSense) (v : Bool) (h : q.Inv) : (q.present sense v).Inv := by
  intro hp
  simp only [Pin.present, Bool.or_eq_true] at hp ⊢
  rcases hp with hp | hp
  · exact h hp
  · simp only [Pin.edgeSeen, Bool.and_eq_true, decide_eq_true_eq] at hp
    refine ⟨hp.1.1, hp.1.2, fun he => ?_⟩
    have := hp.2
    rw [he] at this
    cases sense <;> simp [edgeDetects] at this

end Sys2Proof.Machine
end

