-- ==== Sys2Proof/Laws/PerInstr.lean ====
section
/-! SUPPORT. The statements made per instruction, one lemma a constructor. -/

namespace Sys2Proof.Laws

/-- An encoded item is one the interface can carry: a command's operand `a` fits its field (30_encoding.md R73), a
frame and an emitted frame are not empty and name a direction, an answer names a direction and its code fits
(00_scope.md R8), an event's pin number fits `PIN_W` bits; the reset input carries nothing. -/
def itemFits (cfg : Config) : Item → Prop
  | .command c => cfg.fitsA c.a = true
  | .event p _ => p < 2 ^ cfg.pinW
  | .resetInput => True
  | .frame d bs => d < cfg.nDir ∧ bs ≠ []
  | .answer d a => d < cfg.nDir ∧ a.fits cfg cfg.cap = true
  | .emitted d _ bs => d < cfg.nDir ∧ bs ≠ []

/-- Operand 0 fits every field: the field of operand `a` has `max(PIN_W, ceil(log2(N_DIR)))` bits, and `2^0 = 1`. -/
theorem fitsA_zero (cfg : Config) : cfg.fitsA 0 = true := by
  simp [Config.fitsA]

/-- The encoding of a well-formed instruction is an item the interface can carry. -/
def EncodesInRange.Statement (i : Instr) : Prop :=
  ∀ (cfg : Config) (x : Item), i.wf cfg = true → encode cfg i = some x → itemFits cfg x

namespace EncodesInRange

theorem keepalive (d : Nat) : Statement (.keepalive d) := by
  intro cfg x hw he
  cases he
  exact ⟨of_decide_eq_true hw, by simp [frameBytes]⟩

theorem init1 (d : Nat) : Statement (.init1 d) := by
  intro cfg x hw he
  cases he
  exact ⟨of_decide_eq_true hw, by simp [frameBytes]⟩

theorem init2 (d : Nat) : Statement (.init2 d) := by
  intro cfg x hw he
  cases he
  exact ⟨of_decide_eq_true hw, by simp [frameBytes]⟩

theorem pwk (d : Nat) : Statement (.pwk d) := by
  intro cfg x hw he
  cases he
  exact ⟨of_decide_eq_true hw, by simp [frameBytes]⟩

theorem fwd (d : Nat) (c : Byte) : Statement (.fwd d c) := by
  intro cfg x hw he
  cases he
  simp only [Instr.wf, Bool.and_eq_true, decide_eq_true_eq] at hw
  exact ⟨hw.1, by simp [frameBytes]⟩

theorem incomplete (d : Nat) : Statement (.incomplete d) := by
  intro cfg x hw he
  cases he
  exact ⟨of_decide_eq_true hw, by decide⟩

theorem eos (d : Nat) : Statement (.eos d) := by
  intro cfg x hw he
  cases he
  exact ⟨of_decide_eq_true hw, by decide⟩

theorem invalid (d : Nat) : Statement (.invalid d) := by
  intro cfg x hw he
  cases he
  exact ⟨of_decide_eq_true hw, by decide⟩

theorem eof (d : Nat) : Statement (.eof d) := by
  intro cfg x hw he
  cases he
  exact ⟨of_decide_eq_true hw, rfl⟩

theorem invalidRdErr (d : Nat) (e : Nat) : Statement (.invalidRdErr d e) := by
  intro cfg x hw he
  cases he
  simpa [Instr.wf, itemFits, ReadAns.fits] using hw

theorem ack1 (d : Nat) : Statement (.ack1 d) := by
  intro cfg x hw he
  cases he
  exact ⟨of_decide_eq_true hw, by decide⟩

theorem ack2 (d : Nat) (src : AckSource) : Statement (.ack2 d src) := by
  intro cfg x hw he
  cases he
  exact ⟨of_decide_eq_true hw, by decide⟩

theorem reset : Statement .reset := by
  intro cfg x _ he
  cases he
  exact fitsA_zero cfg

theorem fbInit (d : Nat) : Statement (.fbInit d) := by
  intro cfg x hw he
  cases he
  exact hw

theorem fbDestroy (d : Nat) : Statement (.fbDestroy d) := by
  intro cfg x hw he
  cases he
  exact hw

theorem cycle (d : Nat) : Statement (.cycle d) := by
  intro cfg x hw he
  cases he
  exact hw

theorem rdStatus (d : Nat) : Statement (.rdStatus d) := by
  intro cfg x hw he
  cases he
  exact hw

theorem exportPin (p : Nat) : Statement (.exportPin p) := by
  intro cfg x hw he
  cases he
  exact hw

theorem exportIfAbsent (p : Nat) : Statement (.exportIfAbsent p) := by
  intro cfg x hw he
  cases he
  exact hw

theorem setDirection (p : Nat) (x : Direction) : Statement (.setDirection p x) := by
  intro cfg x hw he
  cases he
  exact hw

theorem setPolarity (p : Nat) (a : Bool) : Statement (.setPolarity p a) := by
  intro cfg x hw he
  cases he
  exact hw

theorem setEdge (p : Nat) (e : BitVec 2) : Statement (.setEdge p e) := by
  intro cfg x hw he
  cases he
  exact hw

theorem readValue (h : Handle) : Statement (.readValue h) := by
  intro cfg x hw he
  cases he
  exact hw

theorem writeValue (p : Nat) (v : Bool) : Statement (.writeValue p v) := by
  intro cfg x hw he
  cases he
  exact hw

theorem poll (h : Handle) : Statement (.poll h) := by
  intro cfg x hw he
  cases he
  exact hw

theorem waitEdge (h : Handle) : Statement (.waitEdge h) := by
  intro cfg x hw he
  cases he
  exact hw

theorem initPowerKeySensor : Statement .initPowerKeySensor := by
  intro cfg x _ he
  cases he
  exact fitsA_zero cfg

theorem initOutputPin (p : Nat) : Statement (.initOutputPin p) := by
  intro cfg x hw he
  cases he
  exact hw

theorem setPin (p : Nat) (v : Bool) : Statement (.setPin p v) := by
  intro cfg x hw he
  cases he
  exact hw

theorem sample (p : Nat) (v : Bool) : Statement (.sample p v) := by
  intro cfg x hw he
  cases he
  exact (of_decide_eq_true hw : p < 2 ^ cfg.pinW)

theorem readInto (d : Nat) : Statement (.readInto d) := by
  intro cfg x _ he
  cases he

theorem resolve (d : Nat) (t : FrameTypeCode) : Statement (.resolve d t) := by
  intro cfg x _ he
  cases he

end EncodesInRange

end Sys2Proof.Laws
end

