-- ==== Sys2Proof/Laws/Runs.lean ====
section
/-! SUPPORT. What operations record in the history, and what that does to the runs read off it (43_host_interface.md R186). -/

namespace Sys2Proof.Machine

/-! ## Events that say nothing of a run -/

/-- A write request, a draw, a trace or a rejected item: no part of a run's account. -/
def Event.isPlain : Event → Bool
  | .chRead _ _ _ _ => false
  | .finished _ _ _ => false
  | .chWrite _ _ _ _ => true
  | .gpioEnv _ => true
  | .tracePwk _ _ => true
  | .traceReadError _ _ => true
  | .rejected _ _ => true

theorem Runs.note_plain (d : Nat) (rs : Runs) {e : Event} (h : e.isPlain = true) : rs.note d e = rs := by
  cases e <;> first | rfl | cases h

theorem Runs.foldl_plain (d : Nat) (rs : Runs) {es : List Event} (h : ∀ e ∈ es, e.isPlain = true) :
    es.foldl (Runs.note d) rs = rs := by
  induction es with
  | nil => rfl
  | cons e es ih =>
    rw [List.foldl_cons, Runs.note_plain d rs (h e (by simp)), ih fun x hx => h x (by simp [hx])]

theorem State.runs_append {s t : State} {es : List Event} (h : t.history = s.history ++ es) (d : Nat) :
    t.runs d = es.foldl (Runs.note d) (s.runs d) := by
  rw [State.runs, h, List.foldl_append]; rfl

/-! ## Operations that record plain events only -/

/-- `t` has the history of `s` and plain events after it. -/
def State.Adds (s t : State) : Prop := ∃ es, t.history = s.history ++ es ∧ ∀ e ∈ es, e.isPlain = true

theorem State.Adds.of_eq {s t : State} (h : t.history = s.history) : s.Adds t := ⟨[], by simp [h], by simp⟩

theorem State.Adds.trans {s t u : State} (h1 : s.Adds t) (h2 : t.Adds u) : s.Adds u := by
  obtain ⟨es, e1, p1⟩ := h1
  obtain ⟨fs, e2, p2⟩ := h2
  refine ⟨es ++ fs, by rw [e2, e1, List.append_assoc], fun e he => ?_⟩
  rcases List.mem_append.mp he with he | he
  · exact p1 e he
  · exact p2 e he

theorem State.Adds.one {s t : State} {e : Event} (h : t.history = s.history ++ [e]) (he : e.isPlain = true) :
    s.Adds t := ⟨[e], h, fun x hx => by rw [List.mem_singleton.mp hx]; exact he⟩

theorem State.Adds.runs {s t : State} (h : s.Adds t) (d : Nat) : t.runs d = s.runs d := by
  obtain ⟨es, e, p⟩ := h
  rw [State.runs_append e, Runs.foldl_plain d _ p]

/-- Where `x` ends, only plain events have been added to the history of `s`. -/
def Attempt.Adds {α : Type} (s : State) (x : Attempt α) : Prop := ∀ t a, x = .done t a → s.Adds t

theorem Attempt.Adds.done {α : Type} {s t : State} {a : α} (h : s.Adds t) : Attempt.Adds s (.done t a) := by
  intro u b e; cases e; exact h

theorem Attempt.Adds.andThen {α β : Type} {s : State} {x : Attempt α} {k : State → α → Attempt β}
    (hx : x.Adds s) (hk : ∀ t a, (k t a).Adds t) : (x.andThen k).Adds s := by
  intro u b e
  obtain ⟨t, a, h1, h2⟩ := Attempt.andThen_eq_done.mp e
  exact (hx t a h1).trans (hk t a u b h2)

theorem Attempt.Adds.held {α : Type} (s : State) : Attempt.Adds s (.held : Attempt α) := by intro t a h; cases h

theorem State.finish_adds {s t : State} {x : Attempt Result} (hx : x.Adds s) (h : s.finish x = .next t) : s.Adds t := by
  rcases State.finish_eq_next.mp h with ⟨u, r, h1, rfl⟩ | ⟨-, rfl⟩
  · exact (hx u r h1).trans (.of_eq rfl)
  · exact .of_eq rfl

theorem State.chWrite_adds (s : State) (d ch : Nat) (bs : List Byte) : (s.chWrite d ch bs).Adds s := by
  intro t a h
  obtain ⟨rest, -, -, rfl⟩ := State.chWrite_eq_done h
  exact .one rfl rfl

theorem State.gpioEnv_adds (s : State) : s.gpioEnv.Adds s := by
  intro t b h
  obtain ⟨rest, -, rfl⟩ := State.gpioEnv_eq_done h
  exact .one rfl rfl

theorem State.countedWrite_adds (s : State) (d ch : Nat) (bs : List Byte) : (s.countedWrite d ch bs).Adds s :=
  (s.chWrite_adds d ch bs).andThen fun _ _ => .done (.of_eq rfl)

theorem State.ack2Only_adds (s : State) (d : Nat) : (s.ack2Only d).Adds s :=
  (s.chWrite_adds d _ _).andThen fun t a => .done (by split <;> exact .of_eq rfl)

theorem State.thenValid_adds {s : State} {x : Attempt Unit} (h : x.Adds s) (d : Nat) : (State.thenValid x d).Adds s :=
  h.andThen fun _ _ => .done (.of_eq rfl)

theorem State.resolveArm_adds (s : State) (d : Nat) (c : FrameTypeCode) : (s.resolveArm d c).Adds s := by
  have hand : (s.handshake d).Adds s :=
    (s.countedWrite_adds d _ _).andThen fun t _ => t.countedWrite_adds d _ _
  cases c
  case incomplete => exact .done (.of_eq rfl)
  case invalid => exact .done (.of_eq rfl)
  case panelPowerKey => exact .done (.one rfl rfl)
  case keepalive => exact State.thenValid_adds hand d
  case init1 => exact State.thenValid_adds hand d
  case init2 => exact State.thenValid_adds (s.ack2Only_adds d) d
  all_goals exact State.thenValid_adds (s.countedWrite_adds d _ _) d

theorem State.primitive_adds (s : State) (p : Nat) (cond : Pin → Bool) (g : Pin → Pin) :
    (s.primitive p cond g).Adds s := by
  unfold State.primitive
  split
  · exact .done (.of_eq rfl)
  · split
    · exact s.gpioEnv_adds.andThen fun t ok => .done (by split <;> exact .of_eq rfl)
    · exact .done (.of_eq rfl)

theorem Attempt.ifOk_adds {s : State} {x : Attempt Bool} {k : State → Attempt Bool} (hx : x.Adds s)
    (hk : ∀ t, (k t).Adds t) : (x.ifOk k).Adds s :=
  hx.andThen fun t ok => by
    cases ok
    · exact .done (.of_eq rfl)
    · exact hk t

theorem State.gpioExportIfAbsent_adds (s : State) (p : Nat) : (s.gpioExportIfAbsent p).Adds s := by
  unfold State.gpioExportIfAbsent
  split
  · exact .done (.of_eq rfl)
  · split
    · exact .done (.of_eq rfl)
    · exact s.primitive_adds p _ _

theorem State.gpioSetEdge_adds (s : State) (p : Nat) (e : BitVec 2) : (s.gpioSetEdge p e).Adds s := by
  unfold State.gpioSetEdge
  split
  · exact .done (.of_eq rfl)
  · exact s.primitive_adds p _ _

theorem State.onFdc_adds {s : State} {d : Nat} {k : Fdc → Attempt Result} (h : ∀ f, (k f).Adds s) :
    (s.onFdc d k).Adds s := by
  rcases s.onFdc_cases d k with ⟨-, e⟩ | ⟨f, -, e⟩ <;> rw [e]
  · exact .done (.of_eq rfl)
  · exact h f

theorem State.onAlive_adds {s : State} {d : Nat} {k : Fdc → Attempt Result} (h : ∀ f, (k f).Adds s) :
    (s.onAlive d k).Adds s := State.onFdc_adds fun f => by
  split
  · exact h f
  · exact .done (.of_eq rfl)

/-- Every instruction but `CYCLE` and its read phase, which issue a read request, adds plain events only. -/
theorem exec_adds {i : Instr} {s t : State} (hc : ∀ d, i ≠ .cycle d) (hr : ∀ d, i ≠ .readInto d)
    (h : exec i s = .next t) : s.Adds t := by
  have frame : ∀ d c, s.dispatchFrame d c = .next t → s.Adds t := fun d c h =>
    State.finish_adds (State.onAlive_adds fun _ => (s.resolveArm_adds d c).andThen fun _ _ => .done (.of_eq rfl)) h
  have prim : ∀ x : Attempt Bool, x.Adds s → s.finish (asPrim x) = .next t → s.Adds t := fun x hx h =>
    State.finish_adds (hx.andThen fun _ _ => .done (.of_eq rfl)) h
  cases i
  case cycle d => exact absurd rfl (hc d)
  case readInto d => exact absurd rfl (hr d)
  case keepalive d => exact frame d _ h
  case init1 d => exact frame d _ h
  case init2 d => exact frame d _ h
  case pwk d => exact frame d _ h
  case fwd d c => exact frame d _ h
  case incomplete d => exact frame d _ h
  case eos d => exact frame d _ h
  case invalid d => exact frame d _ h
  case eof d => exact frame d _ h
  case invalidRdErr d e =>
    exact State.finish_adds (State.onAlive_adds fun _ =>
      Attempt.Adds.andThen (s := s) (fun u a hu => .trans (.one (e := .traceReadError d e) rfl rfl)
        ((s.recordReadError d e).resolveArm_adds d .invalid u a hu)) fun _ _ => .done (.of_eq rfl)) h
  case ack1 d =>
    exact State.finish_adds (State.onAlive_adds fun _ =>
      (s.countedWrite_adds d _ _).andThen fun _ _ => .done (.of_eq rfl)) h
  case ack2 d src =>
    refine State.finish_adds (State.onAlive_adds fun _ => Attempt.Adds.andThen ?_ fun _ _ => .done (.of_eq rfl)) h
    cases src
    · exact s.countedWrite_adds d _ _
    · exact s.ack2Only_adds d
  case resolve d c =>
    exact State.finish_adds (State.onAlive_adds fun _ =>
      (s.resolveArm_adds d c).andThen fun _ _ => .done (.of_eq rfl)) h
  case reset => cases h; exact .of_eq rfl
  case fbInit d =>
    exact State.finish_adds (State.onFdc_adds fun _ => .done (t := s.updFdc d (Fdc.cleared true)) (.of_eq rfl)) h
  case fbDestroy d =>
    exact State.finish_adds (State.onAlive_adds fun _ =>
      .done (t := s.updFdc d fun f => { f with alive := false }) (.of_eq rfl)) h
  case rdStatus d => exact State.finish_adds (State.onFdc_adds fun _ => .done (.of_eq rfl)) h
  case exportPin p => exact prim _ (s.primitive_adds p _ _) h
  case exportIfAbsent p => exact prim _ (s.gpioExportIfAbsent_adds p) h
  case setDirection p x => exact prim _ (s.primitive_adds p _ _) h
  case setPolarity p a => exact prim _ (s.primitive_adds p _ _) h
  case setEdge p e => exact prim _ (s.gpioSetEdge_adds p e) h
  case writeValue p v => exact prim _ (s.primitive_adds p _ _) h
  case initOutputPin p =>
    exact prim _ (Attempt.ifOk_adds (Attempt.ifOk_adds (s.gpioExportIfAbsent_adds p) fun t => t.primitive_adds p _ _)
      fun t => t.primitive_adds _ _ _) h
  case initPowerKeySensor =>
    exact State.finish_adds ((Attempt.ifOk_adds (Attempt.ifOk_adds (Attempt.ifOk_adds (s.gpioExportIfAbsent_adds _)
      fun t => t.primitive_adds _ _ _) fun t => t.primitive_adds _ _ _) fun t => Attempt.ifOk_adds
        (t.gpioSetEdge_adds _ _) fun u => u.gpioEnv_adds).andThen fun _ _ => .done (.of_eq rfl)) h
  case setPin p v =>
    exact State.finish_adds ((s.primitive_adds p _ _).andThen fun _ _ => .done (.of_eq rfl)) h
  case readValue hd =>
    refine State.finish_adds ?_ h
    split
    · exact (s.primitive_adds hd.pin _ _).andThen fun t ok => by split <;> exact .done (.of_eq rfl)
    · exact .done (.of_eq rfl)
  case poll hd =>
    refine State.finish_adds ?_ h
    split <;> exact .done (.of_eq rfl)
  case waitEdge hd =>
    refine State.finish_adds ?_ h
    split
    · exact .done (.of_eq rfl)
    · split
      · exact .done (.of_eq rfl)
      · exact .held s
  case sample p v =>
    refine State.finish_adds ?_ h
    split <;> exact .done (.of_eq rfl)

/-! ## What a read phase records -/

/-- A read phase records its one request and plain events. -/
theorem State.readPhase_records {s u : State} {d : Nat} {c : FrameTypeCode} (h : s.readPhase d = .done u c) :
    ∃ a es, u.history = s.history ++ .chRead d (s.inCh d) (s.cfg.cap - (s.fdcD d).cursor) a :: es ∧
      ∀ e ∈ es, e.isPlain = true := by
  obtain ⟨v, a, h1, h2⟩ := Attempt.andThen_eq_done.mp h
  obtain ⟨rest, -, -, rfl⟩ := State.chRead_eq_done h1
  cases a with
  | bytes bs =>
    cases h2
    refine ⟨.bytes bs, [], ?_, by simp⟩
    unfold State.raiseIfFull
    split <;> rfl
  | eof => cases h2; exact ⟨.eof, [], rfl, by simp⟩
  | err e =>
    cases h2
    exact ⟨.err e, [.traceReadError d e], by simp [State.recordReadError, State.log], by simp [Event.isPlain]⟩

end Sys2Proof.Machine
end

