-- ==== Sys2Proof/Tests/Slice0.lean ====
section
/-! SUPPORT. Own tests: ill-formed terms the checks refuse, decoding by words written out from the spec, one or two steps an instruction from 95_test_vectors.md and the rules' examples, and a witness for the hypotheses of every statement. -/

namespace Sys2Proof.Tests
open Sys2Proof.Machine

/-! ## WellFormed smoke test: an ill-formed term for each check (00_scope.md R5, R6) -/

theorem test_hinted_wf : Config.hinted.wf = true := by decide
theorem test_wf_refuses_no_direction : { Config.hinted with nDir := 0 }.wf = false := by decide
theorem test_wf_refuses_small_capacity : { Config.hinted with cap := 3 }.wf = false := by decide
theorem test_wf_refuses_no_counter : { Config.hinted with cntW := 0 }.wf = false := by decide
theorem test_wf_refuses_equal_inits : { Config.hinted with init2Code := 0xF0 }.wf = false := by decide
theorem test_wf_refuses_init1_keepalive : { Config.hinted with init1Code := 0x0B }.wf = false := by decide
theorem test_wf_refuses_init1_pwk : { Config.hinted with init1Code := 0xA0 }.wf = false := by decide
theorem test_wf_refuses_init2_keepalive : { Config.hinted with init2Code := 0x0B }.wf = false := by decide
theorem test_wf_refuses_init2_pwk : { Config.hinted with init2Code := 0xA0 }.wf = false := by decide
theorem test_wf_refuses_no_pins : { Config.hinted with nPins := 0 }.wf = false := by decide
theorem test_wf_refuses_narrow_pin_number : { Config.hinted with pinW := 4 }.wf = false := by decide
theorem test_wf_refuses_absent_pwk_pin : { Config.hinted with pwkPin := 32 }.wf = false := by decide
theorem test_wf_refuses_absent_fixed_pin :
    { Config.hinted with initWriteTarget := .fixedPin, fixedPin := 32 }.wf = false := by decide
theorem test_wf_refuses_missing_binding : { Config.hinted with bindings := [⟨0, 1⟩] }.wf = false := by decide

theorem test_wf_refuses_direction : Instr.wf .hinted (.keepalive 2) = false := by decide
theorem test_wf_refuses_named_code : Instr.wf .hinted (.fwd 0 0xF1) = false := by decide
theorem test_wf_refuses_wide_error : Instr.wf .hinted (.invalidRdErr 0 256) = false := by decide
theorem test_wf_refuses_wide_operand : Instr.wf .hinted (.exportPin 32) = false := by decide
theorem test_wf_refuses_wide_event_pin : Instr.wf .hinted (.sample 32 true) = false := by decide
theorem test_wf_refuses_named_forwardable : Instr.wf .hinted (.resolve 0 (.forwardable 0x0B)) = false := by decide

/-! ## Decoding: words written out from 30_encoding.md (R66 to R74), 40_frame_reader.md R93, R94, 42_gpio.md R149 -/

theorem test_decode_keepalive : decode .hinted (.frame 0 [0xFE, 0x0B, 0x55, 0x66, 0xFD]) = .ok (.keepalive 0) := by
  decide
theorem test_decode_init1 : decode .hinted (.frame 1 [0xFE, 0xF0, 0xFD]) = .ok (.init1 1) := by decide
theorem test_decode_init2 : decode .hinted (.frame 0 [0xFE, 0xF1, 0xFD]) = .ok (.init2 0) := by decide
theorem test_decode_init1_not_hinted :
    decode { Config.hinted with init1Code := 0xE0 } (.frame 0 [0xFE, 0xF0, 0xFD]) = .ok (.fwd 0 0xF0) := by decide
theorem test_decode_pwk : decode .hinted (.frame 0 [0xFE, 0xA0, 0x01, 0xFD]) = .ok (.pwk 0) := by decide
theorem test_decode_fwd : decode .hinted (.frame 0 [0xFE, 0x42, 0x01, 0xFD]) = .ok (.fwd 0 0x42) := by decide
theorem test_decode_fwd_degenerate : decode .hinted (.frame 0 [0xFE, 0xFD]) = .ok (.fwd 0 0xFD) := by decide
theorem test_decode_incomplete : decode .hinted (.frame 0 [0xFE]) = .ok (.incomplete 0) := by decide
theorem test_decode_incomplete_trailing : decode .hinted (.frame 0 [0xFE, 0x42, 0xFD, 0x07]) = .ok (.incomplete 0) := by
  decide
theorem test_decode_eos : decode .hinted (.frame 0 [0x00]) = .ok (.eos 0) := by decide
theorem test_decode_invalid : decode .hinted (.frame 0 [0x55, 0xFE, 0x42, 0xFD]) = .ok (.invalid 0) := by decide
theorem test_decode_invalid_two_zeros : decode .hinted (.frame 0 [0x00, 0x00]) = .ok (.invalid 0) := by decide
theorem test_decode_empty_frame : decode .hinted (.frame 0 []) = .error .emptyFrame := by decide
theorem test_decode_eof : decode .hinted (.answer 0 .eof) = .ok (.eof 0) := by decide
theorem test_decode_rderr : decode .hinted (.answer 1 (.err 5)) = .ok (.invalidRdErr 1 5) := by decide
theorem test_decode_bytes_answer : decode .hinted (.answer 0 (.bytes [0xFE])) = .error .bytesNotClassified := by decide
theorem test_decode_ack1 : decode .hinted (.emitted 0 .handshake [0xFE, 0xF0, 0xFD]) = .ok (.ack1 0) := by decide
theorem test_decode_ack2 : decode .hinted (.emitted 0 .init2Action [0xFE, 0xF1, 0xFD]) = .ok (.ack2 0 .init2Action) := by
  decide
theorem test_decode_not_emitted : decode .hinted (.emitted 0 .init2Action [0xFE, 0xF0, 0xFD]) = .error .notEmitted := by
  decide
theorem test_decode_reset : decode .hinted (.command ⟨0x00, 0, 0, true⟩) = .ok .reset := by decide
theorem test_decode_fb_init : decode .hinted (.command ⟨0x01, 1, 0, true⟩) = .ok (.fbInit 1) := by decide
theorem test_decode_fb_destroy : decode .hinted (.command ⟨0x02, 1, 0, true⟩) = .ok (.fbDestroy 1) := by decide
theorem test_decode_cycle : decode .hinted (.command ⟨0x03, 1, 0, true⟩) = .ok (.cycle 1) := by decide
theorem test_decode_rd_status : decode .hinted (.command ⟨0x04, 1, 0, true⟩) = .ok (.rdStatus 1) := by decide
theorem test_decode_export : decode .hinted (.command ⟨0x10, 17, 0, true⟩) = .ok (.exportPin 17) := by decide
theorem test_decode_export_if_absent : decode .hinted (.command ⟨0x11, 17, 0, true⟩) = .ok (.exportIfAbsent 17) := by
  decide
theorem test_decode_set_direction_out : decode .hinted (.command ⟨0x12, 5, 1, true⟩) = .ok (.setDirection 5 .output) := by
  decide
theorem test_decode_set_direction_in : decode .hinted (.command ⟨0x12, 5, 0, true⟩) = .ok (.setDirection 5 .input) := by
  decide
theorem test_decode_set_polarity : decode .hinted (.command ⟨0x13, 17, 1, true⟩) = .ok (.setPolarity 17 true) := by decide
theorem test_decode_set_edge : decode .hinted (.command ⟨0x14, 17, 2, true⟩) = .ok (.setEdge 17 2) := by decide
theorem test_decode_set_edge_3 : decode .hinted (.command ⟨0x14, 17, 3, true⟩) = .ok (.setEdge 17 3) := by decide
theorem test_decode_read_value : decode .hinted (.command ⟨0x15, 31, 0, true⟩) = .ok (.readValue ⟨true, 31⟩) := by decide
theorem test_decode_write_value : decode .hinted (.command ⟨0x16, 5, 1, true⟩) = .ok (.writeValue 5 true) := by decide
theorem test_decode_poll : decode .hinted (.command ⟨0x17, 17, 0, true⟩) = .ok (.poll ⟨true, 17⟩) := by decide
theorem test_decode_wait_edge_sentinel : decode .hinted (.command ⟨0x18, 31, 0, false⟩) = .ok (.waitEdge ⟨false, 31⟩) := by
  decide
theorem test_decode_init_sensor : decode .hinted (.command ⟨0x20, 0, 0, true⟩) = .ok .initPowerKeySensor := by decide
theorem test_decode_init_output : decode .hinted (.command ⟨0x21, 5, 0, true⟩) = .ok (.initOutputPin 5) := by decide
theorem test_decode_set_pin : decode .hinted (.command ⟨0x22, 6, 1, true⟩) = .ok (.setPin 6 true) := by decide
theorem test_decode_sample : decode .hinted (.event 17 true) = .ok (.sample 17 true) := by decide
theorem test_decode_unknown : decode .hinted (.command ⟨0x05, 0, 0, true⟩) = .error (.unknownCommand 0x05) := by decide
theorem test_decode_value_2 : decode .hinted (.command ⟨0x22, 6, 2, true⟩) = .error (.notOneBit 2) := by decide
theorem test_decode_wide_pin : decode .hinted (.command ⟨0x10, 32, 0, true⟩) = .error (.operandTooWide 32) := by decide
theorem test_decode_no_direction : decode .hinted (.frame 2 [0x00]) = .error (.noSuchDirection 2) := by decide

/-- The opcode table's words: a command, a frame key and an emitted frame. -/
theorem test_table_words : decodeTableWord 8 0x21 = some (.initOutputPin 0) ∧
    decodeTableWord 16 0xFEA0 = some (.pwk 0) ∧ decodeTableWord 24 0xFEF1FD = some (.ack2 0 .handshake) := by decide

/-- The status port of 30_encoding.md R72: Keepalive and PanelPowerKey. -/
theorem test_status_port : FrameTypeCode.statusPort .hinted .keepalive = 0x40B ∧
    FrameTypeCode.statusPort .hinted .panelPowerKey = 0x7A0 := by decide

/-! ## Steps: a live machine 0 with bytes buffered, and pin 17 in a given state, under the hinted instantiation -/

/-- A live machine that has accumulated `bs`. -/
def fdcWith (bs : List Byte) : Fdc :=
  { Fdc.reset with alive := true, buf := Memory.fill [] 0 bs, cursor := bs.length }

/-- Machine 0 live with `bs` buffered; the answers of its `IN` and `OUT` channels. -/
def live (bs : List Byte) (reads : List ReadAns) (inW outW : List WriteAns) : State :=
  { State.reset with fdcs := [fdcWith bs, Fdc.reset], chans := [⟨reads, inW⟩, ⟨[], outW⟩] }

/-- Pin 17 as `q`, with the draws to come. -/
def withPin17 (q : Pin) (draws : List Bool) : State :=
  { State.reset with pins := State.reset.pins.set 17 q, draws := draws }

/-- An exported input pin: active-low, falling edge, physical level 0 (42_gpio.md R149's example). -/
def key : Pin := ⟨true, .input, true, .falling, false, false, false⟩

/-- An exported output pin with latch 0. -/
def outPin : Pin := ⟨true, .output, false, .none, false, false, false⟩

/-- A view of the next state, if there is one. -/
def after {α : Type} (o : Host.Outcome State Fault Refusal) (view : State → α) : Option α :=
  match o with
  | .next t => some (view t)
  | .fault _ => none
  | .refused _ => none

/-- What a vector shows of machine 0: the answer, cursor, valid, invalid, write errors, and the writes issued. -/
structure Shown where
  ret : Result
  cursor : Nat
  valid : Nat
  invalid : Nat
  writeErrors : Nat
  writes : List Event
deriving DecidableEq, Repr

/-- The view of a next state that the frame tests take. -/
def shown (t : State) : Shown :=
  ⟨t.ret, (t.fdcD 0).cursor, (t.fdcD 0).valid, (t.fdcD 0).invalid, (t.fdcD 0).writeErrors, writesOf t.history⟩

/-- P4: Keepalive is answered on `IN` with both acknowledgements. -/
theorem test_keepalive : after (exec (.keepalive 0) (live [0xFE, 0x0B, 0x00, 0xFD] [] [.count 3, .count 3] [])) shown =
    some ⟨.code .keepalive, 0, 1, 0, 0, [.chWrite 0 0 [0xFE, 0xF0, 0xFD] (.count 3),
      .chWrite 0 0 [0xFE, 0xF1, 0xFD] (.count 3)]⟩ := by decide

/-- R114's example: the second acknowledgement is short. -/
theorem test_init1_short_ack : after (exec (.init1 0) (live [0xFE, 0xF0, 0xFD] [] [.count 3, .count 0] [])) shown =
    some ⟨.code .init1, 0, 1, 0, 1, [.chWrite 0 0 [0xFE, 0xF0, 0xFD] (.count 3),
      .chWrite 0 0 [0xFE, 0xF1, 0xFD] (.count 0)]⟩ := by decide

/-- R115: one acknowledgement, its failure counted. -/
theorem test_init2_failed_ack : after (exec (.init2 0) (live [0xFE, 0xF1, 0xFD] [] [.err 7] [])) shown =
    some ⟨.code .init2, 0, 1, 0, 1, [.chWrite 0 0 [0xFE, 0xF1, 0xFD] (.err 7)]⟩ := by decide

/-- R116's example: traced, not written. -/
theorem test_pwk : after (exec (.pwk 0) (live [0xFE, 0xA0, 0x01, 0xFD] [] [] [])) (fun t => (shown t, t.history)) =
    some (⟨.code .panelPowerKey, 0, 1, 0, 0, []⟩, [.tracePwk 0 [0xFE, 0xA0, 0x01, 0xFD]]) := by decide

/-- P5: a generic frame is written verbatim to `OUT`. -/
theorem test_fwd : after (exec (.fwd 0 0x42) (live [0xFE, 0x42, 0x01, 0xFD] [] [] [.count 4])) shown =
    some ⟨.code (.forwardable 0x42), 0, 1, 0, 0, [.chWrite 0 1 [0xFE, 0x42, 0x01, 0xFD] (.count 4)]⟩ := by decide

/-- R112: a count larger than the length offered is a failure too. -/
theorem test_fwd_long_count : after (exec (.fwd 0 0x42) (live [0xFE, 0x42, 0xFD] [] [] [.count 4])) shown =
    some ⟨.code (.forwardable 0x42), 0, 1, 0, 1, [.chWrite 0 1 [0xFE, 0x42, 0xFD] (.count 4)]⟩ := by decide

/-- R120's example. -/
theorem test_incomplete : after (exec (.incomplete 0) (live [0xFE, 0x42] [] [] [])) shown =
    some ⟨.code .incomplete, 2, 0, 0, 0, []⟩ := by decide

/-- R118's example. -/
theorem test_eos : after (exec (.eos 0) (live [0x00] [] [] [.count 1])) shown =
    some ⟨.code .endOfStream, 0, 1, 0, 0, [.chWrite 0 1 [0x00] (.count 1)]⟩ := by decide

/-- R121's example. -/
theorem test_invalid : after (exec (.invalid 0) (live [0x55, 0x66] [] [] [])) shown =
    some ⟨.code .invalid, 0, 0, 1, 0, []⟩ := by decide

/-- R119's example: the head of a frame is forwarded. -/
theorem test_eof : after (exec (.eof 0) (live [0xFE, 0x42] [] [] [.count 2])) shown =
    some ⟨.code .endOfFile, 0, 1, 0, 0, [.chWrite 0 1 [0xFE, 0x42] (.count 2)]⟩ := by decide

/-- P7: at end of file with nothing buffered the empty write is issued, and taking 0 bytes is no failure. -/
theorem test_eof_empty : after (exec (.eof 0) (live [] [] [] [.count 0])) shown =
    some ⟨.code .endOfFile, 0, 1, 0, 0, [.chWrite 0 1 [] (.count 0)]⟩ := by decide

/-- R94 and R121: the read error is recorded and the buffer discarded. -/
theorem test_invalid_rderr : after (exec (.invalidRdErr 0 5) (live [0xFE] [] [] []))
    (fun t => ((t.fdcD 0).rdErr, (t.fdcD 0).rdErrCode, (t.fdcD 0).cursor, (t.fdcD 0).invalid, t.history)) =
    some (true, 5, 0, 1, [.traceReadError 0 5]) := by decide

/-- R67: `ACK1`, refused by the channel. -/
theorem test_ack1 : after (exec (.ack1 0) (live [] [] [.count 2] [])) shown =
    some ⟨.done, 0, 0, 0, 1, [.chWrite 0 0 [0xFE, 0xF0, 0xFD] (.count 2)]⟩ := by decide

/-- R67: `ACK2`. -/
theorem test_ack2 : after (exec (.ack2 0 .handshake) (live [] [] [.count 3] [])) shown =
    some ⟨.done, 0, 0, 0, 0, [.chWrite 0 0 [0xFE, 0xF1, 0xFD] (.count 3)]⟩ := by decide

/-- R115 with `INIT2_COUNTS_WERR` false: the failure of the Init2 action's acknowledgement is not counted. -/
theorem test_ack2_uncounted :
    after (exec (.ack2 0 .init2Action) { live [] [] [.err 1] [] with cfg := { Config.hinted with init2CountsWerr := false } })
      (fun t => (t.fdcD 0).writeErrors) = some 0 := by decide

/-- R220. -/
theorem test_reset : after (exec .reset { live [0xFE] [] [] [] with pins := State.reset.pins.set 17 key })
    (fun t => ((t.fdcD 0).alive, (t.fdcD 0).cursor, (t.pin? 17).map (·.exported), (t.pin? 17).map (·.edge))) =
    some (false, 0, some false, some .none) := by decide

/-- R180's example: after a fault. -/
theorem test_fb_init : after (exec (.fbInit 0) { State.reset with fdcs := [{ fdcWith [0xFE] with faultFull := true, valid := 3 },
    Fdc.reset] }) (fun t => ((t.fdcD 0).faultFull, (t.fdcD 0).cursor, (t.fdcD 0).valid, (t.fdcD 0).alive)) =
    some (false, 0, 0, true) := by decide

/-- R181's example: then a cycle is refused. -/
theorem test_fb_destroy : after (exec (.fbDestroy 0) (live [0xFE] [] [] [])) (fun t => after (exec (.cycle 0) t) (·.ret)) =
    some (some .refused) := by decide

/-- V2's last read: the Keepalive is complete. -/
theorem test_cycle : after (exec (.cycle 0) (live [0xFE, 0x0B, 0x00] [.bytes [0xFD]] [.count 3, .count 3] [])) shown =
    some ⟨.code .keepalive, 0, 1, 0, 0, [.chWrite 0 0 [0xFE, 0xF0, 0xFD] (.count 3),
      .chWrite 0 0 [0xFE, 0xF1, 0xFD] (.count 3)]⟩ := by decide

/-- R98: the read that fills the buffer and leaves it Incomplete. -/
theorem test_cycle_capacity : after (exec (.cycle 0) (live (0xFE :: List.replicate 14 0x42) [.bytes [0x07]] [] []))
    (fun t => (t.ret, (t.fdcD 0).cursor, (t.fdcD 0).faultFull)) = some (.code .incomplete, 16, true) := by decide

/-- R182's example, after a Keepalive. -/
theorem test_rd_status : after (exec (.rdStatus 0) { live [] [] [] [] with fdcs := [{ fdcWith [] with valid := 1 }, Fdc.reset] })
    (·.ret) = some (.status ⟨true, 0, 1, 0, 0, false, 0, false⟩) := by decide

/-- R142's example. -/
theorem test_export : after (exec (.exportPin 17) { State.reset with draws := [true] }) (fun t => (t.ret, t.pin? 17)) =
    some (.ok, some ⟨true, .input, false, .none, false, false, false⟩) := by decide

/-- R141 (b): the draw fails it. -/
theorem test_export_draw_0 : after (exec (.exportPin 17) { State.reset with draws := [false] })
    (fun t => (t.ret, (t.pin? 17).map (·.exported))) = some (.fail, some false) := by decide

/-- P8: a second export changes nothing, not even a pending edge. -/
theorem test_export_if_absent : after (exec (.exportIfAbsent 17) (withPin17 { key with edgePending := true } []))
    (fun t => (t.ret, t.pin? 17)) = some (.ok, some { key with edgePending := true }) := by decide

/-- R144: the latch is cleared by `out`, the pending flag by either direction. -/
theorem test_set_direction : after (exec (.setDirection 17 .output) (withPin17 { key with edgePending := true, outLatch := true }
    [true])) (fun t => t.pin? 17) = some (some { key with dir := .output }) := by decide

/-- R145: a change of polarity is no edge and drops a pending one. -/
theorem test_set_polarity : after (exec (.setPolarity 17 false) (withPin17 { key with edgePending := true } [true]))
    (fun t => t.pin? 17) = some (some { key with activeLow := false }) := by decide

/-- R146. -/
theorem test_set_edge : after (exec (.setEdge 17 1) (withPin17 key [true])) (fun t => (t.ret, t.pin? 17)) =
    some (.ok, some { key with edge := .rising }) := by decide

/-- R146: code 3 fails without a draw. -/
theorem test_set_edge_3 : after (exec (.setEdge 17 3) (withPin17 key [true])) (fun t => (t.ret, t.pin? 17, t.draws)) =
    some (.fail, some key, [true]) := by decide

/-- R147's example: an active-low input at physical level 0 reads 1. -/
theorem test_read_value : after (exec (.readValue ⟨true, 17⟩) (withPin17 key [true])) (·.ret) = some (.value true) := by decide

/-- R155: with the sentinel handle it fails and draws nothing. -/
theorem test_read_value_sentinel : after (exec (.readValue ⟨false, 17⟩) (withPin17 key [true])) (fun t => (t.ret, t.draws)) =
    some (.fail, [true]) := by decide

/-- R148's example, on an output pin. -/
theorem test_write_value : after (exec (.writeValue 17 true) (withPin17 outPin [true]))
    (fun t => (t.ret, (t.pin? 17).map (·.outLatch))) = some (.ok, some true) := by decide

/-- R148's example, on the input pin 17. -/
theorem test_write_value_input : after (exec (.writeValue 17 true) (withPin17 key [true])) (·.ret) = some .fail := by decide

/-- R149's example: physical low to high is the falling logical edge of an active-low pin. -/
theorem test_sample : after (exec (.sample 17 true) (withPin17 key [])) (fun t => (t.pin? 17).map (·.edgePending)) =
    some (some true) := by decide

/-- R157: with `EDGE_SENSE = PHYSICAL` the same transition is rising and not the selected one. -/
theorem test_sample_physical :
    after (exec (.sample 17 true) { withPin17 key [] with cfg := { Config.hinted with edgeSense := .physical } })
      (fun t => (t.pin? 17).map (fun q => (q.line, q.edgePending))) = some (some (true, false)) := by decide

/-- R150's example. -/
theorem test_poll : after (exec (.poll ⟨true, 17⟩) (withPin17 { key with edgePending := true } []))
    (fun t => (t.ret, (t.pin? 17).map (·.edgePending))) = some (.value true, some false) := by decide

/-- R151: an edge already pending ends the wait at once. -/
theorem test_wait_edge : after (exec (.waitEdge ⟨true, 17⟩) (withPin17 { key with edgePending := true } []))
    (fun t => (t.ret, (t.pin? 17).map (·.edgePending))) = some (.ok, some false) := by decide

/-- R151: with none pending it holds. -/
theorem test_wait_edge_holds : after (exec (.waitEdge ⟨true, 17⟩) (withPin17 key [])) (·.ret) = some .held := by decide

/-- R152's example. -/
theorem test_init_sensor : after (exec .initPowerKeySensor { State.reset with draws := [true, true, true, true, true] })
    (fun t => (t.ret, t.pin? 17)) = some (.handle ⟨true, 17⟩, some key) := by decide

/-- R152's example: the first draw fails. -/
theorem test_init_sensor_fails : after (exec .initPowerKeySensor { State.reset with draws := [false] })
    (fun t => (t.ret, (t.pin? 17).map (·.exported))) = some (.handle ⟨false, 31⟩, some false) := by decide

/-- R153's example. -/
theorem test_init_output : after (exec (.initOutputPin 5) { State.reset with draws := [true, true, true] })
    (fun t => (t.ret, t.pin? 5)) = some (.ok, some outPin) := by decide

/-- R154's examples. -/
theorem test_set_pin : after (exec (.setPin 17 true) (withPin17 outPin [true])) (fun t => (t.ret, (t.pin? 17).map (·.outLatch))) =
    some (.count 0, some true) := by decide

theorem test_set_pin_unexported : after (exec (.setPin 6 true) State.reset) (·.ret) = some (.count 1) := by decide

/-- R90's example. -/
theorem test_read_into : after (exec (.readInto 0) (live [] [.bytes [0xFE, 0x42, 0x01, 0xFD]] [] []))
    (fun t => (t.ret, (t.fdcD 0).cursor, t.frame 0)) =
    some (.code (.forwardable 0x42), 4, [0xFE, 0x42, 0x01, 0xFD]) := by decide

/-- R111. -/
theorem test_resolve : after (exec (.resolve 0 .invalid) (live [0x55] [] [] [])) shown = some ⟨.done, 0, 0, 1, 0, []⟩ := by
  decide

/-- A step runs the next command of the context whose turn it is, and a held one stays offered (R184). -/
theorem test_step : after (step { live [] [] [] [] with frameQ := [⟨0x03, 0, 0, true⟩], turns := [.frameHost] })
    (fun t => (t.ret, t.frameQ, t.turns)) = some (.held, [⟨0x03, 0, 0, true⟩], []) := by decide

/-- R220: the reset input is taken while both contexts wait on held commands, which stay offered. -/
theorem test_reset_input :
    after (step { live [0xFE] [] [] [] with
        frameQ := [⟨0x03, 0, 0, true⟩]
        gedQ := [⟨0x18, 17, 0, true⟩]
        turns := [.resetInput] })
      (fun t => (t.ret, (t.fdcD 0).alive, t.frameQ.length, t.gedQ.length)) = some (.done, false, 1, 1) := by decide

/-- R186: a run that ended with `FB_DESTROY` is over, and was complete. -/
theorem test_runs_ended :
    ({ State.reset with history := [.finished .frameHost (.fbInit 0) .done,
        .chRead 0 0 16 .eof, .finished .frameHost (.cycle 0) (.code .endOfFile),
        .finished .frameHost (.fbDestroy 0) .done] } : State).runs 0 = ⟨none, [⟨some .endOfFile, false, false⟩]⟩ := by
  decide

/-- An opcode-table word placed at reset runs in the next step (log entry 22). -/
theorem test_with_fetch_word : after (step (State.reset.withFetchWord 16 0xFEA0)) (·.ret) = some (.code .panelPowerKey) := by
  decide

/-! ## Witnesses: for each statement with hypotheses, a state and operands that meet them together -/

theorem live_ready (bs : List Byte) (reads : List ReadAns) (inW outW : List WriteAns) :
    (live bs reads inW outW).Ready 0 (fdcWith bs) := ⟨⟨rfl, rfl⟩, rfl⟩

theorem witness_DecodeOfEncodeIsIdentity : Config.hinted.wf = true ∧ Instr.wf .hinted (.setPin 31 true) = true ∧
    encode .hinted (.setPin 31 true) = some (.command ⟨0x22, 31, 1, true⟩) ∧
    Instr.wf .hinted (.invalidRdErr 1 255) = true ∧
    encode .hinted (.invalidRdErr 1 255) = some (.answer 1 (.err 255)) := by decide

theorem witness_OnlyListedCommandsDecode : Config.hinted.fitsA 31 = true ∧
    decode .hinted (.command ⟨0x23, 31, 3, false⟩) = .error (.unknownCommand 0x23) ∧
    decode .hinted (.command ⟨0x18, 31, 3, false⟩) = .ok (.waitEdge ⟨false, 31⟩) ∧
    decode .hinted (.command ⟨0x12, 31, 1, false⟩) = .ok (.setDirection 31 .output) ∧
    decode .hinted (.command ⟨0x16, 31, 3, true⟩) = .error (.notOneBit 3) := by decide

theorem witness_FramesClassifyByTypeByte : Config.hinted.wf = true ∧
    ((0xFD : Byte) ≠ 0x0B ∧ (0xFD : Byte) ≠ Config.hinted.init1Code ∧ (0xFD : Byte) ≠ Config.hinted.init2Code ∧
      (0xFD : Byte) ≠ 0xA0) := by decide

theorem witness_ClassificationHasThreeCases : ([0xFE, 0xFD] : List Byte) ≠ [] ∧
    ([0xFE, 0xFD] : List Byte).head? = some 0xFE ∧ 2 ≤ ([0xFE, 0xFD] : List Byte).length ∧
    ([0xFE, 0xFD] : List Byte).getLast? = some 0xFD ∧ ([0xFE, 0xFD] : List Byte)[1]? = some 0xFD := by decide

theorem witness_StatusPortTellsCodesApart : Config.hinted.wf = true ∧
    FrameTypeCode.statusPort .hinted (.forwardable 0x0B) = 0x80B := by decide

/-- A host that offers a status read on its frame-path context. -/
def asking : State := { State.reset with frameQ := [⟨0x04, 1, 0, true⟩], turns := [.frameHost] }

theorem witness_StepRunsTheDecodedItem : asking.cfg.wf = true ∧ asking.turns = .frameHost :: [] ∧
    asking.offered .frameHost = some (.command ⟨0x04, 1, 0, true⟩) ∧
    decode asking.cfg (.command ⟨0x04, 1, 0, true⟩) = .ok (.rdStatus 1) ∧
    after (exec (.rdStatus 1) { asking with turns := [] }) (·.ret) =
      some (.status ⟨false, 0, 0, 0, 0, false, 0, false⟩) := by decide

/-- A cycle whose channel data hold a read of no bytes, which is no answer of the interface (U4). -/
def illShaped : State :=
  { live [] [.bytes []] [] [] with frameQ := [⟨0x03, 0, 0, true⟩], turns := [.frameHost] }

theorem witness_StepRunsTheDecodedItem_refused : illShaped.cfg.wf = true ∧
    illShaped.turns = .frameHost :: [] ∧ illShaped.offered .frameHost = some (.command ⟨0x03, 0, 0, true⟩) ∧
    decode illShaped.cfg (.command ⟨0x03, 0, 0, true⟩) = .ok (.cycle 0) ∧
    exec (.cycle 0) { illShaped with turns := [] } = .refused .notAnAnswer :=
  ⟨by decide, by decide, by decide, by decide, rfl⟩

theorem witness_StepRefusesRejectedItems :
    let s := { asking with frameQ := [⟨0x05, 0, 0, true⟩] }
    (s.cfg.wf = true ∧ s.turns = .frameHost :: [] ∧ s.offered .frameHost = some (.command ⟨0x05, 0, 0, true⟩) ∧
      decode s.cfg (.command ⟨0x05, 0, 0, true⟩) = .error (.unknownCommand 0x05)) ∧
    (asking.cfg.wf = true ∧ { asking with turns := [.gedHost] }.turns = .gedHost :: [] ∧
      { asking with turns := [.gedHost] }.offered .gedHost = none) ∧
    State.reset.turns = [] := by decide

theorem witness_HeldOperationsChangeNothing : after (exec (.cycle 0) (live [] [] [] [])) (·.ret) = some .held := by
  decide

theorem witness_RefusedOperationsChangeNothing : after (exec (.cycle 0) State.reset) (·.ret) = some .refused := by
  decide

/-- The read phase of `CYCLE(0)` meets `Bytes` with no bytes. -/
theorem witness_NoConditionStopsTheBlock : exec (.cycle 0) illShaped = .refused .notAnAnswer ∧
    step illShaped = .refused .notAnAnswer ∧ illShaped.MeetsNoAnswer 0 ∧ { Config.hinted with cap := 3 }.wf = false ∧
    step { State.reset with cfg := { Config.hinted with cap := 3 } } = .refused .badConfiguration :=
  ⟨rfl, rfl, ⟨fdcWith [], ⟨rfl, rfl⟩, .inl ⟨.bytes [], by decide, rfl⟩⟩, by decide, rfl⟩

theorem witness_CycleReadsThenDispatches :
    after (exec (.readInto 0) (live [] [.bytes [0xFE, 0x42, 0xFD]] [] [])) (·.ret) =
      some (.code (.forwardable 0x42)) := by decide

/-- At the boundary: the read fills the buffer. -/
theorem witness_ReadPhaseStoresTheBytes :
    let s := live [0xFE, 0x42] [.bytes (List.replicate 14 0x07)] [] []
    s.Ready 0 (fdcWith [0xFE, 0x42]) ∧ (fdcWith [0xFE, 0x42]).buf.wf = true ∧
    (s.chan (s.inCh 0)).reads = .bytes (List.replicate 14 0x07) :: [] ∧
    1 ≤ (List.replicate 14 (0x07 : Byte)).length ∧
    (List.replicate 14 (0x07 : Byte)).length ≤ s.cfg.cap - (fdcWith [0xFE, 0x42]).cursor :=
  ⟨live_ready _ _ _ _, by decide, by decide, by decide, by decide⟩

theorem witness_ReadPhaseAtEndOfFile :
    let s := live [0xFE] [.eof] [] []
    s.Ready 0 (fdcWith [0xFE]) ∧ (s.chan (s.inCh 0)).reads = .eof :: [] := ⟨live_ready _ _ _ _, by decide⟩

theorem witness_ReadPhaseRecordsReadError :
    let s := live [0xFE] [.err 255] [] []
    s.Ready 0 (fdcWith [0xFE]) ∧ 255 < 2 ^ s.cfg.errW ∧ (s.chan (s.inCh 0)).reads = .err 255 :: [] :=
  ⟨live_ready _ _ _ _, by decide, by decide⟩

theorem witness_CapacityExhaustionLatches :
    let pre := 0xFE :: List.replicate 14 (0x42 : Byte)
    let s := live pre [.bytes [0x07]] [] []
    let faulted : State := { s with fdcs := [{ fdcWith pre with faultFull := true }, Fdc.reset] }
    (s.Ready 0 (fdcWith pre) ∧ (fdcWith pre).buf.wf = true ∧ (s.chan (s.inCh 0)).reads = .bytes [0x07] :: [] ∧
      1 ≤ ([0x07] : List Byte).length ∧ (fdcWith pre).cursor + ([0x07] : List Byte).length = s.cfg.cap ∧
      classify s.cfg ((fdcWith pre).content ++ [0x07]) = .incomplete) ∧
    faulted.fdc? 0 = some { fdcWith pre with faultFull := true } ∧
    after (exec (.resolve 0 .incomplete) faulted) (·.ret) = some .done ∧
    after (exec (.fbDestroy 0) faulted) (fun t => after (exec (.cycle 0) t) (·.ret)) = some (some .refused) :=
  ⟨⟨live_ready _ _ _ _, by decide, by decide, by decide, by decide, by decide⟩, rfl, by decide, by decide⟩

/-- A live machine 0 whose writes are all answered, one of them with an error. -/
def answered (bs : List Byte) (reads : List ReadAns) : State := live bs reads [.count 3, .err 255] [.count 0]

theorem answered_writes (bs : List Byte) (reads : List ReadAns) :
    ((answered bs reads).chan ((answered bs reads).inCh 0)).writes = .count 3 :: .err 255 :: [] ∧
    ((answered bs reads).chan ((answered bs reads).outCh 0)).writes = .count 0 :: [] ∧
    (WriteAns.count 3).fits (answered bs reads).cfg = true ∧
    (WriteAns.err 255).fits (answered bs reads).cfg = true ∧
    (WriteAns.count 0).fits (answered bs reads).cfg = true := ⟨rfl, rfl, rfl, rfl, rfl⟩

theorem witness_KeepaliveAndInit1Handshake :
    let s := answered [0xFE, 0x0B, 0x00, 0xFD] []
    s.Alive 0 (fdcWith [0xFE, 0x0B, 0x00, 0xFD]) ∧ (s.chan (s.inCh 0)).writes = .count 3 :: .err 255 :: [] ∧
    (WriteAns.count 3).fits s.cfg = true ∧ (WriteAns.err 255).fits s.cfg = true :=
  ⟨(live_ready _ _ _ _).1, (answered_writes _ _).1, (answered_writes _ _).2.2.1, (answered_writes _ _).2.2.2.1⟩

theorem witness_Init2AcknowledgesOnce :
    let s := live [0xFE, 0xF1, 0xFD] [] [.err 0] []
    s.Alive 0 (fdcWith [0xFE, 0xF1, 0xFD]) ∧ (s.chan (s.inCh 0)).writes = .err 0 :: [] ∧
    (WriteAns.err 0).fits s.cfg = true := ⟨(live_ready _ _ _ _).1, by decide, by decide⟩

theorem witness_PanelPowerKeyIsSwallowed :
    (live [0xFE, 0xA0, 0x01, 0xFD] [] [] []).Alive 0 (fdcWith [0xFE, 0xA0, 0x01, 0xFD]) := (live_ready _ _ _ _).1

/-- At the boundary: nothing buffered, and the empty write is not taken at all. -/
theorem witness_ForwardedVerbatim :
    let s := answered [] []
    s.Alive 0 (fdcWith []) ∧ (s.chan (s.outCh 0)).writes = .count 0 :: [] ∧ (WriteAns.count 0).fits s.cfg = true :=
  ⟨(live_ready _ _ _ _).1, (answered_writes _ _).2.1, (answered_writes _ _).2.2.2.2⟩

theorem witness_IncompleteAndInvalid : (live [0x55] [] [] []).Alive 0 (fdcWith [0x55]) := (live_ready _ _ _ _).1

theorem witness_AcknowledgementsAreFixedFrames :
    let s := answered [] []
    s.Alive 0 (fdcWith []) ∧ (s.chan (s.inCh 0)).writes = .count 3 :: .err 255 :: [] ∧
    (WriteAns.count 3).fits s.cfg = true :=
  ⟨(live_ready _ _ _ _).1, (answered_writes _ _).1, (answered_writes _ _).2.2.1⟩

theorem witness_ResolveSelectsOneArm :
    let s := answered [0xFE, 0x42, 0xFD] []
    s.Alive 0 (fdcWith [0xFE, 0x42, 0xFD]) ∧ (s.chan (s.inCh 0)).writes = .count 3 :: .err 255 :: [] ∧
    (s.chan (s.outCh 0)).writes = .count 0 :: [] ∧ (WriteAns.count 3).fits s.cfg = true ∧
    (WriteAns.err 255).fits s.cfg = true ∧ (WriteAns.count 0).fits s.cfg = true :=
  ⟨(live_ready _ _ _ _).1, answered_writes _ _⟩

theorem witness_AnsweredCycleCompletes : ∀ a ∈ [ReadAns.bytes [0xFD], .eof, .err 255],
    let s := answered [0xFE, 0x42] [a]
    s.Ready 0 (fdcWith [0xFE, 0x42]) ∧ (fdcWith [0xFE, 0x42]).buf.wf = true ∧ (s.chan (s.inCh 0)).reads = a :: [] ∧
    a.fits s.cfg (s.cfg.cap - (fdcWith [0xFE, 0x42]).cursor) = true ∧
    (s.chan (s.inCh 0)).writes = .count 3 :: .err 255 :: [] ∧ (s.chan (s.outCh 0)).writes = .count 0 :: [] ∧
    (WriteAns.count 3).fits s.cfg = true ∧ (WriteAns.err 255).fits s.cfg = true ∧
    (WriteAns.count 0).fits s.cfg = true := by
  intro a ha
  refine ⟨live_ready _ _ _ _, by decide, rfl, ?_, answered_writes _ _⟩
  revert a
  decide

theorem witness_CycleStoresOnlyWhatItRead : ∀ a ∈ [ReadAns.bytes [0x42, 0x07], .eof, .err 255],
    let s := answered [0xFE] [a]
    s.Ready 0 (fdcWith [0xFE]) ∧ (fdcWith [0xFE]).buf.wf = true ∧ (s.chan (s.inCh 0)).reads = a :: [] ∧
    after (exec (.cycle 0) s) (·.ret) ∈
      [some (.code .incomplete), some (.code .endOfFile), some (.code .invalid)] := by
  intro a ha
  refine ⟨live_ready _ _ _ _, by decide, rfl, ?_⟩
  revert a
  decide

/-- A cycle that returns Incomplete, and one that returns Forwardable with a failed write. -/
theorem witness_CyclePostcondition_CounterLaw_OneReadAtMostTwoWrites :
    (answered [0xFE] [.bytes [0x42]]).fdc? 0 = some (fdcWith [0xFE]) ∧
    (fdcWith [0xFE]).writeErrors < 2 ^ (answered [0xFE] [.bytes [0x42]]).cfg.cntW ∧
    after (exec (.cycle 0) (answered [0xFE] [.bytes [0x42]])) (·.ret) = some (.code .incomplete) ∧
    after (exec (.cycle 0) (answered [0xFE] [.bytes [0x42, 0xFD]])) (·.ret) = some (.code (.forwardable 0x42)) := by
  decide

/-- Each kind of write waiting: the second acknowledgement, the only one, and a forward at end of file. -/
theorem witness_CycleRefusedOrHeld_writes :
    ((live [0xFE, 0x0B] [.bytes [0xFD]] [.err 255] []).Ready 0 (fdcWith [0xFE, 0x0B]) ∧
      (fdcWith [0xFE, 0x0B]).buf.wf = true ∧ classify .hinted ((fdcWith [0xFE, 0x0B]).content ++ [0xFD]) = .keepalive ∧
      (live [0xFE, 0x0B] [.bytes [0xFD]] [.err 255] []).LacksWriteAnswer 0 .keepalive) ∧
    ((live [0xFE, 0xF1, 0xFD] [] [] [.count 3]).Alive 0 (fdcWith [0xFE, 0xF1, 0xFD]) ∧
      (live [0xFE, 0xF1, 0xFD] [] [] [.count 3]).LacksWriteAnswer 0 .init2) ∧
    ((live [] [.eof] [.count 3] []).Ready 0 (fdcWith []) ∧ (live [] [.eof] [.count 3] []).LacksWriteAnswer 0 .endOfFile) ∧
    (live [] [] [] []).Alive 0 (fdcWith []) ∧ ((live [] [] [] []).chan ((live [] [] [] []).inCh 0)).writes = [] :=
  ⟨⟨live_ready _ _ _ _, by decide, by decide, .inr ⟨.err 255, by decide, rfl⟩⟩, ⟨(live_ready _ _ _ _).1, rfl⟩,
    ⟨live_ready _ _ _ _, rfl⟩, (live_ready _ _ _ _).1, rfl⟩

theorem witness_CycleRefusedOrHeld : (∀ f : Fdc, ¬ State.reset.Ready 0 f) ∧ (∀ f : Fdc, ¬ State.reset.Ready 2 f) ∧
    (live [] [] [] []).Ready 0 (fdcWith []) ∧ ((live [] [] [] []).chan ((live [] [] [] []).inCh 0)).reads = [] := by
  refine ⟨fun f h => ?_, fun f h => ?_, live_ready _ _ _ _, by decide⟩
  · have h1 : State.reset.fdc? 0 = some Fdc.reset := by decide
    have h2 := Option.some.inj (h1.symm.trans h.1.1)
    have h3 := h.1.2
    rw [← h2] at h3
    exact absurd h3 (by decide)
  · have h1 : State.reset.fdc? 2 = none := by decide
    exact absurd (h1.symm.trans h.1.1) (by simp)

theorem witness_LifetimeOperations : State.reset.fdc? 1 = some Fdc.reset ∧ (live [0xFE] [] [] []).Alive 0 (fdcWith [0xFE]) ∧
    State.reset.cfg.nDir ≤ 2 ∧ ∀ f : Fdc, ¬ State.reset.Alive 0 f := by
  refine ⟨by decide, (live_ready _ _ _ _).1, by decide, fun f h => ?_⟩
  have h1 : State.reset.fdc? 0 = some Fdc.reset := by decide
  have h2 := Option.some.inj (h1.symm.trans h.1)
  have h3 := h.2
  rw [← h2] at h3
  exact absurd h3 (by decide)

theorem witness_StatusReadsChangeNothing : State.reset.fdc? 1 = some Fdc.reset ∧ State.reset.cfg.nDir ≤ 2 := by decide

theorem witness_ResetClearsMachinesAndPins : (live [0xFE] [] [] []).fdc? 0 = some (fdcWith [0xFE]) ∧
    (withPin17 key []).pin? 17 = some key := by decide

theorem witness_ResetValues : 1 < Config.hinted.nDir ∧ 31 < Config.hinted.nPins := by decide

theorem key_exported (draws : List Bool) : (withPin17 key draws).Exported 17 key := ⟨rfl, rfl⟩

theorem outPin_exported (draws : List Bool) : (withPin17 outPin draws).Exported 17 outPin := ⟨rfl, rfl⟩

theorem not_exported_5 (q : Pin) : ¬ State.reset.Exported 5 q := by
  intro h
  have h1 : State.reset.pin? 5 = some Pin.reset := by decide
  have h2 := Option.some.inj (h1.symm.trans h.1)
  have h3 := h.2
  rw [← h2] at h3
  exact absurd h3 (by decide)

theorem not_exported_32 (q : Pin) : ¬ State.reset.Exported 32 q := by
  intro h
  have h1 : State.reset.pin? 32 = none := by decide
  exact absurd (h1.symm.trans h.1) (by simp)

theorem witness_ExportSetsDefaults :
    ({ State.reset with draws := [true] }.pin? 31 = some Pin.reset ∧ Pin.reset.exported = false ∧
      { State.reset with draws := [true] }.draws = true :: []) ∧
    { State.reset with draws := [false] }.draws = false :: [] ∧ (withPin17 key []).pin? 17 = some key ∧
    key.exported = true ∧ State.reset.cfg.nPins ≤ 32 := by decide

theorem witness_ExportIfAbsentIsIdempotent : (withPin17 key []).Exported 17 key ∧
    (State.reset.pin? 5 = some Pin.reset ∧ Pin.reset.exported = false) ∧ State.reset.cfg.nPins ≤ 32 :=
  ⟨key_exported _, by decide, by decide⟩

theorem witness_ConfigurationPrimitives :
    ((withPin17 key [true]).Exported 17 key ∧ (withPin17 key [true]).draws = true :: []) ∧
    ((withPin17 key [false]).Exported 17 key ∧ (withPin17 key [false]).draws = false :: [] ∧ (2 : BitVec 2) ≠ 3) ∧
    (∀ q : Pin, ¬ State.reset.Exported 5 q) ∧ ∀ q : Pin, ¬ State.reset.Exported 32 q :=
  ⟨⟨key_exported _, rfl⟩, ⟨key_exported _, rfl, by decide⟩, not_exported_5, not_exported_32⟩

theorem witness_ValuePrimitives :
    ((withPin17 outPin [true]).Exported 17 outPin ∧ (withPin17 outPin [true]).draws = true :: [] ∧
      outPin.dir = .output) ∧
    ((withPin17 outPin [false]).Exported 17 outPin ∧ (withPin17 outPin [false]).draws = false :: []) ∧
    ((withPin17 key []).Exported 17 key ∧ key.dir = .input) ∧ ∀ q : Pin, ¬ State.reset.Exported 32 q :=
  ⟨⟨outPin_exported _, rfl, rfl⟩, ⟨outPin_exported _, rfl⟩, ⟨key_exported _, rfl⟩, not_exported_32⟩

/-- No such pin; a draw of 0; edge code 3; a write to an input pin. -/
theorem witness_FailedPrimitivesChangeNoPin :
    after (exec (.exportPin 32) State.reset) (·.ret) = some .fail ∧
    after (exec (.setPolarity 17 true) (withPin17 key [false])) (·.ret) = some .fail ∧
    after (exec (.setEdge 17 3) (withPin17 key [])) (·.ret) = some .fail ∧
    after (exec (.writeValue 17 true) (withPin17 key [])) (·.ret) = some .fail := by decide

theorem witness_SampleDetectsSelectedEdges : (withPin17 key []).pin? 17 = some key ∧
    (((true, false) : Bool × Bool) = (if (withPin17 key []).cfg.edgeSense = .logical
      then (key.line ^^ key.activeLow, true ^^ key.activeLow) else (key.line, true))) ∧
    State.reset.cfg.nPins ≤ 32 := by decide

theorem witness_PollAndWaitConsumeTheEdge :
    (withPin17 { key with edgePending := true } []).Exported 17 { key with edgePending := true } ∧
    ((withPin17 key []).Exported 17 key ∧ key.edgePending = false ∧ key.edgeSeen .logical true = true) ∧
    ((withPin17 { key with edge := .none } []).Exported 17 { key with edge := .none } ∧
      { key with edge := .none }.edgePending = false) ∧ Handle.ok ⟨false, 31⟩ = false ∧
    (Handle.ok ⟨true, 32⟩ = true ∧ ∀ q : Pin, ¬ State.reset.Exported 32 q) :=
  ⟨⟨rfl, rfl⟩, ⟨key_exported _, rfl, rfl⟩, ⟨⟨rfl, rfl⟩, rfl⟩, rfl, rfl, not_exported_32⟩

theorem witness_EdgesMergeIntoOneFlag :
    (withPin17 { key with edgePending := true } []).Exported 17 { key with edgePending := true } ∧
    { key with edgePending := true }.edgePending = true := ⟨⟨rfl, rfl⟩, rfl⟩

theorem witness_SensorInitConfiguresThePin :
    ((withPin17 key [true, true, true, true, false]).pin? (withPin17 key []).cfg.pwkPin = some key ∧
      (withPin17 key [true, true, true, true, false]).draws =
        (if key.exported then [true, true, true, true] else [true, true, true, true, true]) ++ [false]) ∧
    ({ State.reset with draws := [true, true, true, true, true] }.pin? State.reset.cfg.pwkPin = some Pin.reset ∧
      { State.reset with draws := [true, true, true, true, true] }.draws =
        (if Pin.reset.exported then [true, true, true, true] else [true, true, true, true, true]) ++ []) := by decide

/-- The last of the five draws of an absent pin, and the second of the four of an exported one. -/
theorem witness_SensorInitStopsAtFirstFailure :
    let s := { State.reset with draws := [true, true, true, true, false] }
    let left : Pin := ⟨true, .input, true, .falling, false, false, false⟩
    let u := withPin17 outPin [true, false]
    (s.pin? s.cfg.pwkPin = some Pin.reset ∧ Pin.reset.exported = false ∧
      s.draws = List.replicate 4 true ++ false :: [] ∧
      after (exec .initPowerKeySensor s) (fun t => (t.ret, t.pin? 17)) = some (.handle ⟨false, 31⟩, some left)) ∧
    (u.pin? u.cfg.pwkPin = some outPin ∧ outPin.exported = true ∧ u.draws = List.replicate 1 true ++ false :: [] ∧
      after (exec .initPowerKeySensor u) (fun t => (t.ret, t.pin? 17)) =
        some (.handle ⟨false, 31⟩, some ⟨true, .input, false, .none, false, false, false⟩)) := by decide

/-- With the fixed target, pin 4 as `r` and the draws to come. -/
def fixedTarget (r : Pin) (draws : List Bool) : State :=
  { State.reset with
    cfg := { Config.hinted with initWriteTarget := .fixedPin }
    pins := State.reset.pins.set 4 r
    draws := draws }

/-- Pin 5 with the argument as target; with the fixed target, pin 4 itself, an output pin 4, and an unexported one. -/
theorem witness_OutputInitClearsTheLatch :
    ({ State.reset with draws := [true, true, true] }.pin? 5 = some Pin.reset ∧
      State.reset.cfg.initWriteTarget = .argPin ∧
      { State.reset with draws := [true, true, true] }.draws = List.replicate (2 + 1) true ++ []) ∧
    ((fixedTarget outPin [true, true]).pin? 4 = some outPin ∧ (fixedTarget outPin [true, true]).cfg.fixedPin = 4 ∧
      (fixedTarget outPin [true, true]).draws = List.replicate (1 + 1) true ++ []) ∧
    ((fixedTarget outPin [true, true, true]).pin? 5 = some Pin.reset ∧
      (fixedTarget outPin [true, true, true]).cfg.initWriteTarget = .fixedPin ∧ 4 ≠ 5 ∧
      (fixedTarget outPin [true, true, true]).Exported 4 outPin ∧ outPin.dir = .output ∧
      (fixedTarget outPin [true, true, true]).draws = List.replicate (2 + 1) true ++ []) ∧
    (fixedTarget Pin.reset [true, true, true]).pin? 5 = some Pin.reset ∧
      (∀ r : Pin, (fixedTarget Pin.reset [true, true, true]).Exported 4 r → r.dir = .input) ∧
      (fixedTarget Pin.reset [true, true, true]).draws = List.replicate 2 true ++ [true] := by
  refine ⟨by decide, by decide, ⟨by decide, by decide, by decide, ⟨rfl, rfl⟩, by decide, by decide⟩, by decide, fun r h => ?_,
    by decide⟩
  have h1 : (fixedTarget Pin.reset [true, true, true]).pin? 4 = some Pin.reset := by decide
  rw [← Option.some.inj (h1.symm.trans h.1)]
  rfl

/-- V61's failures: the export, the direction of an exported pin, and the initial write of either. -/
theorem witness_OutputInitStopsAtFirstFailure : State.reset.cfg.nPins ≤ 32 ∧
    (let s := { State.reset with draws := [true, false] }
     s.pin? 5 = some Pin.reset ∧ Pin.reset.exported = false ∧ s.draws = List.replicate 1 true ++ false :: [] ∧
       after (exec (.initOutputPin 5) s) (fun t => (t.ret, t.pin? 5)) =
         some (.fail, some ⟨true, .input, false, .none, false, false, false⟩)) ∧
    (let s := withPin17 key [false]
     s.pin? 17 = some key ∧ key.exported = true ∧ s.draws = List.replicate 0 true ++ false :: [] ∧
       after (exec (.initOutputPin 17) s) (fun t => (t.ret, t.pin? 17)) = some (.fail, some key)) ∧
    (let s := fixedTarget outPin [true, true, false]
     s.pin? 5 = some Pin.reset ∧ s.pin? 4 = some outPin ∧ outPin.dir = .output ∧
       s.draws = List.replicate 2 true ++ false :: [] ∧
       after (exec (.initOutputPin 5) s) (fun t => (t.ret, t.pin? 5)) = some (.fail, some outPin)) := by decide

theorem witness_SetPinCountsFailedWrites :
    ((withPin17 outPin [true]).Exported 17 outPin ∧ outPin.dir = .output ∧ (withPin17 outPin [true]).draws = true :: []) ∧
    (withPin17 outPin [false]).draws = false :: [] ∧
    (∀ q : Pin, (withPin17 key []).Exported 17 q → q.dir = .input) ∧
    ∀ q : Pin, State.reset.Exported 32 q → q.dir = .input := by
  refine ⟨⟨outPin_exported _, rfl, rfl⟩, rfl, fun q h => ?_, fun q h => absurd h (not_exported_32 q)⟩
  have h2 := Option.some.inj ((key_exported []).1.symm.trans h.1)
  rw [← h2]
  rfl

/-- A finished sample of an input pin: the pad shows nothing before and after. -/
theorem witness_PadsChangeOnlyByPinOperations : after (exec (.sample 17 true) (withPin17 key [])) (fun t =>
    (t.pin? 17).bind Pin.padOut) = some none := by decide

theorem witness_MachinesAreIsolated_StickyFlagsStay :
    after (exec (.cycle 0) (answered [0xFE] [.bytes [0x42]])) (·.ret) = some (.code .incomplete) ∧
    (answered [0xFE] [.bytes [0x42]]).fdc? 1 = some Fdc.reset ∧
    after (exec (.cycle 0) (live [] [.err 3] [] [])) (fun t => (t.fdcD 0).rdErr) = some true := by decide

theorem witness_DetectorIsIsolated : after (exec (.initOutputPin 5) { State.reset with draws := [true, true, true] })
    (·.ret) = some .ok := by decide

theorem witness_ResetMeetsTheInvariant : Config.hinted.wf = true := by decide

/-- A state between operations that is not the reset state: machine 0 has accumulated `FE 42`. -/
theorem witness_StepKeepsTheInvariant :
    let s := { live [0xFE, 0x42] [.bytes [0xFD]] [] [.count 3] with
      frameQ := [⟨0x03, 0, 0, true⟩], turns := [.frameHost] }
    s.Inv ∧ after (step s) (·.ret) = some (.code (.forwardable 0x42)) := by
  refine ⟨⟨by decide, by decide, by decide, fun f hf => ?_, fun q hq => ?_⟩, by decide⟩
  · simp only [live, List.mem_cons, List.not_mem_nil, or_false] at hf
    rcases hf with rfl | rfl
    · exact ⟨by decide, by decide, by decide, by decide, by decide, by decide, by decide, fun _ => by decide, by decide⟩
    · exact ⟨by decide, by decide, by decide, by decide, by decide, by decide, by decide, fun h => absurd rfl h,
        by decide⟩
  · intro hp
    rw [List.eq_of_mem_replicate hq] at hp
    exact absurd hp (by decide)

/-- `FE 42 01 FD` in three reads, the frame as long as a buffer of 4 bytes. -/
theorem witness_FragmentationInvariance :
    let s := { answered [] [.bytes [0xFE], .bytes [0x42, 0x01], .bytes [0xFD]] with cfg := { Config.hinted with cap := 4 } }
    let frame : List Byte := [0xFE, 0x42, 0x01, 0xFD]
    let chunks : List (List Byte) := [[0xFE], [0x42, 0x01], [0xFD]]
    s.Ready 0 (fdcWith []) ∧ (fdcWith []).buf.wf = true ∧ (fdcWith []).cursor = 0 ∧
    frame.head? = some 0xFE ∧ frame[1]? = some 0x42 ∧ frame.getLast? = some 0xFD ∧ 0xFD ∉ frame.dropLast ∧
    frame.length ≤ s.cfg.cap ∧ chunks.flatten = frame ∧ (∀ b ∈ chunks, b ≠ []) ∧
    (s.chan (s.inCh 0)).reads = chunks.map .bytes ++ [] ∧
    (s.chan (s.inCh 0)).writes = .count 3 :: .err 255 :: [] ∧ (s.chan (s.outCh 0)).writes = .count 0 :: [] ∧
    (WriteAns.count 3).fits s.cfg = true ∧ (WriteAns.err 255).fits s.cfg = true ∧
    (WriteAns.count 0).fits s.cfg = true :=
  ⟨⟨⟨rfl, rfl⟩, rfl⟩, by decide, by decide, by decide, by decide, by decide, by decide, by decide, by decide, by decide,
    by decide, by decide, by decide, by decide, by decide, by decide⟩

/-- A run that a cycle has just faulted. -/
theorem witness_RunsFollowTheMachines :
    let s := { live (0xFE :: List.replicate 14 0x42) [.bytes [0x07]] [] [] with
      frameQ := [⟨0x03, 0, 0, true⟩]
      turns := [.frameHost]
      history := [.finished .frameHost (.fbInit 0) .done] }
    s.RunsAgree ∧ after (step s) (fun t => ((t.runs 0).current, (t.fdcD 0).faultFull)) =
      some (some ⟨some .incomplete, true, true⟩, true) := by
  refine ⟨fun d f h => ?_, by decide⟩
  match d with
  | 0 => cases h; exact ⟨rfl, fun r hr => by cases hr; rfl⟩
  | 1 => cases h; exact ⟨rfl, fun r hr => by cases hr⟩
  | n + 2 => simp [State.fdc?, live, State.reset, State.resetOf, Config.hinted] at h

/-- An absent pin and an exported output pin with no draw, the sensor with four of its five draws, and an output pin's
initialisation that lacks its last draw. -/
theorem witness_UnansweredDrawsAreHeld :
    (State.reset.pin? 5 = some Pin.reset ∧ State.reset.draws = List.replicate 0 true ∧ Pin.reset.exported = false) ∧
    ((withPin17 outPin []).pin? 17 = some outPin ∧ outPin.exported = true ∧ outPin.dir = .output) ∧
    (let s := { State.reset with draws := [true, true, true, true] }
     s.pin? s.cfg.pwkPin = some Pin.reset ∧ s.draws = List.replicate 4 true ∧
       4 < (if Pin.reset.exported then 4 else 5)) ∧
    (let s := { State.reset with draws := [true, true] }
     s.pin? 5 = some Pin.reset ∧ s.draws = List.replicate 2 true ∧ 2 = (if Pin.reset.exported then 1 else 2) ∧
       s.cfg.initWriteTarget = .argPin) := by decide

end Sys2Proof.Tests
end

section
/-! SUPPORT. Operations that are held or refused (00_scope.md R8): an attempt whose answer is neither may end in any state,
one whose answer is either ends where it began; every instruction is such an attempt. -/

namespace Sys2Proof.Machine

/-- An operation that answers `r` had a transition: it was neither refused nor held (00_scope.md R8). -/
def Result.isTransition : Result → Bool
  | .refused => false
  | .held => false
  | .done => true
  | .ok => true
  | .fail => true
  | .value _ => true
  | .code _ => true
  | .status _ => true
  | .handle _ => true
  | .count _ => true

@[simp] theorem primResult_isTransition (ok : Bool) : (primResult ok).isTransition = true := by cases ok <;> rfl

/-- An attempt begun in `s` that ends with `refused` or `held` ends in `s`. -/
def Attempt.Clean (s : State) (x : Attempt Result) : Prop :=
  ∀ t r, x = .done t r → r.isTransition = false → t = s

theorem Attempt.Clean.done {s t : State} {r : Result} (hr : r.isTransition = true) : Attempt.Clean s (.done t r) := by
  intro u r' h hn
  cases h
  simp [hr] at hn

theorem Attempt.Clean.held (s : State) : Attempt.Clean s .held := by
  intro t r h
  cases h

theorem State.refuse_clean (s : State) : s.refuse.Clean s := by
  intro t r h _
  cases h
  rfl

/-- What went before does not matter: only the last part of an operation gives its answer. -/
theorem Attempt.Clean.andThen {α : Type} {s : State} {x : Attempt α} {k : State → α → Attempt Result}
    (hk : ∀ t a, (k t a).Clean s) : (x.andThen k).Clean s := by
  intro u r h
  obtain ⟨t, a, -, hka⟩ := Attempt.andThen_eq_done.mp h
  exact hk t a u r hka

theorem asPrim_clean (s : State) (x : Attempt Bool) : (asPrim x).Clean s :=
  .andThen fun _ ok => .done (primResult_isTransition ok)

theorem State.onFdc_clean {s : State} {d : Nat} {k : Fdc → Attempt Result} (hk : ∀ f, (k f).Clean s) :
    (s.onFdc d k).Clean s := by
  rcases s.onFdc_cases d k with ⟨-, e⟩ | ⟨f, -, e⟩ <;> rw [e]
  · exact s.refuse_clean
  · exact hk f

theorem State.onAlive_clean {s : State} {d : Nat} {k : Fdc → Attempt Result} (hk : ∀ f, (k f).Clean s) :
    (s.onAlive d k).Clean s := State.onFdc_clean fun f => by
  split
  · exact hk f
  · exact s.refuse_clean

theorem State.onReady_clean {s : State} {d : Nat} {k : Fdc → Attempt Result} (hk : ∀ f, (k f).Clean s) :
    (s.onReady d k).Clean s := State.onAlive_clean fun f => by
  split
  · exact s.refuse_clean
  · exact hk f

theorem State.gpioReadValue_clean (s : State) (p : Nat) : (s.gpioReadValue p).Clean s :=
  .andThen fun _ ok => by
    split
    · exact .done (by cases ok <;> rfl)
    · exact .done rfl

/-- A clean attempt that ends without a transition leaves `s` but for the answer its invoker sees. -/
theorem State.finish_clean {s t : State} {x : Attempt Result} (hx : x.Clean s) (h : s.finish x = .next t)
    (hr : t.ret.isTransition = false) : t = { s with ret := t.ret } := by
  rcases State.finish_eq_next.mp h with ⟨u, r, hu, rfl⟩ | ⟨-, rfl⟩
  · rw [hx u r hu hr]
  · rfl

/-- No instruction that answers `refused` or `held` changes anything else. -/
theorem exec_unchanged_of_not_isTransition {i : Instr} {s t : State} (h : exec i s = .next t)
    (hr : t.ret.isTransition = false) : t = { s with ret := t.ret } := by
  have frame : ∀ d c, s.dispatchFrame d c = .next t → t = { s with ret := t.ret } := fun d c h =>
    State.finish_clean (State.onAlive_clean fun _ => .andThen fun _ _ => .done rfl) h hr
  have prim : ∀ x, s.finish (asPrim x) = .next t → t = { s with ret := t.ret } := fun x h =>
    State.finish_clean (asPrim_clean s x) h hr
  cases i
  case keepalive d => exact frame d _ h
  case init1 d => exact frame d _ h
  case init2 d => exact frame d _ h
  case pwk d => exact frame d _ h
  case fwd d c => exact frame d _ h
  case incomplete d => exact frame d _ h
  case eos d => exact frame d _ h
  case invalid d => exact frame d _ h
  case eof d => exact frame d _ h
  case invalidRdErr d e => exact State.finish_clean (State.onAlive_clean fun _ => .andThen fun _ _ => .done rfl) h hr
  case ack1 d => exact State.finish_clean (State.onAlive_clean fun _ => .andThen fun _ _ => .done rfl) h hr
  case ack2 d src => exact State.finish_clean (State.onAlive_clean fun _ => .andThen fun _ _ => .done rfl) h hr
  case resolve d c => exact State.finish_clean (State.onAlive_clean fun _ => .andThen fun _ _ => .done rfl) h hr
  case readInto d => exact State.finish_clean (State.onReady_clean fun _ => .andThen fun _ _ => .done rfl) h hr
  case cycle d =>
    exact State.finish_clean (State.onReady_clean fun _ => .andThen fun _ _ => .andThen fun _ _ => .done rfl) h hr
  case reset => exact State.finish_clean (.done rfl) h hr
  case fbInit d => exact State.finish_clean (State.onFdc_clean fun _ => .done rfl) h hr
  case fbDestroy d => exact State.finish_clean (State.onAlive_clean fun _ => .done rfl) h hr
  case rdStatus d => exact State.finish_clean (State.onFdc_clean fun _ => .done rfl) h hr
  case exportPin p => exact prim _ h
  case exportIfAbsent p => exact prim _ h
  case setDirection p x => exact prim _ h
  case setPolarity p a => exact prim _ h
  case setEdge p e => exact prim _ h
  case writeValue p v => exact prim _ h
  case initOutputPin p => exact prim _ h
  case initPowerKeySensor => exact State.finish_clean (.andThen fun _ _ => .done rfl) h hr
  case setPin p v => exact State.finish_clean (.andThen fun _ _ => .done rfl) h hr
  case readValue hd =>
    refine State.finish_clean ?_ h hr
    split
    · exact s.gpioReadValue_clean hd.pin
    · exact .done rfl
  case poll hd =>
    refine State.finish_clean ?_ h hr
    split <;> exact .done rfl
  case waitEdge hd =>
    refine State.finish_clean ?_ h hr
    split
    · exact .done rfl
    · split
      · exact .done rfl
      · exact .held s
  case sample p v =>
    refine State.finish_clean ?_ h hr
    split
    · exact s.refuse_clean
    · exact .done rfl

/-- Settles O9: `held` is an answer without a transition. -/
theorem heldOperationsChangeNothing : Obligations.HeldOperationsChangeNothing := by
  intro i s t h hr
  have ht := exec_unchanged_of_not_isTransition h (by rw [hr]; rfl)
  rwa [hr] at ht

/-- Settles O10: `refused` is an answer without a transition. -/
theorem refusedOperationsChangeNothing : Obligations.RefusedOperationsChangeNothing := by
  intro i s t h hr
  have ht := exec_unchanged_of_not_isTransition h (by rw [hr]; rfl)
  rwa [hr] at ht

end Sys2Proof.Machine
end

section
/-! SUPPORT. The state after reset (10_state.md R30, R35). -/

namespace Sys2Proof

/-- A buffer holds at least four bytes (00_scope.md R6). -/
theorem Config.four_le_cap {cfg : Config} (h : cfg.wf = true) : 4 ≤ cfg.cap := by
  simp only [Config.wf, Bool.and_eq_true, decide_eq_true_eq] at h
  tauto

theorem Config.cntMod_pos (cfg : Config) : 0 < cfg.cntMod := Nat.two_pow_pos _

end Sys2Proof

namespace Sys2Proof.Machine

theorem State.fdc?_resetOf {cfg : Config} {d : Nat} (h : d < cfg.nDir) :
    (State.resetOf cfg).fdc? d = some Fdc.reset := by
  simp [State.fdc?_eq_some, State.resetOf, h]

theorem State.pin?_resetOf {cfg : Config} {p : Nat} (h : p < cfg.nPins) :
    (State.resetOf cfg).pin? p = some Pin.reset := by
  simp [State.pin?_eq_some, State.resetOf, h]

/-- Settles O33: every machine is `Fdc.reset` and every pin `Pin.reset`. -/
theorem resetValues : Obligations.ResetValues := fun _ =>
  ⟨fun _ hd => ⟨Fdc.reset, State.fdc?_resetOf hd, rfl, rfl, rfl, rfl, rfl, rfl, rfl, rfl⟩,
    fun _ hp => ⟨Pin.reset, State.pin?_resetOf hp, rfl, rfl, rfl, rfl, rfl, rfl⟩⟩

/-! ## The invariant at reset -/

/-- A machine with its elements cleared meets the invariant if its memory does: an empty buffer is not full, as `CAP` is
not 0 (00_scope.md R6). -/
theorem Fdc.Inv_cleared {cfg : Config} {f : Fdc} (alive : Bool) (hcfg : cfg.wf = true) (hw : f.buf.wf = true)
    (hin : ∀ c ∈ f.buf, c.1 < cfg.cap) : (f.cleared alive).Inv cfg where
  bufCanonical := hw
  bufInside := hin
  cursorBound := Nat.zero_le _
  validBound := cfg.cntMod_pos
  invalidBound := cfg.cntMod_pos
  writeErrorsBound := cfg.cntMod_pos
  codeBound := Nat.two_pow_pos _
  accumulating h := absurd rfl h
  fullIffFault := by
    have := Config.four_le_cap hcfg
    simp only [Fdc.cleared, Bool.false_eq_true, false_iff]
    omega

theorem Fdc.Inv_reset {cfg : Config} (hcfg : cfg.wf = true) : Fdc.reset.Inv cfg :=
  Fdc.Inv_cleared (f := Fdc.reset) false hcfg rfl (fun _ h => absurd h List.not_mem_nil)

/-- No edge is pending on a pin whose flag is clear. -/
theorem Pin.Inv_of_not_pending {q : Pin} (h : q.edgePending = false) : q.Inv := by
  intro hq
  rw [h] at hq
  cases hq

theorem State.Inv_resetOf {cfg : Config} (hcfg : cfg.wf = true) : (State.resetOf cfg).Inv where
  config := hcfg
  fdcCount := List.length_replicate
  pinCount := List.length_replicate
  fdcs f hf := by
    rw [List.eq_of_mem_replicate hf]
    exact Fdc.Inv_reset hcfg
  pins q hq := by
    rw [List.eq_of_mem_replicate hq]
    exact Pin.Inv_of_not_pending rfl

/-- Settles O50: every element of the reset state is at a value the invariant admits. -/
theorem resetMeetsTheInvariant : Obligations.ResetMeetsTheInvariant :=
  ⟨fun _ => State.Inv_resetOf, State.Inv_resetOf (by decide)⟩

end Sys2Proof.Machine
end

section
/-! SUPPORT. What an instruction can change, by what it acts on (10_state.md R33, 42_gpio.md R156): one of the frame path
changes its own machine, and one of the detector the pins it touches. -/

namespace Sys2Proof.Machine

/-! ## The instructions of the frame path -/

/-- `t` is `s` but for machine `d`, where `f` became a `g` with `R f g`, the channels' answers, the history and what was
returned. -/
def State.ActsOn (R : Fdc → Fdc → Prop) (d : Nat) (s t : State) : Prop :=
  ∃ (g : Fdc → Fdc) (chans : List ChannelEnv) (history : List Event) (ret : Result),
    t = { s with fdcs := s.fdcs.modify d g, chans := chans, history := history, ret := ret } ∧ ∀ f, R f (g f)

/-- The sticky flags of `f` that are set are set in `g` (10_state.md R14, R15). -/
def Fdc.KeepsFlags (f g : Fdc) : Prop :=
  (f.rdErr = true → g.rdErr = true) ∧ (f.faultFull = true → g.faultFull = true)

theorem Fdc.KeepsFlags.refl (f : Fdc) : f.KeepsFlags f := ⟨id, id⟩

theorem Fdc.KeepsFlags.trans {f g h : Fdc} (h1 : f.KeepsFlags g) (h2 : g.KeepsFlags h) : f.KeepsFlags h :=
  ⟨h2.1 ∘ h1.1, h2.2 ∘ h1.2⟩

theorem State.ActsOn.updFdc {R : Fdc → Fdc → Prop} (s : State) (d : Nat) {g : Fdc → Fdc} (hg : ∀ f, R f (g f)) :
    s.ActsOn R d (s.updFdc d g) := ⟨g, s.chans, s.history, s.ret, rfl, hg⟩

/-- Taking channel answers, recording events and returning an answer is no action on a machine. -/
theorem State.ActsOn.of_env {s t : State} (d : Nat) (chans : List ChannelEnv) (history : List Event) (ret : Result)
    (h : t = { s with chans := chans, history := history, ret := ret }) : s.ActsOn Fdc.KeepsFlags d t :=
  ⟨id, chans, history, ret, by rw [List.modify_id]; exact h, Fdc.KeepsFlags.refl⟩

theorem State.ActsOn.refl (d : Nat) (s : State) : s.ActsOn Fdc.KeepsFlags d s :=
  .of_env d s.chans s.history s.ret rfl

theorem State.ActsOn.trans {d : Nat} {s t u : State} (h1 : s.ActsOn Fdc.KeepsFlags d t)
    (h2 : t.ActsOn Fdc.KeepsFlags d u) : s.ActsOn Fdc.KeepsFlags d u := by
  obtain ⟨g, _, _, _, rfl, hg⟩ := h1
  obtain ⟨g', chans, history, ret, rfl, hg'⟩ := h2
  exact ⟨g' ∘ g, chans, history, ret, by simp only [List.modify_modify_eq], fun f => (hg f).trans (hg' (g f))⟩

/-- An action on machine `d` changes no other machine and no pin and draws nothing. -/
theorem State.ActsOn.isolated {R : Fdc → Fdc → Prop} {d : Nat} {s t : State} (h : s.ActsOn R d t) :
    t.pins = s.pins ∧ t.draws = s.draws ∧ t.cfg = s.cfg ∧ ∀ e, e ≠ d → t.fdc? e = s.fdc? e := by
  obtain ⟨g, _, _, _, rfl, -⟩ := h
  exact ⟨rfl, rfl, rfl, fun e he => (State.fdc?_updFdc s d g e).trans (if_neg he)⟩

theorem State.ActsOn.fdc?_same {R : Fdc → Fdc → Prop} {d : Nat} {s t : State} {f : Fdc} (h : s.ActsOn R d t)
    (hf : s.fdc? d = some f) : ∃ g, t.fdc? d = some g ∧ R f g := by
  obtain ⟨g, _, _, _, rfl, hg⟩ := h
  exact ⟨g f, (State.fdc?_updFdc s d g d).trans (by simp [hf]), hg f⟩

/-- Where `x` ends, machine `d` was acted on and keeps its sticky flags. -/
def Attempt.ActsOn {α : Type} (d : Nat) (s : State) (x : Attempt α) : Prop :=
  ∀ t a, x = .done t a → s.ActsOn Fdc.KeepsFlags d t

theorem Attempt.ActsOn.done {α : Type} {d : Nat} {s t : State} {a : α} (h : s.ActsOn Fdc.KeepsFlags d t) :
    Attempt.ActsOn d s (.done t a) := by
  intro u b e
  cases e
  exact h

theorem Attempt.ActsOn.andThen {α β : Type} {d : Nat} {s : State} {x : Attempt α} {k : State → α → Attempt β}
    (hx : x.ActsOn d s) (hk : ∀ t a, (k t a).ActsOn d t) : (x.andThen k).ActsOn d s := by
  intro u b e
  obtain ⟨t, a, h1, h2⟩ := Attempt.andThen_eq_done.mp e
  exact (hx t a h1).trans (hk t a u b h2)

/-- An action that goes on with an answer worked out from what it left. -/
theorem Attempt.ActsOn.returning {α β : Type} {d : Nat} {s : State} {x : Attempt α} {r : State → α → β}
    (hx : x.ActsOn d s) : (x.andThen fun t a => .done t (r t a)).ActsOn d s :=
  hx.andThen fun t _ => .done (.refl d t)

theorem State.finish_actsOn {d : Nat} {s t : State} {x : Attempt Result} (hx : x.ActsOn d s)
    (h : s.finish x = .next t) : s.ActsOn Fdc.KeepsFlags d t := by
  rcases State.finish_eq_next.mp h with ⟨u, r, h1, rfl⟩ | ⟨-, rfl⟩
  · exact (hx u r h1).trans (.of_env d u.chans u.history r rfl)
  · exact .of_env d s.chans s.history .held rfl

theorem State.onFdc_actsOn {d : Nat} {s : State} {k : Fdc → Attempt Result} (hk : ∀ f, (k f).ActsOn d s) :
    (s.onFdc d k).ActsOn d s := by
  rcases s.onFdc_cases d k with ⟨-, e⟩ | ⟨f, -, e⟩ <;> rw [e]
  · exact .done (.refl d s)
  · exact hk f

theorem State.onAlive_actsOn {d : Nat} {s : State} {k : Fdc → Attempt Result} (hk : ∀ f, (k f).ActsOn d s) :
    (s.onAlive d k).ActsOn d s := State.onFdc_actsOn fun f => by
  split
  · exact hk f
  · exact .done (.refl d s)

theorem State.onReady_actsOn {d : Nat} {s : State} {k : Fdc → Attempt Result} (hk : ∀ f, (k f).ActsOn d s) :
    (s.onReady d k).ActsOn d s := State.onAlive_actsOn fun f => by
  split
  · exact .done (.refl d s)
  · exact hk f

theorem State.chWrite_actsOn (s : State) (d ch : Nat) (bs : List Byte) : (s.chWrite d ch bs).ActsOn d s := by
  intro t a h
  obtain ⟨rest, -, -, rfl⟩ := State.chWrite_eq_done h
  exact .of_env d _ _ _ rfl

theorem State.addWriteErrors_actsOn (s : State) (d n : Nat) : s.ActsOn Fdc.KeepsFlags d (s.addWriteErrors d n) :=
  .updFdc s d fun _ => ⟨id, id⟩

theorem State.doneValid_actsOn (s : State) (d : Nat) : s.ActsOn Fdc.KeepsFlags d (s.doneValid d) :=
  .updFdc s d fun _ => ⟨id, id⟩

theorem State.doneInvalid_actsOn (s : State) (d : Nat) : s.ActsOn Fdc.KeepsFlags d (s.doneInvalid d) :=
  .updFdc s d fun _ => ⟨id, id⟩

theorem State.recordReadError_actsOn (s : State) (d e : Nat) : s.ActsOn Fdc.KeepsFlags d (s.recordReadError d e) :=
  State.ActsOn.trans (.updFdc s d (g := fun f => { f with rdErr := true, rdErrCode := e }) fun _ => ⟨fun _ => rfl, id⟩)
    (.of_env d _ _ _ rfl)

theorem State.raiseIfFull_actsOn (s : State) (d : Nat) : s.ActsOn Fdc.KeepsFlags d (s.raiseIfFull d) := by
  unfold State.raiseIfFull
  split
  · exact .updFdc s d fun _ => ⟨id, fun _ => rfl⟩
  · exact .refl d s

theorem State.countedWrite_actsOn (s : State) (d ch : Nat) (bs : List Byte) : (s.countedWrite d ch bs).ActsOn d s :=
  (s.chWrite_actsOn d ch bs).andThen fun t _ => .done (t.addWriteErrors_actsOn d _)

theorem State.ack2Only_actsOn (s : State) (d : Nat) : (s.ack2Only d).ActsOn d s :=
  (s.chWrite_actsOn d _ _).andThen fun t _ => .done (by
    split
    · exact t.addWriteErrors_actsOn d _
    · exact .refl d t)

theorem State.handshake_actsOn (s : State) (d : Nat) : (s.handshake d).ActsOn d s :=
  (s.countedWrite_actsOn d _ _).andThen fun t _ => t.countedWrite_actsOn d _ _

theorem State.thenValid_actsOn {s : State} {x : Attempt Unit} {d : Nat} (h : x.ActsOn d s) :
    (State.thenValid x d).ActsOn d s := h.andThen fun t _ => .done (t.doneValid_actsOn d)

/-- The resolve phase acts on its machine and keeps the sticky flags, whatever the code (41_packet_dispatcher.md R111). -/
theorem State.resolveArm_actsOn (s : State) (d : Nat) (c : FrameTypeCode) : (s.resolveArm d c).ActsOn d s := by
  have forward : (State.thenValid (s.forward d) d).ActsOn d s := State.thenValid_actsOn (s.countedWrite_actsOn d _ _)
  cases c
  case keepalive => exact State.thenValid_actsOn (s.handshake_actsOn d)
  case init1 => exact State.thenValid_actsOn (s.handshake_actsOn d)
  case init2 => exact State.thenValid_actsOn (s.ack2Only_actsOn d)
  case panelPowerKey =>
    exact .done (State.ActsOn.trans (.of_env d _ _ _ rfl) ((s.log (.tracePwk d (s.frame d))).doneValid_actsOn d))
  case forwardable => exact forward
  case endOfStream => exact forward
  case endOfFile => exact forward
  case incomplete => exact .done (.refl d s)
  case invalid => exact .done (s.doneInvalid_actsOn d)

/-- The read phase acts on its machine and clears no sticky flag (40_frame_reader.md R90 to R98). -/
theorem State.readPhase_actsOn (s : State) (d : Nat) : (s.readPhase d).ActsOn d s := by
  have chRead (max : Nat) : (s.chRead d max).ActsOn d s := by
    intro t a h
    obtain ⟨rest, -, -, rfl⟩ := State.chRead_eq_done h
    exact .of_env d _ _ _ rfl
  refine (chRead _).andThen fun t a => ?_
  cases a with
  | bytes bs =>
    exact .done (State.ActsOn.trans (.updFdc t d (g := Fdc.fill bs) fun _ => ⟨id, id⟩)
      ((t.updFdc d (Fdc.fill bs)).raiseIfFull_actsOn d))
  | eof => exact .done (.refl d t)
  | err e => exact .done (t.recordReadError_actsOn d e)

/-- Every instruction on machine `d` but `FB_INIT(d)` acts on that machine and clears no sticky flag. -/
theorem exec_actsOn {i : Instr} {d : Nat} {s t : State} (hm : machineOf i = some d) (hi : i ≠ .fbInit d)
    (h : exec i s = .next t) : s.ActsOn Fdc.KeepsFlags d t := by
  have frame (d : Nat) (c : FrameTypeCode) (h : s.dispatchFrame d c = .next t) : s.ActsOn Fdc.KeepsFlags d t :=
    State.finish_actsOn (State.onAlive_actsOn fun _ => (s.resolveArm_actsOn d c).returning) h
  cases i <;> cases hm
  case keepalive => exact frame d _ h
  case init1 => exact frame d _ h
  case init2 => exact frame d _ h
  case pwk => exact frame d _ h
  case fwd => exact frame d _ h
  case incomplete => exact frame d _ h
  case eos => exact frame d _ h
  case invalid => exact frame d _ h
  case eof => exact frame d _ h
  case invalidRdErr e =>
    refine State.finish_actsOn (State.onAlive_actsOn fun _ => Attempt.ActsOn.returning fun u a hu => ?_) h
    exact (s.recordReadError_actsOn d e).trans ((s.recordReadError d e).resolveArm_actsOn d .invalid u a hu)
  case ack1 => exact State.finish_actsOn (State.onAlive_actsOn fun _ => (s.countedWrite_actsOn d _ _).returning) h
  case ack2 src =>
    refine State.finish_actsOn (State.onAlive_actsOn fun _ => Attempt.ActsOn.returning ?_) h
    cases src
    · exact s.countedWrite_actsOn d _ _
    · exact s.ack2Only_actsOn d
  case fbInit => exact absurd rfl hi
  case fbDestroy =>
    exact State.finish_actsOn (State.onAlive_actsOn fun _ =>
      .done (.updFdc s d (g := fun f => { f with alive := false }) fun _ => ⟨id, id⟩)) h
  case cycle =>
    exact State.finish_actsOn (State.onReady_actsOn fun _ =>
      (s.readPhase_actsOn d).andThen fun t c => (t.resolveArm_actsOn d c).returning) h
  case rdStatus => exact State.finish_actsOn (State.onFdc_actsOn fun _ => .done (.refl d s)) h
  case readInto => exact State.finish_actsOn (State.onReady_actsOn fun _ => (s.readPhase_actsOn d).returning) h
  case resolve c => exact State.finish_actsOn (State.onAlive_actsOn fun _ => (s.resolveArm_actsOn d c).returning) h

/-- What `FB_INIT` can do: it is refused, or the machine exists and is cleared (43_host_interface.md R180). -/
theorem execFbInit_eq_next {d : Nat} {s t : State} (h : exec (.fbInit d) s = .next t) :
    t = { s with ret := .refused } ∨
      ∃ f, s.fdc? d = some f ∧ t = { s.updFdc d (Fdc.cleared true) with ret := .done } := by
  rcases s.onFdc_cases d (fun _ => .done (s.updFdc d (Fdc.cleared true)) .done) with ⟨-, e⟩ | ⟨f, hf, e⟩ <;>
    rw [exec, execFbInit, e] at h <;> cases h
  · exact Or.inl rfl
  · exact Or.inr ⟨f, hf, rfl⟩

/-- `FB_INIT(d)` acts on machine `d` too, and clears its sticky flags. -/
theorem execFbInit_actsOn {d : Nat} {s t : State} (h : exec (.fbInit d) s = .next t) :
    s.ActsOn (fun _ _ => True) d t := by
  rcases execFbInit_eq_next h with rfl | ⟨f, -, rfl⟩
  · exact ⟨id, s.chans, s.history, .refused, by rw [List.modify_id], fun _ => trivial⟩
  · exact ⟨Fdc.cleared true, s.chans, s.history, .done, rfl, fun _ => trivial⟩

/-- An instruction on machine `d` changes no other machine and no pin and draws nothing. -/
theorem exec_isolated {i : Instr} {d : Nat} {s t : State} (hm : machineOf i = some d) (h : exec i s = .next t) :
    t.pins = s.pins ∧ t.draws = s.draws ∧ t.cfg = s.cfg ∧ ∀ e, e ≠ d → t.fdc? e = s.fdc? e := by
  by_cases hi : i = .fbInit d
  · subst hi
    exact (execFbInit_actsOn h).isolated
  · exact (exec_actsOn hm hi h).isolated

/-- Settles O47: each listed instruction is one of the frame path on machine `d`. -/
theorem machinesAreIsolated : Obligations.MachinesAreIsolated := by
  intro i d s t hi h
  have hm : machineOf i = some d := by
    rcases hi with hi | ⟨c, rfl⟩ | ⟨e, rfl⟩ | ⟨src, rfl⟩ | ⟨c, rfl⟩
    · simp only [List.mem_cons, List.not_mem_nil, or_false] at hi
      rcases hi with rfl | rfl | rfl | rfl | rfl | rfl | rfl | rfl | rfl | rfl | rfl | rfl | rfl | rfl <;> rfl
    all_goals rfl
  exact exec_isolated hm h

/-! ## The instructions of the detector -/

/-- The pins an instruction can change, `RESET` apart: its own, and the target of the write for an output pin's
initialisation (42_gpio.md R153). -/
def pinsOf (cfg : Config) : Instr → List Nat
  | .exportPin p | .exportIfAbsent p | .setDirection p _ | .setPolarity p _ | .setEdge p _ => [p]
  | .writeValue p _ | .setPin p _ | .sample p _ => [p]
  | .poll h | .waitEdge h => [h.pin]
  | .initPowerKeySensor => [cfg.pwkPin]
  | .initOutputPin p => [p, outputInitTarget cfg p]
  | _ => []

/-- Where `x` ends, only draws, history and the pins of `P` have moved. -/
def Attempt.Touches {α : Type} (P : List Nat) (s : State) (x : Attempt α) : Prop :=
  ∀ t a, x = .done t a → State.TouchesPins P s t

theorem Attempt.Touches.done {α : Type} {P : List Nat} {s t : State} {a : α} (h : State.TouchesPins P s t) :
    Attempt.Touches P s (.done t a) := by
  intro u b e
  cases e
  exact h

theorem Attempt.Touches.returning {α β : Type} {P : List Nat} {s : State} {x : Attempt α} {r : State → α → β}
    (hx : x.Touches P s) : (x.andThen fun t a => .done t (r t a)).Touches P s := by
  intro u b e
  obtain ⟨t, a, h1, h2⟩ := Attempt.andThen_eq_done.mp e
  cases h2
  exact hx u a h1

theorem State.finish_touches {P : List Nat} {s t : State} {x : Attempt Result} (hx : x.Touches P s)
    (h : s.finish x = .next t) : ∃ u r, State.TouchesPins P s u ∧ t = { u with ret := r } := by
  rcases State.finish_eq_next.mp h with ⟨u, r, h1, rfl⟩ | ⟨-, rfl⟩
  · exact ⟨u, r, hx u r h1, rfl⟩
  · exact ⟨s, .held, .refl P s, rfl⟩

theorem State.pin?_of_handlePin {s : State} {h : Handle} {q : Pin} (hq : s.handlePin h = some q) :
    s.pin? h.pin = some q := by
  unfold State.handlePin at hq
  split at hq
  · exact (Option.filter_eq_some_iff.mp hq).1
  · cases hq

/-- Consuming the edge of a handle's pin touches that pin (42_gpio.md R150, R151). -/
theorem State.consumed_touches {s : State} {h : Handle} {q : Pin} (hq : s.handlePin h = some q) :
    State.TouchesPins [h.pin] s (s.updPin h.pin Pin.consumed) := by
  have hp := State.pin?_of_handlePin hq
  rw [State.updPin_eq_withPin hp]
  exact .withPin (by simp) hp fun _ => Pin.Inv_of_not_pending rfl

/-- Every instruction on no machine but `RESET` touches the pins that `pinsOf` lists for it and nothing else. -/
theorem exec_touchesPins {i : Instr} {s t : State} (hm : machineOf i = none) (hi : i ≠ .reset)
    (h : exec i s = .next t) : ∃ u r, State.TouchesPins (pinsOf s.cfg i) s u ∧ t = { u with ret := r } := by
  cases i <;> cases hm
  case reset => exact absurd rfl hi
  case exportPin p =>
    exact State.finish_touches (.returning fun _ _ => State.gpioExport_touches (by simp [pinsOf])) h
  case exportIfAbsent p =>
    exact State.finish_touches (.returning fun _ _ => State.gpioExportIfAbsent_touches (by simp [pinsOf])) h
  case setDirection p x =>
    exact State.finish_touches (.returning fun _ _ => State.gpioSetDirection_touches (by simp [pinsOf])) h
  case setPolarity p a =>
    exact State.finish_touches (.returning fun _ _ => State.gpioSetPolarity_touches (by simp [pinsOf])) h
  case setEdge p e =>
    exact State.finish_touches (.returning fun _ _ => State.gpioSetEdge_touches (by simp [pinsOf])) h
  case writeValue p v =>
    exact State.finish_touches (.returning fun _ _ => State.gpioWriteValue_touches (by simp [pinsOf])) h
  case setPin p v =>
    exact State.finish_touches (.returning fun _ _ => State.gpioWriteValue_touches (by simp [pinsOf])) h
  case initPowerKeySensor => exact State.finish_touches (.returning fun _ _ => State.sensorSteps_touches) h
  case initOutputPin p => exact State.finish_touches (.returning fun _ _ => State.outputSteps_touches) h
  case readValue hd =>
    refine State.finish_touches ?_ h
    split
    · exact fun _ _ => State.gpioReadValue_touches
    · exact .done (.refl _ s)
  case poll hd =>
    refine State.finish_touches ?_ h
    split
    · exact .done (.refl _ s)
    · next hq => exact .done (State.consumed_touches hq)
  case waitEdge hd =>
    refine State.finish_touches ?_ h
    split
    · exact .done (.refl _ s)
    · next hq =>
      split
      · exact .done (State.consumed_touches hq)
      · exact fun _ _ e => by cases e
  case sample p v =>
    refine State.finish_touches ?_ h
    split
    · exact .done (.refl _ s)
    · next hq =>
      refine .done ?_
      rw [State.updPin_eq_withPin hq]
      exact .withPin (by simp [pinsOf]) hq (Pin.Inv_present _ v)

/-! ## The sticky flags -/

/-- Settles O49: an instruction on machine `d` keeps its flags, one on another machine leaves machine `d`, and one of the
detector leaves every machine. -/
theorem stickyFlagsStay : Obligations.StickyFlagsStay := by
  intro i s t d f h hinit hreset hf
  cases hm : machineOf i with
  | none =>
    obtain ⟨u, r, ⟨_, _, _, rfl, -⟩, rfl⟩ := exec_touchesPins hm hreset h
    exact ⟨f, hf, Fdc.KeepsFlags.refl f⟩
  | some e =>
    by_cases he : d = e
    · subst he
      exact (exec_actsOn hm hinit h).fdc?_same hf
    · obtain ⟨-, -, -, hother⟩ := exec_isolated hm h
      exact ⟨f, (hother d he).trans hf, Fdc.KeepsFlags.refl f⟩

end Sys2Proof.Machine
end

section
/-! SUPPORT. Every step keeps the invariant: what an operation of each kind leaves of it, then the items the agents offer. -/

namespace Sys2Proof.Machine

/-! ## States that differ in what the invariant does not read, or in one thing it reads -/

theorem State.Inv.congr {s t : State} (hs : s.Inv) (hcfg : t.cfg = s.cfg) (hfdcs : t.fdcs = s.fdcs)
    (hpins : t.pins = s.pins) : t.Inv where
  config := hcfg ▸ hs.config
  fdcCount := by rw [hfdcs, hcfg]; exact hs.fdcCount
  pinCount := by rw [hpins, hcfg]; exact hs.pinCount
  fdcs := by rw [hfdcs, hcfg]; exact hs.fdcs
  pins := by rw [hpins]; exact hs.pins

theorem State.Inv.of_fdc? {s : State} {d : Nat} {f : Fdc} (hs : s.Inv) (hf : s.fdc? d = some f) : f.Inv s.cfg :=
  hs.fdcs f (List.mem_of_getElem? (State.fdc?_eq_some.mp hf).2)

/-- Of what the invariant reads, `t` is `s` with machine `d` replaced by `g`. -/
def State.Replaces (d : Nat) (g : Fdc) (s t : State) : Prop :=
  t.cfg = s.cfg ∧ t.fdcs = s.fdcs.set d g ∧ t.pins = s.pins

theorem State.Replaces.trans {d : Nat} {g g' : Fdc} {s t u : State} (h1 : State.Replaces d g s t)
    (h2 : State.Replaces d g' t u) : State.Replaces d g' s u := by
  obtain ⟨hc, hf, hp⟩ := h1
  obtain ⟨hc', hf', hp'⟩ := h2
  exact ⟨hc'.trans hc, by rw [hf', hf, List.set_set], hp'.trans hp⟩

theorem State.Replaces.fdc?_same {d : Nat} {f g : Fdc} {s t : State} (h : State.Replaces d g s t)
    (hf : s.fdc? d = some f) : t.fdc? d = some g :=
  (State.fdc?_congr (s := s.withFdc d g) h.1 h.2.1 d).trans (State.fdc?_withFdc_same hf g)

/-- A machine may be replaced by one that meets the invariant. -/
theorem State.Inv.replace {d : Nat} {g : Fdc} {s t : State} (hs : s.Inv) (h : State.Replaces d g s t)
    (hg : g.Inv s.cfg) : t.Inv := by
  obtain ⟨hcfg, hfdcs, hpins⟩ := h
  refine State.Inv.congr (s := s.withFdc d g) ?_ hcfg hfdcs hpins
  exact { hs with
    fdcCount := (List.length_set ..).trans hs.fdcCount
    fdcs := fun f hf => by
      rcases List.mem_or_eq_of_mem_set hf with hf | rfl
      · exact hs.fdcs f hf
      · exact hg }

theorem State.Inv.of_touchesPins {P : List Nat} {s t : State} (hs : s.Inv) (h : State.TouchesPins P s t) : t.Inv := by
  obtain ⟨pins, _, _, rfl, hlen, -, hpins⟩ := h
  exact { config := hs.config, fdcCount := hs.fdcCount, pinCount := hlen.trans hs.pinCount, fdcs := hs.fdcs,
          pins := hpins hs.pins }

/-! ## `RESET`, `FB_INIT` and `FB_DESTROY` -/

theorem length_resetPins (n p : Nat) (qs : List Pin) : (resetPins n p qs).length = qs.length := by
  induction qs generalizing p with
  | nil => rfl
  | cons q qs ih => exact congrArg (· + 1) (ih (p + 1))

theorem edgePending_of_mem_resetPins {n p : Nat} {qs : List Pin} {q : Pin} (h : q ∈ resetPins n p qs) :
    q.edgePending = false := by
  induction qs generalizing p with
  | nil => cases h
  | cons _ qs ih =>
    rcases List.mem_cons.mp h with rfl | h
    · rfl
    · exact ih h

theorem Fdc.Inv.cleared {cfg : Config} {f : Fdc} (hf : f.Inv cfg) (hcfg : cfg.wf = true) (alive : Bool) :
    (f.cleared alive).Inv cfg := Fdc.Inv_cleared alive hcfg hf.bufCanonical hf.bufInside

/-- The invariant does not read `alive`. -/
theorem Fdc.Inv.withAlive {cfg : Config} {f : Fdc} (hf : f.Inv cfg) (alive : Bool) :
    Fdc.Inv cfg { f with alive := alive } :=
  ⟨hf.bufCanonical, hf.bufInside, hf.cursorBound, hf.validBound, hf.invalidBound, hf.writeErrorsBound, hf.codeBound,
    hf.accumulating, hf.fullIffFault⟩

theorem execReset_inv {s t : State} (hs : s.Inv) (h : exec .reset s = .next t) : t.Inv := by
  cases h
  exact {
    config := hs.config
    fdcCount := (List.length_map _).trans hs.fdcCount
    pinCount := (length_resetPins ..).trans hs.pinCount
    fdcs := fun g hg => by
      obtain ⟨f, hf, rfl⟩ := List.mem_map.mp hg
      exact (hs.fdcs f hf).cleared hs.config false
    pins := fun q hq => Pin.Inv_of_not_pending (edgePending_of_mem_resetPins hq) }

theorem execFbInit_inv {d : Nat} {s t : State} (hs : s.Inv) (h : exec (.fbInit d) s = .next t) : t.Inv := by
  rcases execFbInit_eq_next h with rfl | ⟨f, hf, rfl⟩
  · exact hs.congr rfl rfl rfl
  · rw [State.updFdc_eq_withFdc hf]
    exact hs.replace ⟨rfl, rfl, rfl⟩ ((hs.of_fdc? hf).cleared hs.config true)

theorem execFbDestroy_inv {d : Nat} {s t : State} (hs : s.Inv) (h : exec (.fbDestroy d) s = .next t) : t.Inv := by
  rcases s.onAlive_cases d (fun _ => .done (s.updFdc d fun f => { f with alive := false }) .done) with
    ⟨-, e⟩ | ⟨f, hf, e⟩ <;> rw [exec, execFbDestroy, e] at h <;> cases h
  · exact hs.congr rfl rfl rfl
  · rw [State.updFdc_eq_withFdc hf.1]
    exact hs.replace ⟨rfl, rfl, rfl⟩ ((hs.of_fdc? hf.1).withAlive false)

theorem execRdStatus_inv {d : Nat} {s t : State} (hs : s.Inv) (h : exec (.rdStatus d) s = .next t) : t.Inv := by
  rcases s.onFdc_cases d (fun f => .done s (.status f.toStatus)) with ⟨-, e⟩ | ⟨f, -, e⟩ <;>
    rw [exec, execRdStatus, e] at h <;> cases h <;> exact hs.congr rfl rfl rfl

/-! ## `CYCLE` -/

/-- Between the read phase, which classified `c`, and the resolve phase: the machine meets the invariant with the cursor
that the resolve phase gives it, 0 after every frame but an Incomplete one (41_packet_dispatcher.md R120, R124). -/
def Fdc.AwaitsResolve (cfg : Config) (c : FrameTypeCode) (f : Fdc) : Prop :=
  Fdc.Inv cfg { f with cursor := if c = .incomplete then f.cursor else 0 }

/-- A machine without a fault can be emptied: an empty buffer accumulates nothing and is not full. -/
theorem Fdc.Inv.awaitsResolve {cfg : Config} {f : Fdc} {c : FrameTypeCode} (hf : f.Inv cfg) (hcfg : cfg.wf = true)
    (hff : f.faultFull = false) (hc : c ≠ .incomplete) : f.AwaitsResolve cfg c := by
  have hcap := Config.four_le_cap hcfg
  unfold Fdc.AwaitsResolve
  rw [if_neg hc]
  exact ⟨hf.bufCanonical, hf.bufInside, Nat.zero_le _, hf.validBound, hf.invalidBound, hf.writeErrorsBound, hf.codeBound,
    fun h => absurd rfl h, by simp only [hff, Bool.false_eq_true, false_iff]; omega⟩

/-- A read error is recorded: the invariant does not read the flag, and the code is one of `ERR_W` bits (R94). -/
theorem Fdc.Inv.withReadError {cfg : Config} {f : Fdc} {e : Nat} (hf : f.Inv cfg) (he : e < 2 ^ cfg.errW) :
    Fdc.Inv cfg { f with rdErr := true, rdErrCode := e } :=
  ⟨hf.bufCanonical, hf.bufInside, hf.cursorBound, hf.validBound, hf.invalidBound, hf.writeErrorsBound, he,
    hf.accumulating, hf.fullIffFault⟩

/-- Counters inside their width: the invariant says no more of them (10_state.md R13). -/
theorem Fdc.Inv.withCounters {cfg : Config} {f : Fdc} {v i w : Nat} (hf : f.Inv cfg) (hv : v < cfg.cntMod)
    (hi : i < cfg.cntMod) (hw : w < cfg.cntMod) :
    Fdc.Inv cfg { f with valid := v, invalid := i, writeErrors := w } :=
  ⟨hf.bufCanonical, hf.bufInside, hf.cursorBound, hv, hi, hw, hf.codeBound, hf.accumulating, hf.fullIffFault⟩

theorem Fdc.content_afterBytes {cfg : Config} {f : Fdc} (hb : f.buf.wf = true) (bs : List Byte) :
    (f.afterBytes cfg bs).content = f.content ++ bs := Memory.bytesFrom_fill f.buf f.cursor bs hb

/-- A machine that was not full, after a read that fits: the bytes are inside its buffer, and one left Incomplete is
faulted exactly when it is full (40_frame_reader.md R92, R98). -/
theorem Fdc.Inv.afterBytes {cfg : Config} {f : Fdc} {bs : List Byte} (hf : f.Inv cfg) (hcfg : cfg.wf = true)
    (hff : f.faultFull = false) (hlen : bs.length ≤ cfg.cap - f.cursor) :
    (f.afterBytes cfg bs).AwaitsResolve cfg (classify cfg (f.content ++ bs)) := by
  have hcur := hf.cursorBound
  have hbuf : (f.afterBytes cfg bs).buf.wf = true := Memory.wf_fill _ _ hf.bufCanonical
  have hin : ∀ c ∈ (f.afterBytes cfg bs).buf, c.1 < cfg.cap := by
    intro c hc
    rcases Memory.cells_fill hc with hc | ⟨-, hc⟩
    · exact hf.bufInside c hc
    · omega
  unfold Fdc.AwaitsResolve
  split
  · next hc =>
    exact ⟨hbuf, hin, by simp only [Fdc.afterBytes]; omega, hf.validBound, hf.invalidBound, hf.writeErrorsBound,
      hf.codeBound, fun _ => (congrArg _ (Fdc.content_afterBytes hf.bufCanonical bs)).trans hc, by
        simp [Fdc.afterBytes, hff, hc]⟩
  · next hc =>
    have hcap := Config.four_le_cap hcfg
    exact ⟨hbuf, hin, Nat.zero_le _, hf.validBound, hf.invalidBound, hf.writeErrorsBound, hf.codeBound,
      fun h => absurd rfl h, by simp [Fdc.afterBytes, hff, hc]; omega⟩

/-- The read phase of an admitted machine changes that machine only, and leaves it awaiting the resolve phase. -/
theorem State.readPhase_awaitsResolve {s u : State} {d : Nat} {c : FrameTypeCode} {f : Fdc} (hs : s.Inv)
    (hr : s.Ready d f) (h : s.readPhase d = .done u c) :
    ∃ g, State.Replaces d g s u ∧ g.AwaitsResolve s.cfg c := by
  obtain ⟨⟨hf, -⟩, hff⟩ := hr
  have hfi := hs.of_fdc? hf
  obtain ⟨a, rest, hq, hfit⟩ := State.readPhase_eq_done h
  rw [State.fdcD_of_some hf] at hfit
  cases a with
  | eof =>
    rw [State.readPhase_eof hf hq] at h
    cases h
    exact ⟨f, ⟨rfl, (congrArg State.fdcs (State.withFdc_self hf)).symm, rfl⟩,
      hfi.awaitsResolve hs.config hff (by decide)⟩
  | err e =>
    have he : e < 2 ^ s.cfg.errW := of_decide_eq_true hfit
    rw [State.readPhase_err hf he hq] at h
    cases h
    exact ⟨_, ⟨rfl, rfl, rfl⟩, (hfi.withReadError he).awaitsResolve hs.config hff (by decide)⟩
  | bytes bs =>
    obtain ⟨hpos, hlen⟩ : 1 ≤ bs.length ∧ bs.length ≤ s.cfg.cap - f.cursor := by simpa [ReadAns.fits] using hfit
    rw [State.readPhase_bytes hf hfi.bufCanonical hq hpos hlen] at h
    cases h
    exact ⟨_, ⟨rfl, rfl, rfl⟩, hfi.afterBytes hs.config hff hlen⟩

/-- The resolve phase of a machine that awaits it: besides the cursor it changes the counters, modulo `2^CNT_W`. -/
theorem State.ResolvedTo.fdcInv {s t : State} {d : Nat} {c : FrameTypeCode} {f : Fdc} (h : s.ResolvedTo d c f t)
    (hf : f.AwaitsResolve s.cfg c) :
    ∃ g, State.Replaces d g s t ∧ g.Inv s.cfg := by
  obtain ⟨_, g, _, rfl, -, -, -, hg, hwerr⟩ := h
  have hmod (n : Nat) : n % 2 ^ s.cfg.cntW < s.cfg.cntMod := Nat.mod_lt _ s.cfg.cntMod_pos
  refine ⟨g, ⟨rfl, rfl, rfl⟩, ?_⟩
  rw [hg]
  refine hf.withCounters ?_ ?_ ?_
  · split
    · exact hf.validBound
    · exact hmod _
  · split
    · exact hmod _
    · exact hf.invalidBound
  · rw [hwerr hf.writeErrorsBound]
    split
    · exact hf.writeErrorsBound
    · exact hmod _

theorem execCycle_inv {d : Nat} {s t : State} (hs : s.Inv) (h : exec (.cycle d) s = .next t) : t.Inv := by
  rcases s.onReady_cases d (fun _ =>
    (s.readPhase d).andThen fun t c => (t.resolveArm d c).andThen fun u _ => .done u (.code c)) with
    ⟨-, e⟩ | ⟨f, hf, e⟩ <;> rw [exec, execCycle, e] at h
  · cases h
    exact hs.congr rfl rfl rfl
  · rcases State.finish_eq_next.mp h with ⟨w, r, hw, rfl⟩ | ⟨-, rfl⟩
    · obtain ⟨u, c, hread, hrest⟩ := Attempt.andThen_eq_done.mp hw
      obtain ⟨v, _, hresolve, hv⟩ := Attempt.andThen_eq_done.mp hrest
      cases hv
      obtain ⟨g, hgu, hg⟩ := State.readPhase_awaitsResolve hs hf hread
      rw [← hgu.1] at hg
      obtain ⟨g', hgv, hg'⟩ := (State.resolveArm_eq_done (hgu.fdc?_same hf.1.1) hresolve).fdcInv hg
      rw [hgu.1] at hg'
      exact (hs.replace (hgu.trans hgv) hg').congr rfl rfl rfl
    · exact hs.congr rfl rfl rfl

/-! ## The step -/

/-- A command that decodes to an instruction on a machine is one of the four host commands with a direction (30_encoding.md
R73): the frames and the phases are no commands. -/
theorem machineOf_decodeFitting {c : Command} {i : Instr} {d : Nat} (h : decodeFitting c = .ok i)
    (hm : machineOf i = some d) : i ∈ [Instr.fbInit d, .fbDestroy d, .cycle d, .rdStatus d] := by
  have onPin {g : Bool → Instr} (hg : ∀ v, machineOf (g v) = none) (h : (decodeBit c.b).map g = .ok i) : False := by
    cases hb : decodeBit c.b with
    | error r => rw [hb] at h; cases h
    | ok v =>
      rw [hb] at h
      cases h
      rw [hg v] at hm
      cases hm
  unfold decodeFitting at h
  split at h
  -- the four commands with a one-bit operand
  case h_8 | h_9 | h_12 | h_17 => exact (onPin (fun _ => rfl) h).elim
  all_goals cases h
  all_goals cases hm
  all_goals simp

/-- An agent offers no frame and no channel answer, so that of the instructions on a machine only the host's commands are
offered. -/
theorem machineOf_offered {s : State} {who : Agent} {x : Item} {cfg : Config} {i : Instr} {d : Nat}
    (hx : s.offered who = some x) (h : decode cfg x = .ok i) (hm : machineOf i = some d) :
    i ∈ [Instr.fbInit d, .fbDestroy d, .cycle d, .rdStatus d] := by
  have command {c : Command} (h : decode cfg (.command c) = .ok i) :
      i ∈ [Instr.fbInit d, .fbDestroy d, .cycle d, .rdStatus d] := by
    rw [decode, decodeCommand] at h
    split at h
    · exact machineOf_decodeFitting h hm
    · cases h
  cases who with
  | frameHost =>
    obtain ⟨c, -, rfl⟩ := Option.map_eq_some_iff.mp hx
    exact command h
  | gedHost =>
    obtain ⟨c, -, rfl⟩ := Option.map_eq_some_iff.mp hx
    exact command h
  | environment =>
    obtain ⟨e, -, rfl⟩ := Option.map_eq_some_iff.mp hx
    rw [decode] at h
    split at h <;> cases h
    cases hm
  | resetInput =>
    cases hx
    cases h
    cases hm

/-- What an agent's turn can do: nothing is offered, the item is rejected, or its instruction runs and is retired. -/
theorem stepAgent_eq_next {who : Agent} {s t : State} (h : stepAgent who s = .next t) :
    t = s ∨ (∃ why, t = s.rejectItem who why) ∨
      ∃ x i u, s.offered who = some x ∧ decode s.cfg x = .ok i ∧ exec i s = .next u ∧ t = State.retire who i u := by
  unfold stepAgent at h
  split at h
  · cases h
    exact Or.inl rfl
  · next x hx =>
    split at h
    · next why _ =>
      cases h
      exact Or.inr (Or.inl ⟨why, rfl⟩)
    · next i hi =>
      cases hu : exec i s <;> rw [hu] at h <;> cases h
      exact Or.inr (Or.inr ⟨x, i, _, hx, hi, hu, rfl⟩)

theorem State.Inv.retire {s : State} (hs : s.Inv) (who : Agent) (i : Instr) : (State.retire who i s).Inv := by
  unfold State.retire
  split
  · exact hs
  · exact hs.congr (by simp) (by simp) (by simp)

theorem State.Inv.rejectItem {s : State} (hs : s.Inv) (who : Agent) (why : Reject) : (s.rejectItem who why).Inv :=
  hs.congr (s.drop_cfg who) (s.drop_fdcs who) (s.drop_pins who)

/-- An offered instruction keeps the invariant. -/
theorem exec_inv {s t : State} {who : Agent} {x : Item} {i : Instr} (hs : s.Inv) (hx : s.offered who = some x)
    (hi : decode s.cfg x = .ok i) (h : exec i s = .next t) : t.Inv := by
  cases hm : machineOf i with
  | some d =>
    have hmem := machineOf_offered hx hi hm
    simp only [List.mem_cons, List.not_mem_nil, or_false] at hmem
    rcases hmem with rfl | rfl | rfl | rfl
    · exact execFbInit_inv hs h
    · exact execFbDestroy_inv hs h
    · exact execCycle_inv hs h
    · exact execRdStatus_inv hs h
  | none =>
    by_cases hr : i = .reset
    · subst hr
      exact execReset_inv hs h
    · obtain ⟨u, r, hu, rfl⟩ := exec_touchesPins hm hr h
      exact (hs.of_touchesPins hu).congr rfl rfl rfl

theorem stepAgent_inv {who : Agent} {s t : State} (hs : s.Inv) (h : stepAgent who s = .next t) : t.Inv := by
  rcases stepAgent_eq_next h with rfl | ⟨why, rfl⟩ | ⟨x, i, u, hx, hi, hu, rfl⟩
  · exact hs
  · exact hs.rejectItem who why
  · exact (exec_inv hs hx hi hu).retire who i

/-- Settles O51: an idle machine stays as it is, and an agent's turn keeps the invariant. -/
theorem stepKeepsTheInvariant : Obligations.StepKeepsTheInvariant := by
  intro s t hs h
  rw [step, if_pos hs.config] at h
  split at h
  · cases h
    exact hs
  · next who rest _ => exact stepAgent_inv (hs.congr (t := { s with turns := rest }) rfl rfl rfl) h

end Sys2Proof.Machine
end

section
/-! SUPPORT. The encoding (30_encoding.md): what a frame's type byte selects, what each command code selects, and the
decoder on the item that the encoder picks for an instruction. -/

namespace Sys2Proof

/-! ## Frames (R61 to R69) -/

/-- The named type codes differ from one another (00_scope.md R6). -/
theorem Config.typeCodes_distinct {cfg : Config} (h : cfg.wf = true) :
    cfg.init1Code ≠ cfg.init2Code ∧ cfg.init1Code ≠ keepaliveCode ∧ cfg.init1Code ≠ pwkCode ∧
      cfg.init2Code ≠ keepaliveCode ∧ cfg.init2Code ≠ pwkCode := by
  simp only [Config.wf, Bool.and_eq_true, decide_eq_true_eq] at h
  tauto

@[simp] theorem typeOf_keepaliveCode (cfg : Config) : typeOf cfg keepaliveCode = .keepalive := if_pos rfl

theorem typeOf_init1Code {cfg : Config} (h : cfg.wf = true) : typeOf cfg cfg.init1Code = .init1 := by
  obtain ⟨-, hkeepalive, -⟩ := Config.typeCodes_distinct h
  simp [typeOf, hkeepalive]

theorem typeOf_init2Code {cfg : Config} (h : cfg.wf = true) : typeOf cfg cfg.init2Code = .init2 := by
  obtain ⟨hinit, -, -, hkeepalive, -⟩ := Config.typeCodes_distinct h
  simp [typeOf, hkeepalive, hinit.symm]

theorem typeOf_pwkCode {cfg : Config} (h : cfg.wf = true) : typeOf cfg pwkCode = .panelPowerKey := by
  obtain ⟨-, -, hinit1, -, hinit2⟩ := Config.typeCodes_distinct h
  have hkeepalive : pwkCode ≠ keepaliveCode := by decide
  simp [typeOf, hkeepalive, hinit1.symm, hinit2.symm]

theorem typeOf_of_unnamed {cfg : Config} {c : Byte} (h : cfg.unnamed c = true) : typeOf cfg c = .forwardable c := by
  simp only [Config.unnamed, Bool.and_eq_true, decide_eq_true_eq] at h
  obtain ⟨⟨⟨hkeepalive, hinit1⟩, hinit2⟩, hpwk⟩ := h
  simp [typeOf, hkeepalive, hinit1, hinit2, hpwk]

/-- The last byte of a terminated frame is the end marker, whatever the payload. -/
theorem byteAt_frameBytes_last (c : Byte) (payload : List Byte) :
    byteAt (frameBytes c payload) ((frameBytes c payload).length - 1) = endByte := by
  simp [byteAt, frameBytes]

/-- A terminated frame is classified by its type byte (R66). -/
theorem classify_frameBytes (cfg : Config) (c : Byte) (payload : List Byte) :
    classify cfg (frameBytes c payload) = typeOf cfg c := by
  have hstart : byteAt (frameBytes c payload) 0 = startByte := rfl
  have htype : byteAt (frameBytes c payload) 1 = c := rfl
  have hlength : 2 ≤ (frameBytes c payload).length := by simp [frameBytes]
  rw [classify, if_pos hstart, if_pos ⟨hlength, byteAt_frameBytes_last c payload⟩, htype]

/-- The two-byte frame reads its end marker as its type byte (R69). -/
theorem classify_twoByteFrame (cfg : Config) : classify cfg [startByte, endByte] = typeOf cfg endByte := rfl

/-- Settles O4: both forms of a frame are classified as `typeOf` of the type byte. -/
theorem framesClassifyByTypeByte : Obligations.FramesClassifyByTypeByte := by
  intro cfg hcfg
  refine ⟨fun p => ?_, fun p => ?_, fun p => ?_, fun p => ?_, fun c p hkeepalive hinit1 hinit2 hpwk => ?_, ?_⟩
  · exact (classify_frameBytes cfg _ p).trans (typeOf_keepaliveCode cfg)
  · exact (classify_frameBytes cfg _ p).trans (typeOf_init1Code hcfg)
  · exact (classify_frameBytes cfg _ p).trans (typeOf_init2Code hcfg)
  · exact (classify_frameBytes cfg _ p).trans (typeOf_pwkCode hcfg)
  · have hunnamed : cfg.unnamed c = true := by
      simp only [Config.unnamed, Bool.and_eq_true, decide_eq_true_eq]
      exact ⟨⟨⟨hkeepalive, hinit1⟩, hinit2⟩, hpwk⟩
    exact (classify_frameBytes cfg c p).trans (typeOf_of_unnamed hunnamed)
  · exact (classify_twoByteFrame cfg).trans (classify_frameBytes cfg _ []).symm

/-! ## The status port (R72) -/

theorem FrameTypeCode.statusPort_class (cfg : Config) (t : FrameTypeCode) :
    (t.statusPort cfg).extractLsb' 8 4 = t.classNo := BitVec.extractLsb'_append_eq_left

theorem FrameTypeCode.statusPort_code (cfg : Config) (t : FrameTypeCode) :
    (t.statusPort cfg).extractLsb' 0 8 = t.codeField cfg := BitVec.extractLsb'_append_eq_right

/-- The Frame Type Code read back from the two fields of the port: the class number tells the codes apart, and a
Forwardable one carries its own code. -/
def FrameTypeCode.ofFields (classNo : BitVec 4) (code : Byte) : FrameTypeCode :=
  match classNo.toNat with
  | 0 => .invalid
  | 1 => .incomplete
  | 2 => .endOfStream
  | 3 => .endOfFile
  | 4 => .keepalive
  | 5 => .init1
  | 6 => .init2
  | 7 => .panelPowerKey
  | _ => .forwardable code

@[simp] theorem FrameTypeCode.ofFields_classNo_codeField (cfg : Config) (t : FrameTypeCode) :
    FrameTypeCode.ofFields t.classNo (t.codeField cfg) = t := by
  cases t <;> rfl

theorem FrameTypeCode.statusPort_injective (cfg : Config) :
    Function.Injective (FrameTypeCode.statusPort cfg) := by
  intro t u h
  have hclass : t.classNo = u.classNo := by rw [← statusPort_class cfg t, h, statusPort_class]
  have hcode : t.codeField cfg = u.codeField cfg := by rw [← statusPort_code cfg t, h, statusPort_code]
  rw [← ofFields_classNo_codeField cfg t, hclass, hcode, ofFields_classNo_codeField]

/-- Settles O6: each value is the class number before the code, of which the four codes without one have 0. -/
theorem statusPortTellsCodesApart : Obligations.StatusPortTellsCodesApart := by
  intro cfg _
  refine ⟨?_, ?_, ?_, ?_, ?_, rfl, rfl, ?_, fun _ => rfl, FrameTypeCode.statusPort_injective cfg⟩
  · exact (by decide : 0#4 ++ (0 : Byte) = 0x000)
  · exact (by decide : 1#4 ++ (0 : Byte) = 0x100)
  · exact (by decide : 2#4 ++ (0 : Byte) = 0x200)
  · exact (by decide : 3#4 ++ (0 : Byte) = 0x300)
  · exact (by decide : 4#4 ++ keepaliveCode = 0x40B)
  · exact (by decide : 7#4 ++ pwkCode = 0x7A0)

/-! ## Commands (R73, R74) -/

theorem decode_command_of_fits {cfg : Config} {c : Command} (h : cfg.fitsA c.a = true) :
    decode cfg (.command c) = decodeFitting c := if_pos h

/-- The command codes of R73. -/
def commandCodes : List Byte :=
  [0x00, 0x01, 0x02, 0x03, 0x04, 0x10, 0x11, 0x12, 0x13, 0x14, 0x15, 0x16, 0x17, 0x18, 0x20, 0x21, 0x22]

/-- A one-bit operand is decoded or rejected for its value, never for the command code. -/
theorem map_decodeBit_ne_unknownCommand (b : BitVec 2) (g : Bool → Instr) (cmd : Byte) :
    (decodeBit b).map g ≠ .error (.unknownCommand cmd) := by
  unfold decodeBit
  split
  · nofun
  · split <;> nofun

/-- A command word is refused by its code exactly when the code is not listed. -/
theorem decodeFitting_eq_unknownCommand (c : Command) :
    decodeFitting c = .error (.unknownCommand c.cmd) ↔ c.cmd ∉ commandCodes := by
  have hmem : c.cmd ∈ commandCodes ↔ c.cmd.toNat ∈ commandCodes.map BitVec.toNat :=
    (List.mem_map_of_injective fun _ _ => BitVec.eq_of_toNat_eq).symm
  rw [hmem]
  unfold decodeFitting
  split
  -- the four commands with a one-bit operand
  case h_8 hc | h_9 hc | h_12 hc | h_17 hc => simp [hc, commandCodes, map_decodeBit_ne_unknownCommand]
  -- a code that is none of the seventeen
  case h_18 => simp_all [commandCodes]
  all_goals
    next hc => simp [hc, commandCodes]

theorem decodeBit_of_wide {b : BitVec 2} (h : b = 2 ∨ b = 3) : decodeBit b = .error (.notOneBit b) := by
  rcases h with rfl | rfl <;> rfl

/-- Settles O3: the operand fits, so that the code alone selects the row, and `b` its value where the row has one. -/
theorem onlyListedCommandsDecode : Obligations.OnlyListedCommandsDecode := by
  intro cfg cmd a b hok ha
  rw [decode_command_of_fits (c := ⟨cmd, a, b, hok⟩) ha]
  refine ⟨decodeFitting_eq_unknownCommand _, fun i hi => ?_, fun i hi => ?_, fun hc hb => ?_⟩
  · simp only [List.mem_cons, Prod.mk.injEq, List.not_mem_nil, or_false] at hi
    rcases hi with ⟨rfl, rfl⟩ | ⟨rfl, rfl⟩ | ⟨rfl, rfl⟩ | ⟨rfl, rfl⟩ | ⟨rfl, rfl⟩ | ⟨rfl, rfl⟩ | ⟨rfl, rfl⟩ | ⟨rfl, rfl⟩ |
      ⟨rfl, rfl⟩ | ⟨rfl, rfl⟩ | ⟨rfl, rfl⟩ | ⟨rfl, rfl⟩ | ⟨rfl, rfl⟩ <;> rfl
  · simp only [List.mem_cons, Prod.mk.injEq, List.not_mem_nil, or_false] at hi
    rcases hi with ⟨rfl, rfl, rfl⟩ | ⟨rfl, rfl, rfl⟩ | ⟨rfl, rfl, rfl⟩ | ⟨rfl, rfl, rfl⟩ | ⟨rfl, rfl, rfl⟩ |
      ⟨rfl, rfl, rfl⟩ | ⟨rfl, rfl, rfl⟩ | ⟨rfl, rfl, rfl⟩ <;> rfl
  · simp only [List.mem_cons, List.not_mem_nil, or_false] at hc
    rcases hc with rfl | rfl | rfl | rfl <;> exact congrArg (Except.map _) (decodeBit_of_wide hb)

/-! ## Decoding an encoding -/

theorem decode_frameBytes {cfg : Config} {d : Nat} {c : Byte} {t : FrameTypeCode} (hd : d < cfg.nDir)
    (ht : typeOf cfg c = t) (payload : List Byte) :
    decode cfg (.frame d (frameBytes c payload)) = .ok (frameInstr d t) := by
  rw [← ht, ← classify_frameBytes cfg c payload]
  exact if_pos hd

/-- The decoder reads back what the encoder wrote: a frame by its type byte, a command by its code, once the operands pass
the decoder's own checks. -/
theorem decode_encode {cfg : Config} {i : Instr} {x : Item} (hcfg : cfg.wf = true) (hi : i.wf cfg = true)
    (hx : encode cfg i = some x) : decode cfg x = .ok i := by
  cases i <;> cases hx
  case keepalive d => exact decode_frameBytes (of_decide_eq_true hi) (typeOf_keepaliveCode cfg) _
  case init1 d => exact decode_frameBytes (of_decide_eq_true hi) (typeOf_init1Code hcfg) _
  case init2 d => exact decode_frameBytes (of_decide_eq_true hi) (typeOf_init2Code hcfg) _
  case pwk d => exact decode_frameBytes (of_decide_eq_true hi) (typeOf_pwkCode hcfg) _
  case fwd d c =>
    obtain ⟨hd, hc⟩ := Bool.and_eq_true_iff.mp hi
    exact decode_frameBytes (of_decide_eq_true hd) (typeOf_of_unnamed hc) _
  -- the other items that name a direction
  case incomplete d | eos d | invalid d | eof d | ack1 d | ack2 d src => exact if_pos (of_decide_eq_true hi)
  case invalidRdErr d e =>
    obtain ⟨hd, he⟩ := Bool.and_eq_true_iff.mp hi
    exact (if_pos (of_decide_eq_true hd)).trans (if_pos (of_decide_eq_true he))
  case sample p v => exact if_pos (of_decide_eq_true hi)
  -- the commands
  case reset | initPowerKeySensor => exact decode_command_of_fits (Laws.fitsA_zero cfg)
  case setDirection p x => cases x <;> exact decode_command_of_fits hi
  case setPolarity p v | writeValue p v | setPin p v => cases v <;> exact decode_command_of_fits hi
  all_goals exact decode_command_of_fits hi

/-- Settles O2: `decode_encode`, and `encode` answers for every constructor but the two phases. -/
theorem decodeOfEncodeIsIdentity : Obligations.DecodeOfEncodeIsIdentity := by
  intro cfg i hcfg hi
  refine ⟨fun x hx => decode_encode hcfg hi hx, ?_⟩
  cases i
  case readInto d => exact .inr (.inl ⟨d, rfl⟩)
  case resolve d t => exact .inr (.inr ⟨d, t, rfl⟩)
  all_goals exact .inl ⟨_, rfl⟩

/-- Settles O1: each item is fixed, and the decoder is run on it. -/
theorem wordsOfTheTablesDecode : Obligations.WordsOfTheTablesDecode := by
  unfold Obligations.WordsOfTheTablesDecode
  decide

end Sys2Proof
end

section
/-! SUPPORT. The emitted acknowledgements (30_encoding.md R67). -/

namespace Sys2Proof.Machine

/-- Settles O22: each acknowledgement is one answered write of its emitter. -/
theorem acknowledgementsAreFixedFrames : Obligations.AcknowledgementsAreFixedFrames := by
  refine ⟨fun _ _ => rfl, fun k n => ⟨fun h => if_pos h, fun h => if_neg h⟩, fun s d f a ws halive hw ha => ?_⟩
  have hfdc : s.fdc? d = some f := halive.1
  refine ⟨?_, ?_, ?_⟩
  · simp only [exec, execAck1, State.onAlive_of_alive halive, State.countedWrite_of_writes hfdc hw ha]
    rfl
  · simp only [exec, execAck2, State.onAlive_of_alive halive, State.countedWrite_of_writes hfdc hw ha]
    rfl
  · simp only [exec, execAck2, State.onAlive_of_alive halive, State.ack2Only_of_writes hfdc hw ha]
    rfl

end Sys2Proof.Machine
end

section
/-! SUPPORT. One step (30_encoding.md R73; log entry 10): the turn is taken, and what the agent offers is decoded and run
or refused. -/

namespace Sys2Proof.Machine

theorem step_idle {s : State} (hcfg : s.cfg.wf = true) (h : s.turns = []) : step s = .next s := by
  simp [step, hcfg, h]

theorem step_turn {s : State} {who : Agent} {rest : List Agent} (hcfg : s.cfg.wf = true)
    (h : s.turns = who :: rest) : step s = stepAgent who { s with turns := rest } := by
  simp [step, hcfg, h]

theorem stepAgent_of_none {s : State} {who : Agent} (h : s.offered who = none) : stepAgent who s = .next s := by
  simp [stepAgent, h]

theorem stepAgent_of_error {s : State} {who : Agent} {x : Item} {why : Reject} (hx : s.offered who = some x)
    (hd : decode s.cfg x = .error why) : stepAgent who s = .next (s.rejectItem who why) := by
  simp [stepAgent, hx, hd]

theorem stepAgent_of_ok {s : State} {who : Agent} {x : Item} {i : Instr} (hx : s.offered who = some x)
    (hd : decode s.cfg x = .ok i) : stepAgent who s = retireOutcome who i (exec i s) := by
  simp [stepAgent, hx, hd]

/-- What an agent offers does not depend on the schedule. -/
@[simp] theorem State.offered_turns (s : State) (rest : List Agent) (who : Agent) :
    ({ s with turns := rest } : State).offered who = s.offered who := by cases who <;> rfl

theorem State.retire_eq (who : Agent) (i : Instr) (t : State) : State.retire who i t =
    if t.ret = .held then t else { t.drop who with history := t.history ++ [.finished who i t.ret] } := by
  rw [State.retire, State.log, State.drop_history]

/-- A rejected item leaves its own queue and no other. -/
theorem State.rejectItem_eq (s : State) (who : Agent) (why : Reject) : s.rejectItem who why = { s with
    frameQ := if who = .frameHost then s.frameQ.tail else s.frameQ
    gedQ := if who = .gedHost then s.gedQ.tail else s.gedQ
    samples := if who = .environment then s.samples.tail else s.samples
    ret := .refused
    history := s.history ++ [.rejected who why] } := by
  cases who <;> rfl

/-- Settles O7: the turn is taken, the offered item is decoded and run, and its outcome is retired. -/
theorem stepRunsTheDecodedItem : Obligations.StepRunsTheDecodedItem := by
  intro s who rest x i hcfg hturns hx hd
  have hstep : step s = retireOutcome who i (exec i { s with turns := rest }) :=
    (step_turn hcfg hturns).trans (stepAgent_of_ok ((s.offered_turns rest who).trans hx) hd)
  refine ⟨fun t ht => ?_, fun r hr => ?_⟩
  · rw [hstep, ht, retireOutcome, State.retire_eq]
  · rw [hstep, hr, retireOutcome]

/-- Settles O8: the turn is taken, and a rejected item leaves its queue. -/
theorem stepRefusesRejectedItems : Obligations.StepRefusesRejectedItems := by
  intro s hcfg
  refine ⟨fun who rest x why hturns hx hd => ?_, fun who rest hturns hx => ?_, step_idle hcfg⟩
  · rw [step_turn hcfg hturns, stepAgent_of_error ((s.offered_turns rest who).trans hx) hd, State.rejectItem_eq]
  · rw [step_turn hcfg hturns, stepAgent_of_none ((s.offered_turns rest who).trans hx)]

end Sys2Proof.Machine
end

section
/-! SUPPORT. The classification of a buffered frame (40_frame_reader.md R95, R96), read off its first, second and last byte
and its length. -/

namespace Sys2Proof

theorem byteAt_eq_iff {bs : List Byte} {i : Nat} {c : Byte} (h : i < bs.length) : byteAt bs i = c ↔ bs[i]? = some c := by
  rw [byteAt, List.getD_eq_getElem bs 0 h, List.getElem?_eq_getElem h, Option.some.injEq]

/-- A type byte never selects a code that says how the classification failed or the stream ended. -/
theorem typeOf_not_mem_unterminated (cfg : Config) (c : Byte) :
    typeOf cfg c ∉ [FrameTypeCode.endOfStream, .invalid, .incomplete, .endOfFile] := by
  unfold typeOf
  repeat' split
  all_goals simp

/-- The three cases of R95 on a non-empty buffer, in the order in which they are tried. -/
theorem classify_of_ne_nil (cfg : Config) {bs : List Byte} (h : bs ≠ []) :
    classify cfg bs =
      if bs.head? = some 0xFE then
        if 2 ≤ bs.length ∧ bs.getLast? = some 0xFD then typeOf cfg (byteAt bs 1) else .incomplete
      else if bs = [0x00] then .endOfStream
      else .invalid := by
  have hpos : 0 < bs.length := List.length_pos_iff.mpr h
  have hfirst (c : Byte) : byteAt bs 0 = c ↔ bs.head? = some c := by
    rw [byteAt_eq_iff hpos, List.head?_eq_getElem?]
  have hlast : byteAt bs (bs.length - 1) = endByte ↔ bs.getLast? = some 0xFD := by
    rw [byteAt_eq_iff (Nat.sub_lt hpos Nat.one_pos), List.getLast?_eq_getElem?]
    rfl
  have hsentinel : byteAt bs 0 = eosByte ∧ bs.length = 1 ↔ bs = [0x00] := by
    rw [hfirst, and_comm, List.length_eq_one_iff]
    constructor
    · rintro ⟨⟨b, rfl⟩, hb⟩
      exact congrArg (fun b => [b]) (Option.some.inj hb)
    · rintro rfl
      exact ⟨⟨_, rfl⟩, rfl⟩
  have hstart : byteAt bs 0 = startByte ↔ bs.head? = some 0xFE := hfirst startByte
  simp only [classify, hstart, hlast, hsentinel]

/-- Settles O5: by the first byte, then whether the frame is terminated, or whether it is the lone sentinel. -/
theorem classificationHasThreeCases : Obligations.ClassificationHasThreeCases := by
  intro cfg bs hne
  rw [classify_of_ne_nil cfg hne]
  by_cases hstart : bs.head? = some 0xFE
  · have hsentinel : bs ≠ [0x00] := by
      rintro rfl
      exact absurd hstart (by decide)
    rw [if_pos hstart]
    by_cases hend : 2 ≤ bs.length ∧ bs.getLast? = some 0xFD
    · rw [if_pos hend]
      have htype := typeOf_not_mem_unterminated cfg (byteAt bs 1)
      simp only [List.mem_cons, List.not_mem_nil, or_false, not_or] at htype
      obtain ⟨heos, hinvalid, hincomplete, heof⟩ := htype
      refine ⟨iff_of_false heos hsentinel, iff_of_false hinvalid fun h => h.1 hstart,
        iff_of_false hincomplete fun h => h.2 hend, fun _ hlen _ c hc => ?_, heof⟩
      rw [(byteAt_eq_iff hlen).mpr hc]
    · rw [if_neg hend]
      exact ⟨iff_of_false nofun hsentinel, iff_of_false nofun fun h => h.1 hstart, iff_of_true rfl ⟨hstart, hend⟩,
        fun _ hlen hlast => absurd ⟨hlen, hlast⟩ hend, nofun⟩
  · rw [if_neg hstart]
    by_cases hsentinel : bs = [0x00]
    · rw [if_pos hsentinel]
      exact ⟨iff_of_true rfl hsentinel, iff_of_false nofun fun h => h.2 hsentinel,
        iff_of_false nofun fun h => hstart h.1, fun h => absurd h hstart, nofun⟩
    · rw [if_neg hsentinel]
      exact ⟨iff_of_false nofun hsentinel, iff_of_true rfl ⟨hstart, hsentinel⟩,
        iff_of_false nofun fun h => hstart h.1, fun h => absurd h hstart, nofun⟩

end Sys2Proof
end

section
/-! SUPPORT. The Frame Reader: what a read phase and a whole cycle leave of their machine and record, by the answer to the
read (40_frame_reader.md R92 to R99), and the latch of a full buffer. -/

namespace Sys2Proof.Machine

/-! ## The read phase on its own -/

/-- `READ_INTO` of an admitted machine ends as its read phase does. -/
theorem execReadInto_of_readPhase {s t : State} {d : Nat} {f : Fdc} {c : FrameTypeCode} (hr : s.Ready d f)
    (h : s.readPhase d = .done t c) : exec (.readInto d) s = .next { t with ret := .code c } := by
  rw [exec, execReadInto, State.onReady_of_ready hr, h]
  rfl

/-- Settles O13: the memory is that of the fill. -/
theorem readPhaseStoresTheBytes : Obligations.ReadPhaseStoresTheBytes := by
  intro s d f bs rest hr hb hq hpos hlen
  obtain ⟨⟨hf, -⟩, hff⟩ := id hr
  refine ⟨f.buf.fill f.cursor bs, Memory.read_fill_inside f.buf f.cursor bs hb,
    Memory.read_fill_outside f.buf f.cursor bs, ?_⟩
  rw [execReadInto_of_readPhase hr (State.readPhase_bytes hf hb hq hpos hlen), Fdc.afterBytes, hff, Bool.false_or]
  rfl

/-- Settles O14: the read phase takes the answer and leaves the machine. -/
theorem readPhaseAtEndOfFile : Obligations.ReadPhaseAtEndOfFile := fun _ _ _ _ hr hq =>
  execReadInto_of_readPhase hr (State.readPhase_eof hr.1.1 hq)

/-- Settles O15: the read phase takes the answer and records it. -/
theorem readPhaseRecordsReadError : Obligations.ReadPhaseRecordsReadError := fun _ _ _ _ _ hr he hq =>
  execReadInto_of_readPhase hr (State.readPhase_err hr.1.1 he hq)

/-! ## What a cycle leaves of its machine -/

/-- The machine after a read answered `a` (R92 to R94, R98). -/
def Fdc.afterRead (cfg : Config) (f : Fdc) : ReadAns → Fdc
  | .bytes bs => f.afterBytes cfg bs
  | .eof => f
  | .err e => { f with rdErr := true, rdErrCode := e }

/-- The Frame Type Code that a read answered `a` returns (R92 to R94). -/
def Fdc.codeOfRead (cfg : Config) (f : Fdc) : ReadAns → FrameTypeCode
  | .bytes bs => classify cfg (f.content ++ bs)
  | .eof => .endOfFile
  | .err _ => .invalid

/-- A read phase that ran to its end leaves and returns what its answer says. -/
theorem State.readPhase_leaves {s u : State} {d : Nat} {c : FrameTypeCode} {f : Fdc} {a : ReadAns}
    {rest : List ReadAns} (hf : s.fdc? d = some f) (hb : f.buf.wf = true)
    (hq : (s.chan (s.inCh d)).reads = a :: rest) (h : s.readPhase d = .done u c) :
    u.fdc? d = some (f.afterRead s.cfg a) ∧ c = f.codeOfRead s.cfg a := by
  obtain ⟨a', rest', hq', hfit⟩ := State.readPhase_eq_done h
  obtain ⟨rfl, rfl⟩ := List.cons.inj (hq'.symm.trans hq)
  rw [State.fdcD_of_some hf] at hfit
  cases a' with
  | eof =>
    rw [State.readPhase_eof hf hq] at h
    cases h
    exact ⟨hf, rfl⟩
  | err e =>
    rw [State.readPhase_err hf (of_decide_eq_true hfit) hq] at h
    cases h
    exact ⟨State.fdc?_withFdc_same (s := s.withReads (s.inCh d) rest') hf _, rfl⟩
  | bytes bs =>
    obtain ⟨hpos, hlen⟩ : 1 ≤ bs.length ∧ bs.length ≤ s.cfg.cap - f.cursor := by simpa [ReadAns.fits] using hfit
    rw [State.readPhase_bytes hf hb hq hpos hlen] at h
    cases h
    exact ⟨State.fdc?_withFdc_same (s := s.withReads (s.inCh d) rest') hf _, rfl⟩

/-- The resolve phase changes the cursor and the counters of its machine, and no byte or flag of it
(41_packet_dispatcher.md R125). -/
theorem State.ResolvedTo.fdc?_same {s t : State} {d : Nat} {c : FrameTypeCode} {f : Fdc} (h : s.ResolvedTo d c f t)
    (hf : s.fdc? d = some f) : ∃ v i w, t.fdc? d = some { f with
      cursor := if c = .incomplete then f.cursor else 0, valid := v, invalid := i, writeErrors := w } := by
  obtain ⟨_, g, _, rfl, -, -, -, hg, -⟩ := h
  exact ⟨_, _, _, (State.fdc?_withFdc_same hf g).trans (congrArg some hg)⟩

/-- A cycle that ran to its end leaves the machine as its read did, but for the cursor and the counters. -/
theorem execCycle_leaves {s t : State} {d : Nat} {c : FrameTypeCode} {f : Fdc} {a : ReadAns} {rest : List ReadAns}
    (hf : s.fdc? d = some f) (hb : f.buf.wf = true) (hq : (s.chan (s.inCh d)).reads = a :: rest)
    (h : exec (.cycle d) s = .next t) (ht : t.ret = .code c) :
    c = f.codeOfRead s.cfg a ∧ ∃ v i w, t.fdc? d = some { f.afterRead s.cfg a with
      cursor := if c = .incomplete then (f.afterRead s.cfg a).cursor else 0
      valid := v, invalid := i, writeErrors := w } := by
  obtain ⟨_, u, v, -, hread, hresolve, rfl⟩ := execCycle_eq_code h ht
  obtain ⟨hu, hc⟩ := State.readPhase_leaves hf hb hq hread
  exact ⟨hc, (State.resolveArm_eq_done hu hresolve).fdc?_same hu⟩

/-- Settles O25: `execCycle_leaves`, for each of the three answers. -/
theorem cycleStoresOnlyWhatItRead : Obligations.CycleStoresOnlyWhatItRead := by
  intro s t d c f a rest hr hb hq h ht
  obtain ⟨⟨hf, halive⟩, hff⟩ := hr
  obtain ⟨hc, v, i, w, hg⟩ := execCycle_leaves hf hb hq h ht
  refine ⟨_, hg, ?_⟩
  cases a with
  | eof =>
    subst hc
    exact ⟨halive, nofun, fun _ _ => rfl, nofun, fun _ => ⟨rfl, rfl⟩, hff⟩
  | err e =>
    subst hc
    refine ⟨halive, nofun, fun _ _ => rfl, fun e' he => ?_, fun he => absurd rfl (he e), hff⟩
    cases he
    exact ⟨rfl, rfl⟩
  | bytes bs =>
    refine ⟨halive, fun bs' he => ?_, fun he => absurd rfl (he bs), nofun, fun _ => ⟨rfl, rfl⟩, ?_⟩
    · cases he
      exact ⟨Memory.read_fill_inside f.buf f.cursor bs hb, Memory.read_fill_outside f.buf f.cursor bs⟩
    · have hc' : classify s.cfg (f.content ++ bs) = c := hc.symm
      by_cases hi : c = .incomplete <;> simp [Fdc.afterRead, Fdc.afterBytes, hff, hc', hi]

/-! ## What a cycle records -/

/-- Settles O28: the read phase records its read first and no write after it, the resolve phase no read and at most two
writes. -/
theorem oneReadAtMostTwoWrites : Obligations.OneReadAtMostTwoWrites := by
  intro s t d c f hf h ht
  obtain ⟨f', u, v, ⟨⟨hf', -⟩, hff⟩, hread, hresolve, rfl⟩ := execCycle_eq_code h ht
  obtain rfl : f = f' := Option.some.inj (hf.symm.trans hf')
  obtain ⟨a, g, _, es, -, hu, hreads, hwrites, -⟩ := State.readPhase_effect hf hff hread
  have hug : u.fdc? d = some g := by
    rw [hu]
    exact State.fdc?_withFdc_same hf g
  obtain ⟨es', _, _, rfl, hreads', hwrites', -⟩ := State.resolveArm_eq_done hug hresolve
  refine ⟨a, es ++ es', ?_, ?_, ?_⟩
  · show u.history ++ es' = _
    rw [hu]
    exact List.append_assoc s.history _ es'
  · rw [List.filter_append, hreads, hreads', List.append_nil]
  · rw [writesOf, List.filter_append, hwrites, List.nil_append]
    exact hwrites'

/-! ## Capacity exhaustion -/

/-- A cycle whose read leaves the machine Incomplete ends as its read phase does (41_packet_dispatcher.md R120). -/
theorem execCycle_of_incomplete {s t : State} {d : Nat} {f : Fdc} (hr : s.Ready d f)
    (h : s.readPhase d = .done t .incomplete) :
    exec (.cycle d) s = .next { t with ret := .code .incomplete } := by
  rw [exec, execCycle, State.onReady_of_ready hr, h]
  rfl

theorem State.onAlive_of_not_alive {s : State} {d : Nat} (h : ∀ f, ¬ s.Alive d f) (k : Fdc → Attempt Result) :
    s.onAlive d k = s.refuse := by
  rcases s.onAlive_cases d k with ⟨-, e⟩ | ⟨f, hf, -⟩
  · exact e
  · exact absurd hf (h f)

theorem State.onReady_of_not_ready {s : State} {d : Nat} (h : ∀ f, ¬ s.Ready d f) (k : Fdc → Attempt Result) :
    s.onReady d k = s.refuse := by
  rcases s.onReady_cases d k with ⟨-, e⟩ | ⟨f, hf, -⟩
  · exact e
  · exact absurd hf (h f)

/-- `CYCLE` is refused on a machine that is faulted or dead (41_packet_dispatcher.md R110). -/
theorem execCycle_refused {s : State} {d : Nat} {f : Fdc} (hf : s.fdc? d = some f)
    (h : f.faultFull = true ∨ f.alive = false) : exec (.cycle d) s = .next { s with ret := .refused } := by
  have hnot (g : Fdc) : ¬ s.Ready d g := by
    rintro ⟨⟨hg, halive⟩, hff⟩
    obtain rfl : f = g := Option.some.inj (hf.symm.trans hg)
    simp [halive, hff] at h
  rw [exec, execCycle, State.onReady_of_not_ready hnot]
  rfl

/-- No instruction on a dead machine but `FB_INIT` changes it: it is refused, or reads the status (10_state.md R32,
43_host_interface.md R182). -/
theorem exec_fdc?_of_not_alive {i : Instr} {d : Nat} {s t : State} (hm : machineOf i = some d) (hi : i ≠ .fbInit d)
    (hdead : ∀ f, ¬ s.Alive d f) (h : exec i s = .next t) : t.fdc? d = s.fdc? d := by
  have refused (k : Fdc → Attempt Result) (h : s.finish (s.onAlive d k) = .next t) : t.fdc? d = s.fdc? d := by
    rw [State.onAlive_of_not_alive hdead] at h
    cases h
    rfl
  cases i <;> cases hm
  case fbInit => exact absurd rfl hi
  case rdStatus =>
    rcases s.onFdc_cases d (fun f => .done s (.status f.toStatus)) with ⟨-, e⟩ | ⟨f, -, e⟩ <;>
      rw [exec, execRdStatus, e] at h <;> cases h <;> rfl
  all_goals exact refused _ h

/-- An instruction that does not act on machine `d` leaves it, `RESET` apart (10_state.md R33). -/
theorem exec_fdc?_of_elsewhere {i : Instr} {d : Nat} {s t : State} (hm : machineOf i ≠ some d) (hreset : i ≠ .reset)
    (h : exec i s = .next t) : t.fdc? d = s.fdc? d := by
  cases he : machineOf i with
  | none =>
    obtain ⟨u, r, ⟨_, _, _, rfl, -⟩, rfl⟩ := exec_touchesPins he hreset h
    rfl
  | some e =>
    obtain ⟨-, -, -, hother⟩ := exec_isolated he h
    exact hother d fun hde => hm (hde ▸ he)

/-- No instruction but `FB_INIT(d)` and `RESET` takes machine `d` out of being faulted or dead (10_state.md R15, R32). -/
theorem exec_keeps_faulted_or_dead {i : Instr} {d : Nat} {s t : State} {f : Fdc} (hf : s.fdc? d = some f)
    (hfault : f.faultFull = true ∨ f.alive = false) (hinit : i ≠ .fbInit d) (hreset : i ≠ .reset)
    (h : exec i s = .next t) : ∃ g, t.fdc? d = some g ∧ (g.faultFull = true ∨ g.alive = false) := by
  rcases hfault with hfault | hdead
  · obtain ⟨g, hg, -, hkeep⟩ := stickyFlagsStay i s t d f h hinit hreset hf
    exact ⟨g, hg, .inl (hkeep hfault)⟩
  · have hnot (g : Fdc) : ¬ s.Alive d g := by
      rintro ⟨hg, halive⟩
      obtain rfl : f = g := Option.some.inj (hf.symm.trans hg)
      simp [hdead] at halive
    have hsame : t.fdc? d = s.fdc? d := by
      by_cases hm : machineOf i = some d
      · exact exec_fdc?_of_not_alive hm hinit hnot h
      · exact exec_fdc?_of_elsewhere hm hreset h
    exact ⟨f, hsame.trans hf, .inr hdead⟩

/-- `FB_INIT(d)` empties machine `d` and admits its cycles (43_host_interface.md R180). -/
theorem execFbInit_ready {s : State} {d : Nat} {f : Fdc} (hf : s.fdc? d = some f) :
    ∃ t, exec (.fbInit d) s = .next t ∧ t.Ready d (f.cleared true) := by
  refine ⟨{ s.updFdc d (Fdc.cleared true) with ret := .done }, ?_, ⟨?_, rfl⟩, rfl⟩
  · rw [exec, execFbInit, State.onFdc_of_some hf]
    rfl
  · exact (State.fdc?_updFdc s d _ d).trans (by simp [hf])

/-- `RESET` clears every machine and leaves it to be initialised (70_reset_and_hazards.md R220). -/
theorem execReset_cleared {s : State} {d : Nat} {f : Fdc} (hf : s.fdc? d = some f) :
    ∃ t, exec .reset s = .next t ∧ t.fdc? d = some (f.cleared false) := by
  obtain ⟨hd, hf⟩ := State.fdc?_eq_some.mp hf
  exact ⟨_, rfl, State.fdc?_eq_some.mpr ⟨hd, by simp [hf]⟩⟩

/-- Settles O16: the read phase raises the fault and the Incomplete action keeps it; the latch is
`exec_keeps_faulted_or_dead`. -/
theorem capacityExhaustionLatches : Obligations.CapacityExhaustionLatches := by
  refine ⟨fun s d f bs rest hr hb hq hpos hfull hc => ?_, fun s d f hf hfault => ⟨?_, ?_, ?_, ?_⟩⟩
  · have hf : s.fdc? d = some f := hr.1.1
    have hread := State.readPhase_bytes hf hb hq hpos (by omega)
    rw [hc] at hread
    refine ⟨_, f.afterBytes s.cfg bs, execCycle_of_incomplete hr hread, rfl,
      State.fdc?_withFdc_same (s := s.withReads (s.inCh d) rest) hf _, ?_, hfull, rfl, rfl, rfl⟩
    simp [Fdc.afterBytes, hc, hfull]
  · exact execCycle_refused hf hfault
  · intro i t hinit hreset h
    obtain ⟨g, hg, hfault'⟩ := exec_keeps_faulted_or_dead hf hfault hinit hreset h
    exact ⟨g, hg, hfault', execCycle_refused hg hfault'⟩
  · obtain ⟨t, h, hready⟩ := execFbInit_ready hf
    exact ⟨t, _, h, hready, rfl⟩
  · obtain ⟨t, h, hg⟩ := execReset_cleared hf
    exact ⟨t, _, h, hg, rfl, rfl⟩

end Sys2Proof.Machine
end

section
/-! SUPPORT. The Packet Dispatcher (41_packet_dispatcher.md): what each operation of the frame path does with its phases, the
effect of each frame when its writes are answered, and what a whole cycle does. -/

namespace Sys2Proof.Machine

/-! ## Each operation as the end of its phases -/

/-- A frame instruction on an alive machine is the resolve action of its Frame Type Code, which it returns. -/
theorem exec_frameInstr_of_alive {s : State} {d : Nat} {f : Fdc} (ha : s.Alive d f) (c : FrameTypeCode) :
    exec (frameInstr d c) s = s.finish ((s.resolveArm d c).andThen fun t _ => .done t (.code c)) := by
  rw [exec_frameInstr, State.dispatchFrame, State.onAlive_of_alive ha]

/-- `RESOLVE` on an alive machine is the resolve action of its Frame Type Code, and returns nothing. -/
theorem execResolve_of_alive {s : State} {d : Nat} {f : Fdc} (ha : s.Alive d f) (c : FrameTypeCode) :
    exec (.resolve d c) s = s.finish ((s.resolveArm d c).andThen fun t _ => .done t .done) := by
  rw [exec, execResolve, State.onAlive_of_alive ha]

/-- A cycle whose read phase ended goes on with the resolve action of the code read. -/
theorem execCycle_of_readPhase {s u : State} {d : Nat} {f : Fdc} {c : FrameTypeCode} (hr : s.Ready d f)
    (h : s.readPhase d = .done u c) :
    exec (.cycle d) s = s.finish ((u.resolveArm d c).andThen fun t _ => .done t (.code c)) := by
  rw [exec, execCycle, State.onReady_of_ready hr, h]
  rfl

/-- A frame instruction whose resolve action ended answers its Frame Type Code. -/
theorem exec_frameInstr_of_resolved {s t : State} {d : Nat} {f : Fdc} {c : FrameTypeCode} (ha : s.Alive d f)
    (h : s.resolveArm d c = .done t ()) : exec (frameInstr d c) s = .next { t with ret := .code c } := by
  rw [exec_frameInstr_of_alive ha, h]
  rfl

/-- A read phase on its own that returned a Frame Type Code ran on an admitted machine to its end. -/
theorem execReadInto_eq_code {s u : State} {d : Nat} {c : FrameTypeCode} (h : exec (.readInto d) s = .next u)
    (hu : u.ret = .code c) :
    ∃ f v, s.Ready d f ∧ s.readPhase d = .done v c ∧ u = { v with ret := .code c } := by
  rcases s.onReady_cases d (fun _ => (s.readPhase d).andThen fun t c => .done t (.code c)) with
    ⟨-, e⟩ | ⟨f, hf, e⟩ <;> rw [exec, execReadInto, e] at h
  · cases h
    cases hu
  · rcases State.finish_eq_next.mp h with ⟨v, r, hv, rfl⟩ | ⟨-, rfl⟩
    · obtain ⟨w, c', hread, hw⟩ := Attempt.andThen_eq_done.mp hv
      cases hw
      cases hu
      exact ⟨f, v, hf, hread, rfl⟩
    · cases hu

/-- Taking channel answers and recording events besides replacing a machine changes nothing else that `Replaces` reads. -/
theorem State.Replaces.of_withFdc {s u : State} {d : Nat} {g : Fdc} {chans : List ChannelEnv} {history : List Event}
    (h : u = { (s.withFdc d g) with chans := chans, history := history }) : State.Replaces d g s u := by
  rw [h]
  exact ⟨rfl, rfl, rfl⟩

/-- The read phase leaves its machine alive. -/
theorem State.readPhase_alive {s u : State} {d : Nat} {f : Fdc} {c : FrameTypeCode} (hr : s.Ready d f)
    (h : s.readPhase d = .done u c) : ∃ g, u.Alive d g := by
  obtain ⟨⟨hf, halive⟩, hff⟩ := hr
  obtain ⟨_, g, _, _, -, hu, -, -, -, -, -, -, hg, -⟩ := State.readPhase_effect hf hff h
  exact ⟨g, (State.Replaces.of_withFdc hu).fdc?_same hf, hg.trans halive⟩

/-- Settles O12: after the read phase, the cycle and the frame instruction are the same resolve action. -/
theorem cycleReadsThenDispatches : Obligations.CycleReadsThenDispatches := by
  intro s u d c h hu
  obtain ⟨f, v, hr, hread, rfl⟩ := execReadInto_eq_code h hu
  obtain ⟨g, hg⟩ := State.readPhase_alive hr hread
  have halive : State.Alive { v with ret := .code c } d g := hg
  rw [execCycle_of_readPhase hr hread, exec_frameInstr_of_alive halive,
    State.resolveArm_ret v (.code c) d c]
  cases v.resolveArm d c with
  | done t _ => rfl
  | held => rfl
  | refused r => rfl

/-! ## The effect of each frame -/

/-- `Done(d, valid)` after an action that replaced the machine and recorded its requests (R124). -/
theorem State.thenValid_done {s : State} {d : Nat} {f : Fdc} (hf : s.fdc? d = some f) (g : Fdc) (es : List Event)
    (r : Result) : State.thenValid (.done ((s.withFdc d g).returning es r) ()) d =
      .done ((s.withFdc d { g with cursor := 0, valid := (g.valid + 1) % 2 ^ s.cfg.cntW }).returning es r) () := by
  rw [State.thenValid, Attempt.done_andThen, State.doneValid_returning,
    State.doneValid_eq (State.fdc?_withFdc_same hf g), State.withFdc_withFdc]
  rfl

/-- Recording nothing only returns an answer. -/
theorem State.returning_nil (s : State) (r : Result) : s.returning [] r = { s with ret := r } := by
  rw [State.returning, List.append_nil]

/-- Settles O17: both codes select the handshake. -/
theorem keepaliveAndInit1Handshake : Obligations.KeepaliveAndInit1Handshake := by
  rintro s d f a1 a2 ws ha hw h1 h2 t rfl
  have hf : s.fdc? d = some f := ha.1
  have harm := congrArg (State.thenValid · d) (State.handshake_of_writes hf hw h1 h2)
  simp only [State.thenValid_done (s := s.withWrites (s.inCh d) ws) hf] at harm
  exact ⟨exec_frameInstr_of_resolved (c := .keepalive) ha harm, exec_frameInstr_of_resolved (c := .init1) ha harm⟩

/-- Settles O18: the Init2 action is one answered write. -/
theorem init2AcknowledgesOnce : Obligations.Init2AcknowledgesOnce := by
  intro s d f a ws ha hw hfit
  have hf : s.fdc? d = some f := ha.1
  have harm := congrArg (State.thenValid · d) (State.ack2Only_of_writes hf hw hfit)
  simp only [State.thenValid_done (s := s.withWrites (s.inCh d) ws) hf] at harm
  exact exec_frameInstr_of_resolved (c := .init2) ha harm

/-- Settles O20: the three codes select the forwarding. -/
theorem forwardedVerbatim : Obligations.ForwardedVerbatim := by
  intro s d f a ws ha hw hfit i c hi
  have hf : s.fdc? d = some f := ha.1
  have harm := congrArg (State.thenValid · d) (State.forward_of_writes hf hw hfit)
  simp only [State.thenValid_done (s := s.withWrites (s.outCh d) ws) hf] at harm
  rcases hi with ⟨b, rfl, rfl⟩ | ⟨rfl, rfl⟩ | ⟨rfl, rfl⟩
  · exact exec_frameInstr_of_resolved (c := .forwardable b) ha harm
  · exact exec_frameInstr_of_resolved (c := .endOfStream) ha harm
  · exact exec_frameInstr_of_resolved (c := .endOfFile) ha harm

/-- Settles O19: the action is a trace event, then `Done(d, valid)`. -/
theorem panelPowerKeyIsSwallowed : Obligations.PanelPowerKeyIsSwallowed := by
  intro s d f ha
  have harm : s.resolveArm d .panelPowerKey =
      .done ((s.log (.tracePwk d (s.frame d))).doneValid d) () := rfl
  rw [State.frame_eq ha.1, State.doneValid_eq (s := s.log (.tracePwk d f.content)) ha.1] at harm
  exact exec_frameInstr_of_resolved (c := .panelPowerKey) ha harm

/-- Settles O21: the two actions without a write, the second also after the record of a read error. -/
theorem incompleteAndInvalid : Obligations.IncompleteAndInvalid := by
  intro s d f ha
  have hf : s.fdc? d = some f := ha.1
  refine ⟨?_, ?_, fun e => ?_⟩
  · rw [State.returning_nil]
    exact exec_frameInstr_of_resolved (c := .incomplete) ha rfl
  · rw [State.returning_nil, ← State.doneInvalid_eq hf]
    exact exec_frameInstr_of_resolved (c := .invalid) ha rfl
  · have hrecord : s.recordReadError d e =
        (s.withFdc d { f with rdErr := true, rdErrCode := e }).log (.traceReadError d e) := by
      rw [State.recordReadError, State.updFdc_eq_withFdc hf]
    have hdone := State.doneInvalid_eq (s := (s.withFdc d { f with rdErr := true, rdErrCode := e }).log
      (.traceReadError d e)) (State.fdc?_withFdc_same hf _)
    rw [exec, execInvalidRdErr, State.onAlive_of_alive ha, hrecord, State.resolveArm, Attempt.done_andThen, hdone]
    simp [State.withFdc, State.log, State.returning]

/-- Settles O23: both operations are the resolve action, which its answered writes bring to its end. -/
theorem resolveSelectsOneArm : Obligations.ResolveSelectsOneArm := by
  intro s d f c a1 a2 a3 ws vs ha hw hv h1 h2 h3
  obtain ⟨t, ht⟩ := State.resolveArm_of_writes c ha.1 hw hv h1 h2 h3
  refine ⟨{ t with ret := .done }, ?_, rfl, exec_frameInstr_of_resolved (t := t) ha ht⟩
  rw [execResolve_of_alive ha, ht]
  rfl

/-! ## The cycle -/

theorem ReadAns.fits_bytes {cfg : Config} {max : Nat} {bs : List Byte} :
    ReadAns.fits cfg max (.bytes bs) = true ↔ 1 ≤ bs.length ∧ bs.length ≤ max := by
  simp [ReadAns.fits]

theorem State.inCh_congr {s u : State} (h : u.cfg = s.cfg) (d : Nat) : u.inCh d = s.inCh d := by
  rw [State.inCh, h, State.inCh]

theorem State.outCh_congr {s u : State} (h : u.cfg = s.cfg) (d : Nat) : u.outCh d = s.outCh d := by
  rw [State.outCh, h, State.outCh]

/-- A read phase whose request is answered ends with what its answer says, and takes no write answer. -/
theorem State.readPhase_of_answer {s : State} {d : Nat} {f : Fdc} {a : ReadAns} {rest : List ReadAns}
    (hf : s.fdc? d = some f) (hb : f.buf.wf = true) (hq : (s.chan (s.inCh d)).reads = a :: rest)
    (hfit : a.fits s.cfg (s.cfg.cap - f.cursor) = true) :
    ∃ u, s.readPhase d = .done u (f.codeOfRead s.cfg a) ∧ u.fdc? d = some (f.afterRead s.cfg a) ∧ u.cfg = s.cfg ∧
      ∀ ch, (u.chan ch).writes = (s.chan ch).writes := by
  obtain ⟨u, c, hread, hcfg, hwrites⟩ : ∃ u c, s.readPhase d = .done u c ∧ u.cfg = s.cfg ∧
      ∀ ch, (u.chan ch).writes = (s.chan ch).writes := by
    cases a with
    | bytes bs =>
      obtain ⟨hpos, hlen⟩ := ReadAns.fits_bytes.mp hfit
      exact ⟨_, _, State.readPhase_bytes hf hb hq hpos hlen, rfl, s.writes_withReads (s.inCh d) rest⟩
    | eof => exact ⟨_, _, State.readPhase_eof hf hq, rfl, s.writes_withReads (s.inCh d) rest⟩
    | err e =>
      exact ⟨_, _, State.readPhase_err hf (of_decide_eq_true hfit) hq, rfl, s.writes_withReads (s.inCh d) rest⟩
  obtain ⟨hu, rfl⟩ := State.readPhase_leaves hf hb hq hread
  exact ⟨u, hread, hu, hcfg, hwrites⟩

/-- Settles O24: the read phase ends, then the resolve action, whose writes are answered. -/
theorem answeredCycleCompletes : Obligations.AnsweredCycleCompletes := by
  intro s d f a rest a1 a2 a3 ws vs hr hb hq hfit hw hv h1 h2 h3
  obtain ⟨⟨hf, halive⟩, -⟩ := id hr
  obtain ⟨u, hread, hu, hcfg, hwrites⟩ := State.readPhase_of_answer hf hb hq hfit
  rw [← hcfg] at h1 h2 h3
  obtain ⟨v, hresolve⟩ := State.resolveArm_of_writes (f.codeOfRead s.cfg a) hu
    (by rw [State.inCh_congr hcfg, hwrites, hw]) (by rw [State.outCh_congr hcfg, hwrites, hv]) h1 h2 h3
  have hexec : exec (.cycle d) s = .next { v with ret := .code (f.codeOfRead s.cfg a) } := by
    rw [execCycle_of_readPhase hr hread, hresolve]
    rfl
  obtain ⟨-, _, _, _, hg⟩ := execCycle_leaves hf hb hq hexec rfl
  refine ⟨_, _, _, hexec, rfl, hg, ?_, ?_, fun hc => if_neg hc, ?_⟩
  · cases a <;> rfl
  · rintro hc bs rfl
    rw [if_pos hc]
    exact ⟨rfl, Fdc.content_afterBytes (cfg := s.cfg) hb bs⟩
  · cases a <;> exact halive

/-- A buffer that is not empty and is classified Incomplete begins with the start marker (40_frame_reader.md R95). -/
theorem Fdc.read_zero_of_incomplete {cfg : Config} {f : Fdc} (hpos : 1 ≤ f.cursor)
    (h : classify cfg f.content = .incomplete) : f.buf.read 0 = 0xFE := by
  have hne : f.content ≠ [] := by
    rw [← List.length_pos_iff, Fdc.length_content]
    exact hpos
  obtain ⟨-, -, hincomplete, -⟩ := classificationHasThreeCases cfg f.content hne
  obtain ⟨n, hn⟩ := Nat.exists_eq_add_of_le' hpos
  obtain ⟨hstart, -⟩ := hincomplete.mp h
  rw [Fdc.content, hn] at hstart
  exact Option.some.inj hstart

/-- Settles O26: the read phase leaves an Incomplete frame that is not empty, and every other action empties the buffer. -/
theorem cyclePostcondition : Obligations.CyclePostcondition := by
  intro s t d c h ht
  obtain ⟨f, u, v, ⟨⟨hf, -⟩, hff⟩, hread, hresolve, rfl⟩ := execCycle_eq_code h ht
  obtain ⟨a, g, _, _, hfit, hu, -, -, -, -, -, -, -, hincomplete, -⟩ := State.readPhase_effect hf hff hread
  have hug := (State.Replaces.of_withFdc hu).fdc?_same hf
  obtain ⟨_, _, _, hg⟩ := (State.resolveArm_eq_done hug hresolve).fdc?_same hug
  refine ⟨_, hg, ?_⟩
  by_cases hc : c = .incomplete
  · obtain ⟨bs, rfl, hfill, hclass⟩ := hincomplete hc
    obtain ⟨hbs, -⟩ := ReadAns.fits_bytes.mp hfit
    have hpos : 1 ≤ (Fdc.fill bs f).cursor := le_trans hbs (Nat.le_add_left _ _)
    have hfirst := Fdc.read_zero_of_incomplete hpos hclass
    rw [if_pos hc, hfill]
    exact .inl ⟨hc, hpos, hfirst⟩
  · exact .inr ⟨hc, if_neg hc⟩

theorem failedWrites_append (es es' : List Event) :
    failedWrites (es ++ es') = failedWrites es + failedWrites es' := by
  rw [failedWrites, List.map_append, List.sum_append, failedWrites, failedWrites]

/-- A read request is no failed write. -/
theorem failedWrites_chRead_cons (d ch max : Nat) (a : ReadAns) (es : List Event) :
    failedWrites (.chRead d ch max a :: es) = failedWrites es := by
  rw [failedWrites, List.map_cons, List.sum_cons]
  exact Nat.zero_add _

/-- Settles O27: the read phase moves no counter and writes nothing; the resolve phase is `State.ResolvedTo`. -/
theorem counterLaw : Obligations.CounterLaw := by
  intro s t d c f hf hlt h ht
  obtain ⟨f', u, v, ⟨⟨hf', -⟩, hff⟩, hread, hresolve, rfl⟩ := execCycle_eq_code h ht
  obtain rfl : f = f' := Option.some.inj (hf.symm.trans hf')
  obtain ⟨a, g, _, es, -, hu, -, -, hfailed, hvalid, hinvalid, hwerr, -⟩ := State.readPhase_effect hf hff hread
  have hreplaces := State.Replaces.of_withFdc hu
  have hug := hreplaces.fdc?_same hf
  obtain ⟨es', g', _, rfl, -, -, hle, hg', hwerr'⟩ := State.resolveArm_eq_done hug hresolve
  rw [hreplaces.1, hvalid, hinvalid] at hg'
  rw [hreplaces.1, hwerr] at hwerr'
  have hsum : failedWrites (.chRead d (s.inCh d) (s.cfg.cap - f.cursor) a :: es ++ es') = failedWrites es' := by
    rw [failedWrites_append, failedWrites_chRead_cons, hfailed, Nat.zero_add]
  refine ⟨g', _, State.fdc?_withFdc_same hug g', ?_, hsum.trans_le hle, congrArg Fdc.valid hg',
    congrArg Fdc.invalid hg', ?_⟩
  · show u.history ++ es' = _
    rw [hu]
    exact List.append_assoc s.history _ es'
  · rw [hsum]
    exact hwerr' hlt

/-! ## Where the frame path is refused or held (R110; 43_host_interface.md R184) -/

/-- Whether an action lacks a write answer is read off the configuration and the write answers. -/
theorem State.LacksWriteAnswer.congr {s u : State} {d : Nat} {c : FrameTypeCode} (h : s.LacksWriteAnswer d c)
    (hcfg : u.cfg = s.cfg) (hwrites : ∀ ch, (u.chan ch).writes = (s.chan ch).writes) : u.LacksWriteAnswer d c := by
  unfold State.LacksWriteAnswer at h ⊢
  simpa only [hcfg, State.inCh_congr hcfg, State.outCh_congr hcfg, hwrites] using h

theorem State.readPhase_held {s : State} {d : Nat} (h : (s.chan (s.inCh d)).reads = []) : s.readPhase d = .held := by
  rw [State.readPhase, State.chRead_held h]
  rfl

/-- Settles O29: the cycle is not admitted, or its read waits, or the read being answered a write of its action waits; the
other operations wait on the same requests. -/
theorem cycleRefusedOrHeld : Obligations.CycleRefusedOrHeld := by
  intro s d
  refine ⟨fun hnot => ?_, fun f hr hq => ⟨?_, ?_⟩, fun f a rest hr hb hq hfit hlacks => ?_,
    fun f c ha hlacks => ⟨?_, ?_⟩, fun f src ha hw => ⟨?_, ?_⟩⟩
  · rw [exec, execCycle, State.onReady_of_not_ready hnot]
    rfl
  · rw [exec, execCycle, State.onReady_of_ready hr, State.readPhase_held hq]
    rfl
  · rw [exec, execReadInto, State.onReady_of_ready hr, State.readPhase_held hq]
    rfl
  · obtain ⟨u, hread, hu, hcfg, hwrites⟩ := State.readPhase_of_answer hr.1.1 hb hq hfit
    have hlacks' : s.LacksWriteAnswer d (f.codeOfRead s.cfg a) := by cases a <;> exact hlacks
    rw [execCycle_of_readPhase hr hread, State.resolveArm_held hu (hlacks'.congr hcfg hwrites)]
    rfl
  · rw [exec_frameInstr_of_alive ha, State.resolveArm_held ha.1 hlacks]
    rfl
  · rw [execResolve_of_alive ha, State.resolveArm_held ha.1 hlacks]
    rfl
  · rw [exec, execAck1, State.onAlive_of_alive ha, State.countedWrite_held hw]
    rfl
  · simp only [exec, execAck2, State.onAlive_of_alive ha]
    cases src with
    | handshake => rw [State.countedWrite_held hw]; rfl
    | init2Action => rw [State.ack2Only, State.chWrite_held hw]; rfl

end Sys2Proof.Machine
end

section
/-! SUPPORT. The primitives of the GPIO edge detector (42_gpio.md R141 to R148): the outcome of an operation that is one
primitive, by its checks and its draw, then the effect of each of them. -/

namespace Sys2Proof.Machine

/-! ## Pins that are absent or not exported -/

theorem State.pin?_of_nPins_le {s : State} {p : Nat} (h : s.cfg.nPins ≤ p) : s.pin? p = none :=
  if_neg (Nat.not_lt.mpr h)

theorem State.exported_eq_false {s : State} {p : Nat} (h : ∀ q, ¬ s.Exported p q) {q : Pin} (hq : s.pin? p = some q) :
    q.exported = false :=
  Bool.eq_false_iff.mpr fun he => h q ⟨hq, he⟩

/-! ## An operation that is one primitive -/

/-- A GPIO operation ends with an answer worked out from its success. -/
def Attempt.answering (f : Bool → Result) (x : Attempt Bool) : Attempt Result := x.andThen fun t ok => .done t (f ok)

section
variable {s : State} {p : Nat} {q : Pin} {rest : List Bool} {cond : Pin → Bool} {g : Pin → Pin} {f : Bool → Result}

theorem State.primitive_unchecked (h : ∀ q, s.pin? p = some q → cond q = false) :
    s.primitive p cond g = .done s false := by
  cases hq : s.pin? p with
  | none => exact State.primitive_absent hq cond g
  | some q => exact State.primitive_unmet hq (h q hq) g

theorem State.finish_primitive_ok (hq : s.pin? p = some q) (hc : cond q = true) (hd : s.draws = true :: rest) :
    s.finish (.answering f (s.primitive p cond g)) =
      .next (((s.withDraws rest).withPin p (g q)).returning [.gpioEnv true] (f true)) := by
  rw [State.primitive_ok hq hc hd]
  rfl

theorem State.finish_primitive_fail (hq : s.pin? p = some q) (hc : cond q = true) (hd : s.draws = false :: rest) :
    s.finish (.answering f (s.primitive p cond g)) =
      .next ((s.withDraws rest).returning [.gpioEnv false] (f false)) := by
  rw [State.primitive_fail hq hc hd]
  rfl

theorem State.finish_primitive_held (hq : s.pin? p = some q) (hc : cond q = true) (hd : s.draws = []) :
    s.finish (.answering f (s.primitive p cond g)) = .next { s with ret := .held } := by
  rw [State.primitive_held hq hc hd]
  rfl

theorem State.finish_primitive_unchecked (h : ∀ q, s.pin? p = some q → cond q = false) :
    s.finish (.answering f (s.primitive p cond g)) = .next { s with ret := f false } := by
  rw [State.primitive_unchecked h]
  rfl

/-- Why a primitive failed (R141): its checks, with nothing drawn, or the draw. -/
theorem State.primitive_failed {u : State} (h : s.primitive p cond g = .done u false) :
    (u = s ∧ ∀ q, s.pin? p = some q → cond q = false) ∨
      ∃ q rest, s.pin? p = some q ∧ cond q = true ∧ s.draws = false :: rest ∧
        u = (s.withDraws rest).log (.gpioEnv false) := by
  by_cases hc : ∀ q, s.pin? p = some q → cond q = false
  · rw [State.primitive_unchecked hc] at h
    cases h
    exact Or.inl ⟨rfl, hc⟩
  · push Not at hc
    obtain ⟨q, hq, hcq⟩ := hc
    have hcq : cond q = true := Bool.eq_true_of_not_eq_false hcq
    cases hd : s.draws with
    | nil =>
      rw [State.primitive_held hq hcq hd] at h
      cases h
    | cons b rest =>
      cases b
      · rw [State.primitive_fail hq hcq hd] at h
        cases h
        exact Or.inr ⟨q, rest, hq, hcq, rfl, rfl⟩
      · rw [State.primitive_ok hq hcq hd] at h
        cases h

/-- An operation that answers `fail` only for failure ended in failure. -/
theorem State.finish_answering_failed {t : State} {x : Attempt Bool} (hf : f true ≠ .fail)
    (h : s.finish (.answering f x) = .next t) (ht : t.ret = .fail) :
    ∃ u, x = .done u false ∧ t = { u with ret := .fail } := by
  rcases State.finish_eq_next.mp h with ⟨u, r, hr, rfl⟩ | ⟨-, rfl⟩
  · obtain ⟨v, ok, hx, hv⟩ := Attempt.andThen_eq_done.mp hr
    cases hv
    cases ok
    · exact ⟨u, hx, congrArg (fun r => { u with ret := r }) ht⟩
    · exact absurd ht hf
  · cases ht

end

/-! ## Each primitive -/

theorem EdgeMode.ofCode_of_ne_three {e : BitVec 2} (h : e ≠ 3) : ∃ m, EdgeMode.ofCode e = some m := by
  apply Option.isSome_iff_exists.mp
  revert e
  decide

theorem State.gpioSetEdge_of_ofCode {e : BitVec 2} {m : EdgeMode} (h : EdgeMode.ofCode e = some m) (s : State)
    (p : Nat) : s.gpioSetEdge p e = s.primitive p (·.exported) (Pin.withEdge m) := by
  simp [State.gpioSetEdge, h]

/-- `SET_EDGE` with a code that is a mode is a primitive like the other two of the configuration. -/
theorem execSetEdge_of_ofCode {e : BitVec 2} {m : EdgeMode} (h : EdgeMode.ofCode e = some m) (s : State) (p : Nat) :
    exec (.setEdge p e) s =
      s.finish (.answering primResult (s.primitive p (·.exported) (Pin.withEdge m))) := by
  rw [← State.gpioSetEdge_of_ofCode h]
  rfl

theorem execSetEdge_three (s : State) (p : Nat) : exec (.setEdge p 3) s = .next { s with ret := .fail } := rfl

/-- A configuration primitive on pin `p`, with a mode for `SET_EDGE` (R144 to R146). -/
def IsConfiguration (p : Nat) (i : Instr) : Prop :=
  (∃ x, i = .setDirection p x) ∨ (∃ a, i = .setPolarity p a) ∨ (∃ e, e ≠ 3 ∧ i = .setEdge p e)

/-- The configuration primitives check that the pin is exported, and nothing else. -/
theorem exec_configuration {i : Instr} {p : Nat} (hi : IsConfiguration p i) (s : State) :
    ∃ g, exec i s = s.finish (.answering primResult (s.primitive p (·.exported) g)) := by
  rcases hi with ⟨x, rfl⟩ | ⟨a, rfl⟩ | ⟨e, he, rfl⟩
  · exact ⟨_, rfl⟩
  · exact ⟨_, rfl⟩
  · obtain ⟨m, hm⟩ := EdgeMode.ofCode_of_ne_three he
    exact ⟨_, execSetEdge_of_ofCode hm s p⟩

/-- `READ_VALUE` is a primitive that leaves its pin as it is (R147). -/
theorem execReadValue_of_pin {s : State} {p : Nat} {q : Pin} (hq : s.pin? p = some q) :
    exec (.readValue ⟨true, p⟩) s = s.finish (.answering (fun ok => if ok then .value q.logical else .fail)
      (s.primitive p (·.exported) id)) := by
  simp [exec, execReadValue, State.gpioReadValue, hq, Attempt.answering]

theorem execReadValue_of_absent {s : State} {p : Nat} (hq : s.pin? p = none) :
    exec (.readValue ⟨true, p⟩) s = .next { s with ret := .fail } := by
  simp [exec, execReadValue, State.gpioReadValue, State.primitive_absent hq, hq]

theorem execReadValue_of_not_exported {s : State} {p : Nat} (h : ∀ q, ¬ s.Exported p q) :
    exec (.readValue ⟨true, p⟩) s = .next { s with ret := .fail } := by
  cases hq : s.pin? p with
  | none => exact execReadValue_of_absent hq
  | some q =>
    exact (execReadValue_of_pin hq).trans (State.finish_primitive_unchecked fun _ => State.exported_eq_false h)

theorem Pin.logical_eq (q : Pin) : q.logical = if q.dir = .input then q.line ^^ q.activeLow else q.outLatch := by
  cases hd : q.dir <;> simp [Pin.logical, hd]

/-- The pad of an exported output pin (10_state.md R27). -/
theorem Pin.padOut_of_output {q : Pin} (he : q.exported = true) (hd : q.dir = .output) :
    q.padOut = some (q.outLatch ^^ q.activeLow) :=
  if_pos ⟨he, hd⟩

/-- A write to what is not an exported output fails its check (R148). -/
theorem State.write_unchecked {s : State} {p : Nat} (h : ∀ q, s.Exported p q → q.dir = .input) {q : Pin}
    (hq : s.pin? p = some q) : (q.exported && decide (q.dir = .output)) = false := by
  cases he : q.exported
  · rfl
  · simp [h q ⟨hq, he⟩]

theorem Pin.write_checked {q : Pin} (he : q.exported = true) (hd : q.dir = .output) :
    (q.exported && decide (q.dir = .output)) = true := by
  simp [he, hd]

/-! ## The statements on the primitives -/

/-- Settles O34: `EXPORT` is a primitive that checks that the pin is not exported. -/
theorem exportSetsDefaults : Obligations.ExportSetsDefaults := by
  intro s p
  refine ⟨fun q rest hq he hd => ?_, fun q rest hq he hd => ?_, fun q hq => ?_, fun hp => ?_⟩
  · exact State.finish_primitive_ok hq (by simp [he]) hd
  · exact State.finish_primitive_fail hq (by simp [he]) hd
  · refine State.finish_primitive_unchecked fun r hr => ?_
    obtain rfl : q = r := Option.some.inj (hq.1.symm.trans hr)
    simp [hq.2]
  · exact State.finish_primitive_unchecked fun r hr => by simp [State.pin?_of_nPins_le hp] at hr

/-- `EXPORT_IF_ABSENT` on a pin that exists (R143). -/
theorem State.gpioExportIfAbsent_of_pin {s : State} {p : Nat} {q : Pin} (hq : s.pin? p = some q) :
    s.gpioExportIfAbsent p = if q.exported then .done s true else s.gpioExport p := by
  simp [State.gpioExportIfAbsent, hq]

theorem State.gpioExportIfAbsent_of_absent {s : State} {p : Nat} (hq : s.pin? p = none) :
    s.gpioExportIfAbsent p = .done s false := by
  simp [State.gpioExportIfAbsent, hq]

/-- Settles O35, by the three things a pin number can name. -/
theorem exportIfAbsentIsIdempotent : Obligations.ExportIfAbsentIsIdempotent := by
  intro s p
  refine ⟨fun q hq => ?_, fun q hq he => ?_, fun hp => ?_⟩
  · rw [exec, execExportIfAbsent, State.gpioExportIfAbsent_of_pin hq.1, if_pos hq.2]
    rfl
  · show s.finish (asPrim (s.gpioExportIfAbsent p)) = s.finish (asPrim (s.gpioExport p))
    rw [State.gpioExportIfAbsent_of_pin hq, he]
    rfl
  · rw [exec, execExportIfAbsent, State.gpioExportIfAbsent_of_absent (State.pin?_of_nPins_le hp)]
    rfl

/-- Settles O36: each of the three is a primitive that checks that the pin is exported. -/
theorem configurationPrimitives : Obligations.ConfigurationPrimitives := by
  intro s p
  refine ⟨fun q rest hq hd => ⟨?_, ?_, fun a => ⟨?_, ?_⟩, fun e m hem => ?_⟩, fun q rest i hq hd hi => ?_,
    execSetEdge_three s p, fun h i hi => ?_⟩
  · exact State.finish_primitive_ok hq.1 hq.2 hd
  · exact State.finish_primitive_ok hq.1 hq.2 hd
  · exact State.finish_primitive_ok hq.1 hq.2 hd
  · exact Pin.padOut_of_output (q := { q with activeLow := a, edgePending := false }) hq.2
  · have hm : EdgeMode.ofCode e = some m := by
      simp only [List.mem_cons, Prod.mk.injEq, List.not_mem_nil, or_false] at hem
      rcases hem with ⟨rfl, rfl⟩ | ⟨rfl, rfl⟩ | ⟨rfl, rfl⟩ <;> rfl
    exact (execSetEdge_of_ofCode hm s p).trans (State.finish_primitive_ok hq.1 hq.2 hd)
  · obtain ⟨g, hg⟩ := exec_configuration hi s
    exact hg.trans (State.finish_primitive_fail hq.1 hq.2 hd)
  · have fails {i : Instr} (hi : IsConfiguration p i) : exec i s = .next { s with ret := .fail } := by
      obtain ⟨g, hg⟩ := exec_configuration hi s
      exact hg.trans (State.finish_primitive_unchecked fun _ => State.exported_eq_false h)
    rcases hi with hx | ha | ⟨e, rfl⟩
    · exact fails (.inl hx)
    · exact fails (.inr (.inl ha))
    · by_cases he : e = 3
      · rw [he, execSetEdge_three]
      · exact fails (.inr (.inr ⟨e, he, rfl⟩))

/-- Settles O37: a read is a primitive on an exported pin, a write one on an exported output. -/
theorem valuePrimitives : Obligations.ValuePrimitives := by
  intro s p
  refine ⟨fun q rest hq hd => ⟨?_, fun v hout => ⟨?_, ?_⟩⟩, fun q rest hq hd => ⟨?_, fun v hout => ?_⟩,
    fun q v hq hin => ?_, fun h => ⟨execReadValue_of_not_exported h, fun v => ?_⟩⟩
  · rw [execReadValue_of_pin hq.1, State.finish_primitive_ok hq.1 hq.2 hd, ← Pin.logical_eq]
    have hself : (s.withDraws rest).withPin p (id q) = s.withDraws rest := State.withPin_self (s := s.withDraws rest) hq.1
    rw [hself]
    rfl
  · exact State.finish_primitive_ok hq.1 (Pin.write_checked hq.2 hout) hd
  · exact Pin.padOut_of_output (q := { q with outLatch := v }) hq.2 hout
  · exact (execReadValue_of_pin hq.1).trans (State.finish_primitive_fail hq.1 hq.2 hd)
  · exact State.finish_primitive_fail hq.1 (Pin.write_checked hq.2 hout) hd
  · refine State.finish_primitive_unchecked fun r hr => State.write_unchecked (s := s) (fun r' hr' => ?_) hr
    obtain rfl : q = r' := Option.some.inj (hq.1.symm.trans hr'.1)
    exact hin
  · exact State.finish_primitive_unchecked fun r hr => State.write_unchecked (fun r' hr' => absurd hr' (h r')) hr

/-- The checks that the rule of primitive `i` on pin `p` names (R142, R144 to R148). -/
def ChecksOf (p : Nat) (i : Instr) (checks : Pin → Bool) : Prop :=
  (i = .exportPin p ∧ checks = fun q => !q.exported) ∨
  (((∃ x, i = .setDirection p x) ∨ (∃ a, i = .setPolarity p a) ∨ (∃ e, e ≠ 3 ∧ i = .setEdge p e) ∨
    i = .readValue ⟨true, p⟩) ∧ checks = fun q => q.exported) ∨
  (i = .setEdge p 3 ∧ checks = fun _ => false) ∨
  ((∃ v, i = .writeValue p v) ∧ checks = fun q => q.exported && decide (q.dir = .output))

/-- A primitive that answers `fail` is a failed `State.primitive` with the checks that its rule names. -/
theorem exec_primitive_failed {s t : State} {p : Nat} {i : Instr} {checks : Pin → Bool} (hi : ChecksOf p i checks)
    (h : exec i s = .next t) (ht : t.ret = .fail) :
    ∃ u g, s.primitive p checks g = .done u false ∧ t = { u with ret := .fail } := by
  have failed {f : Bool → Result} {g : Pin → Pin} (hf : f true ≠ .fail)
      (h : s.finish (.answering f (s.primitive p checks g)) = .next t) :
      ∃ u g, s.primitive p checks g = .done u false ∧ t = { u with ret := .fail } := by
    obtain ⟨u, hu, rfl⟩ := State.finish_answering_failed hf h ht
    exact ⟨u, g, hu, rfl⟩
  have configured (hi : IsConfiguration p i) (hchecks : checks = fun q => q.exported) :
      ∃ u g, s.primitive p checks g = .done u false ∧ t = { u with ret := .fail } := by
    obtain ⟨g, hg⟩ := exec_configuration hi s
    subst hchecks
    exact failed (by decide) (hg.symm.trans h)
  rcases hi with ⟨rfl, rfl⟩ | ⟨hx | ha | he | rfl, hchecks⟩ | ⟨rfl, rfl⟩ | ⟨⟨v, rfl⟩, rfl⟩
  · exact failed (f := primResult) (by decide) h
  · exact configured (.inl hx) hchecks
  · exact configured (.inr (.inl ha)) hchecks
  · exact configured (.inr (.inr he)) hchecks
  · subst hchecks
    cases hq : s.pin? p with
    | none =>
      rw [execReadValue_of_absent hq] at h
      cases h
      exact ⟨s, id, State.primitive_absent hq _ _, rfl⟩
    | some q => exact failed (by simp) ((execReadValue_of_pin hq).symm.trans h)
  · cases h
    exact ⟨s, id, State.primitive_unchecked fun _ _ => rfl, rfl⟩
  · exact failed (f := primResult) (by decide) h

/-- Settles O38: a failed primitive failed its checks or its draw, and left the state but for the draw. -/
theorem failedPrimitivesChangeNoPin : Obligations.FailedPrimitivesChangeNoPin := by
  intro s t p i checks hi h ht
  obtain ⟨u, g, hu, rfl⟩ := exec_primitive_failed hi h ht
  rcases State.primitive_failed hu with ⟨rfl, hc⟩ | ⟨q, rest, hq, hc, hd, rfl⟩
  · exact ⟨rfl, rfl, rfl, rfl, .inl ⟨rfl, rfl, hc⟩⟩
  · exact ⟨rfl, rfl, rfl, rfl, .inr ⟨hd, rfl, q, hq, hc⟩⟩

/-- Settles O45: the one write is a primitive, whose failure is counted. -/
theorem setPinCountsFailedWrites : Obligations.SetPinCountsFailedWrites := by
  intro s p v
  have counts : exec (.setPin p v) s = s.finish (.answering (fun ok => .count (if ok then 0 else 1))
    (s.primitive p (fun q => q.exported && decide (q.dir = .output)) (Pin.withLatch v))) := rfl
  refine ⟨fun q rest hq hout hd => ?_, fun q rest hq hout hd => ?_, fun hin => ?_⟩ <;> rw [counts]
  · exact State.finish_primitive_ok hq.1 (Pin.write_checked hq.2 hout) hd
  · exact State.finish_primitive_fail hq.1 (Pin.write_checked hq.2 hout) hd
  · exact State.finish_primitive_unchecked fun r hr => State.write_unchecked hin hr

end Sys2Proof.Machine
end

section
/-! SUPPORT. The edge detector and its polling interface (42_gpio.md R149 to R151, R155, R158). -/

namespace Sys2Proof.Machine

/-! ## Presented levels -/

theorem edgeDetects_eq (e : EdgeMode) (o n : Bool) :
    edgeDetects e o n = ((decide (e = .rising) && !o && n) || (decide (e = .falling) && o && !n)) := by
  cases e <;> simp [edgeDetects]

/-- The edge of R149, on the levels that `EDGE_SENSE` selects (R157). -/
theorem Pin.edgeSeen_eq {sense : EdgeSense} {q : Pin} {v o n : Bool}
    (h : (o, n) = if sense = .logical then (q.line ^^ q.activeLow, v ^^ q.activeLow) else (q.line, v)) :
    q.edgeSeen sense v = (q.exported && decide (q.dir = .input) && edgeDetects q.edge o n) := by
  cases sense <;> simp only [reduceCtorEq, if_true, if_false] at h <;> cases h <;> rfl

/-- A level on a pin that exists (R149). -/
theorem execSample_of_pin {s : State} {p : Nat} {q : Pin} (hq : s.pin? p = some q) (v : Bool) :
    exec (.sample p v) s = .next { s.withPin p (q.present s.cfg.edgeSense v) with ret := .done } := by
  rw [← State.updPin_eq_withPin hq (Pin.present s.cfg.edgeSense v)]
  simp [exec, execSample, hq]

/-- Settles O39: on the two levels that are judged, an edge is a transition of the selected kind. -/
theorem sampleDetectsSelectedEdges : Obligations.SampleDetectsSelectedEdges := by
  intro s p v
  refine ⟨fun q hq o n hon => ?_, fun hp => ?_⟩
  · rw [execSample_of_pin hq, State.returning_nil, Pin.present, Pin.edgeSeen_eq hon, edgeDetects_eq]
  · simp [exec, execSample, State.pin?_of_nPins_le hp]

/-! ## Handles -/

theorem State.handlePin_of_exported {s : State} {h : Handle} {q : Pin} (hok : h.ok = true)
    (hq : s.Exported h.pin q) : s.handlePin h = some q := by
  simp [State.handlePin, hok, hq.1, hq.2]

theorem State.handlePin_of_bad {s : State} {h : Handle} (hbad : h.ok = false ∨ ∀ q : Pin, ¬ s.Exported h.pin q) :
    s.handlePin h = none := by
  rcases hbad with hok | hne
  · simp [State.handlePin, hok]
  · rw [State.handlePin, Option.filter_eq_none_iff.mpr fun q hq => by simp [State.exported_eq_false hne hq], ite_self]

section
variable {s : State} {h : Handle} {q : Pin}

theorem execPoll_of_handlePin (hq : s.handlePin h = some q) :
    exec (.poll h) s = .next { s.withPin h.pin q.consumed with ret := .value q.edgePending } := by
  rw [← State.updPin_eq_withPin (State.pin?_of_handlePin hq) Pin.consumed]
  simp [exec, execPoll, hq]

theorem execWaitEdge_of_pending (hq : s.handlePin h = some q) (hp : q.edgePending = true) :
    exec (.waitEdge h) s = .next { s.withPin h.pin q.consumed with ret := .ok } := by
  rw [← State.updPin_eq_withPin (State.pin?_of_handlePin hq) Pin.consumed]
  simp [exec, execWaitEdge, hq, hp]

theorem execWaitEdge_of_not_pending (hq : s.handlePin h = some q) (hp : q.edgePending = false) :
    exec (.waitEdge h) s = .next { s with ret := .held } := by
  simp [exec, execWaitEdge, hq, hp]

end

/-- The pin of a handle is exported after a presented level if it was before. -/
theorem State.Exported.present {s : State} {p : Nat} {q : Pin} (h : s.Exported p q) (sense : EdgeSense) (v : Bool)
    (r : Result) : State.Exported { s.withPin p (q.present sense v) with ret := r } p (q.present sense v) :=
  ⟨State.pin?_withPin_same h.1 _, h.2⟩

/-- A pin whose edge is `none`, or an output, detects nothing (R149). -/
theorem Pin.edgeSeen_eq_false {q : Pin} (h : q.edge = .none ∨ q.dir = .output) (sense : EdgeSense) (v : Bool) :
    q.edgeSeen sense v = false := by
  rcases h with h | h
  · cases sense <;> simp [Pin.edgeSeen, h, edgeDetects]
  · simp [Pin.edgeSeen, h]

/-- Settles O40, by what the handle names. -/
theorem pollAndWaitConsumeTheEdge : Obligations.PollAndWaitConsumeTheEdge := by
  intro s h
  refine ⟨fun q hok hq => ?_, fun hbad => ?_⟩
  · have hh := State.handlePin_of_exported hok hq
    refine ⟨?_, fun hp => ?_, execWaitEdge_of_not_pending hh, fun hp v => ⟨_, execSample_of_pin hq.1 v, ?_, ?_⟩⟩
    · rw [State.returning_nil]
      exact execPoll_of_handlePin hh
    · rw [State.returning_nil]
      exact execWaitEdge_of_pending hh hp
    · intro hseen
      have hh' := State.handlePin_of_exported hok (hq.present s.cfg.edgeSense v .done)
      exact ⟨_, execWaitEdge_of_pending hh' (by simp [Pin.present, hseen]), rfl⟩
    · intro hnone
      have hh' := State.handlePin_of_exported hok (hq.present s.cfg.edgeSense v .done)
      exact execWaitEdge_of_not_pending hh' (by simp [Pin.present, hp, Pin.edgeSeen_eq_false hnone])
  · have hnone := State.handlePin_of_bad hbad
    refine ⟨by simp [exec, execPoll, hnone], by simp [exec, execWaitEdge, hnone], ?_⟩
    obtain ⟨ok, p⟩ := h
    cases ok with
    | false => rfl
    | true => exact execReadValue_of_not_exported (hbad.resolve_left nofun)

/-- Levels presented on an exported pin with a pending edge leave it one (R158). -/
theorem presentAll_of_pending {s : State} {p : Nat} {q : Pin} (vs : List Bool) (hq : s.Exported p q)
    (hp : q.edgePending = true) :
    ∃ t r, presentAll p vs s = some t ∧ t.Exported p r ∧ r.edgePending = true := by
  induction vs generalizing s q with
  | nil => exact ⟨s, q, rfl, hq, hp⟩
  | cons v vs ih =>
    obtain ⟨t, r, ht, hr, hpr⟩ := ih (hq.present s.cfg.edgeSense v .done) (by simp [Pin.present, hp])
    have hsample : execSample p v s = _ := execSample_of_pin hq.1 v
    exact ⟨t, r, by simpa [presentAll, hsample] using ht, hr, hpr⟩

/-- Settles O41: the flag is still set after the levels, and the first `POLL` clears it. -/
theorem edgesMergeIntoOneFlag : Obligations.EdgesMergeIntoOneFlag := by
  intro s p q vs hq hp
  obtain ⟨t, r, ht, hr, hpr⟩ := presentAll_of_pending vs hq hp
  have hu : State.Exported { t.withPin p r.consumed with ret := .value r.edgePending } p r.consumed :=
    ⟨State.pin?_withPin_same hr.1 _, hr.2⟩
  exact ⟨t, _, _, ht, execPoll_of_handlePin (State.handlePin_of_exported (h := ⟨true, p⟩) rfl hr),
    congrArg Result.value hpr, execPoll_of_handlePin (State.handlePin_of_exported (h := ⟨true, p⟩) rfl hu), rfl⟩

end Sys2Proof.Machine
end

section
/-! SUPPORT. The composite operations (42_gpio.md R152, R153) as lists of draws, each followed by a change of a pin: what
such a list does by its draws, said once, and which list each composite is. -/

namespace Sys2Proof.Machine

/-! ## Draws one after the other, each followed by a change of a pin -/

/-- Draw for each change in turn and make it on a 1; the first 0 ends it with failure. After the last change `ok` is
returned, `false` where the next step fails its checks. -/
def State.drawChanges (ok : Bool) : List (Nat × (Pin → Pin)) → State → Attempt Bool
  | [], s => .done s ok
  | c :: cs, s => s.gpioEnv.andThen fun t b => if b then State.drawChanges ok cs (t.updPin c.1 c.2) else .done t false

/-- The changes without the draws. -/
def State.updPins (s : State) (cs : List (Nat × (Pin → Pin))) : State :=
  { s with pins := cs.foldl (fun qs c => qs.modify c.1 c.2) s.pins }

/-- Changes of pin `p`. -/
def onPin (p : Nat) (gs : List (Pin → Pin)) : List (Nat × (Pin → Pin)) := gs.map (p, ·)

/-- A pin after changes of it. -/
def Pin.changed (q : Pin) (gs : List (Pin → Pin)) : Pin := gs.foldl (fun r g => g r) q

@[simp] theorem length_onPin (p : Nat) (gs : List (Pin → Pin)) : (onPin p gs).length = gs.length := List.length_map _

theorem onPin_append (p : Nat) (gs gs' : List (Pin → Pin)) : onPin p (gs ++ gs') = onPin p gs ++ onPin p gs' :=
  List.map_append

theorem take_onPin (p n : Nat) (gs : List (Pin → Pin)) : (onPin p gs).take n = onPin p (gs.take n) := List.map_take.symm

theorem State.updPins_append (s : State) (cs cs' : List (Nat × (Pin → Pin))) :
    s.updPins (cs ++ cs') = (s.updPins cs).updPins cs' := by
  simp [State.updPins]

/-- Changing one pin is replacing it. -/
theorem State.updPins_onPin {s : State} {p : Nat} {q : Pin} (hq : s.pin? p = some q) (gs : List (Pin → Pin)) :
    s.updPins (onPin p gs) = s.withPin p (q.changed gs) := by
  induction gs generalizing s q with
  | nil => exact (State.withPin_self hq).symm
  | cons g gs ih =>
    calc (s.updPin p g).updPins (onPin p gs)
      _ = (s.withPin p (g q)).updPins (onPin p gs) := by rw [State.updPin_eq_withPin hq]
      _ = s.withPin p ((g q).changed gs) := by rw [ih (State.pin?_withPin_same hq (g q)), State.withPin_withPin]

theorem State.returning_returning (s : State) (es es' : List Event) (r r' : Result) :
    (s.returning es r).returning es' r' = s.returning (es ++ es') r' := by
  simp [State.returning]

/-- A draw of 1 is followed by its change and the rest. -/
theorem State.drawChanges_cons {s : State} {rest : List Bool} (hd : s.draws = true :: rest) (ok : Bool)
    (c : Nat × (Pin → Pin)) (cs : List (Nat × (Pin → Pin))) :
    s.drawChanges ok (c :: cs) =
      State.drawChanges ok cs (((s.withDraws rest).updPin c.1 c.2).returning [.gpioEnv true] s.ret) := by
  rw [State.drawChanges, State.gpioEnv_of_draws hd]
  rfl

/-- As many draws of 1 as the changes of `cs` make these and leave the rest to do. -/
theorem State.drawChanges_append {cs : List (Nat × (Pin → Pin))} {s : State} {rest : List Bool}
    (hd : s.draws = List.replicate cs.length true ++ rest) (ok : Bool) (cs' : List (Nat × (Pin → Pin))) :
    s.drawChanges ok (cs ++ cs') = State.drawChanges ok cs' (((s.withDraws rest).updPins cs).returning
      (List.replicate cs.length (.gpioEnv true)) s.ret) := by
  induction cs generalizing s with
  | nil =>
    obtain rfl : s.draws = rest := hd
    simp [State.updPins, State.returning, State.withDraws]
  | cons c cs ih =>
    rw [List.cons_append, State.drawChanges_cons hd, ih rfl]
    exact congrArg (State.drawChanges ok cs') (State.returning_returning ((s.withDraws rest).updPins (c :: cs)) ..)

section
variable {cs : List (Nat × (Pin → Pin))} {s : State} {rest : List Bool} {n : Nat} {f : Bool → Result}

/-- Every draw is 1: all changes are made. -/
theorem State.finish_drawChanges (hd : s.draws = List.replicate cs.length true ++ rest) (ok : Bool) :
    s.finish (.answering f (s.drawChanges ok cs)) = .next (((s.withDraws rest).updPins cs).returning
      (List.replicate cs.length (.gpioEnv true)) (f ok)) := by
  have h := State.drawChanges_append hd ok []
  rw [List.append_nil] at h
  rw [h]
  rfl

/-- The first 0 is draw `n`: the changes before it stay made, and no later step draws. -/
theorem State.finish_drawChanges_stops (hn : n < cs.length) (hd : s.draws = List.replicate n true ++ false :: rest)
    (ok : Bool) :
    s.finish (.answering f (s.drawChanges ok cs)) = .next (((s.withDraws rest).updPins (cs.take n)).returning
      (List.replicate n (.gpioEnv true) ++ [.gpioEnv false]) (f false)) := by
  have hlen : (cs.take n).length = n := List.length_take_of_le hn.le
  have h := State.drawChanges_append (cs := cs.take n) (rest := false :: rest) (by rw [hlen, hd]) ok (cs.drop n)
  rw [List.take_append_drop, List.drop_eq_getElem_cons hn, hlen, State.drawChanges,
    State.gpioEnv_of_draws (rest := rest) rfl] at h
  rw [h, ← State.returning_returning _ _ _ s.ret]
  rfl

/-- Draw `n` has no answer: nothing is changed. -/
theorem State.finish_drawChanges_held (hn : n < cs.length) (hd : s.draws = List.replicate n true) (ok : Bool) :
    s.finish (.answering f (s.drawChanges ok cs)) = .next { s with ret := .held } := by
  have hlen : (cs.take n).length = n := List.length_take_of_le hn.le
  have h := State.drawChanges_append (cs := cs.take n) (rest := []) (by rw [hlen, hd, List.append_nil]) ok (cs.drop n)
  rw [List.take_append_drop, List.drop_eq_getElem_cons hn, State.drawChanges] at h
  rw [h]
  rfl

end

end Sys2Proof.Machine
end

section
/-! SUPPORT. Which draws and changes each composite operation makes (42_gpio.md R152, R153), and the statements on them. -/

namespace Sys2Proof.Machine

/-! ## A composite as a list of draws and changes -/

theorem Attempt.ifOk_assoc (x : Attempt Bool) (k k' : State → Attempt Bool) :
    (x.ifOk k).ifOk k' = x.ifOk fun t => (k t).ifOk k' := by
  cases x with
  | done t ok => cases ok <;> rfl
  | held => rfl
  | refused r => rfl

/-- `u` has the configuration and the pins of `s`. -/
def State.PinsOf (s u : State) : Prop := u.cfg = s.cfg ∧ u.pins = s.pins

theorem State.PinsOf.pin? {s u : State} (h : s.PinsOf u) (p : Nat) : u.pin? p = s.pin? p :=
  State.pin?_congr h.1 h.2 p

/-- A primitive whose checks pass is one draw and one change. -/
theorem State.primitive_eq_drawChanges {s : State} {p : Nat} {q : Pin} {cond : Pin → Bool} {g : Pin → Pin}
    (hq : s.pin? p = some q) (hc : cond q = true) : s.primitive p cond g = s.drawChanges true [(p, g)] := by
  simp only [State.primitive, hq, hc, if_true, State.drawChanges]
  congr
  funext t b
  cases b <;> rfl

theorem State.updPin_id (s : State) (p : Nat) : s.updPin p id = s := by
  rw [State.updPin, List.modify_id]

/-- Opening the handle draws and changes nothing. -/
theorem State.gpioEnv_eq_drawChanges (s : State) (p : Nat) : s.gpioEnv = s.drawChanges true [(p, id)] := by
  cases hd : s.draws with
  | nil => simp [State.drawChanges, State.gpioEnv, hd]
  | cons b rest => cases b <;> simp [State.drawChanges, State.gpioEnv_of_draws hd, State.updPin_id]

section
variable {s u : State} {p : Nat} {q r : Pin} {cond : Pin → Bool} {g : Pin → Pin} {k : State → Attempt Bool} {ok : Bool}
  {cs : List (Nat × (Pin → Pin))}

/-- A step of a composite whose checks pass, where pin `p` of `s` has become `r`. -/
theorem State.primitive_ifOk (hq : s.pin? p = some q) (hu : (s.withPin p r).PinsOf u) (hc : cond r = true)
    (hk : ∀ v, (s.withPin p (g r)).PinsOf v → k v = v.drawChanges ok cs) :
    (u.primitive p cond g).ifOk k = u.drawChanges ok ((p, g) :: cs) := by
  have hr : u.pin? p = some r := (hu.pin? p).trans (State.pin?_withPin_same hq r)
  rw [State.primitive_eq_drawChanges hr hc]
  cases hd : u.draws with
  | nil => simp [State.drawChanges, State.gpioEnv, hd, Attempt.ifOk]
  | cons b rest =>
    cases b with
    | false => simp [State.drawChanges, State.gpioEnv_of_draws hd, Attempt.ifOk]
    | true =>
      simp only [State.drawChanges, State.gpioEnv_of_draws hd, Attempt.done_andThen, if_true, Attempt.ifOk]
      refine hk _ ⟨hu.1, ?_⟩
      rw [State.updPin_eq_withPin (s := (u.withDraws rest).log (.gpioEnv true)) hr, State.withPin_pins, State.log_pins,
        State.withDraws_pins, hu.2]
      exact List.set_set ..

end

/-- What `EXPORT_IF_ABSENT` changes of pin `q` (R143). -/
def exportChanges (q : Pin) : List (Pin → Pin) := if q.exported then [] else [Pin.freshExport]

/-- What the sensor's initialisation changes of pin `q`, draw by draw (R152). -/
def sensorChanges (q : Pin) : List (Pin → Pin) :=
  exportChanges q ++ [Pin.withDirection .input, Pin.withPolarity true, Pin.withEdge .falling, id]

/-- What an output pin's initialisation changes of pin `q` before its write (R153). -/
def outputChanges (q : Pin) : List (Pin → Pin) := exportChanges q ++ [Pin.withDirection .output]

theorem Pin.changed_append (q : Pin) (gs gs' : List (Pin → Pin)) :
    q.changed (gs ++ gs') = (q.changed gs).changed gs' := List.foldl_append

theorem exportChanges_of_exported {q : Pin} (h : q.exported = true) : exportChanges q = [] := if_pos h

theorem exportChanges_of_absent {q : Pin} (h : q.exported = false) : exportChanges q = [Pin.freshExport] := by
  simp [exportChanges, h]

theorem Pin.exported_changed_exportChanges (q : Pin) : (q.changed (exportChanges q)).exported = true := by
  cases h : q.exported
  · rw [exportChanges_of_absent h]
    rfl
  · rw [exportChanges_of_exported h]
    exact h

theorem length_exportChanges (q : Pin) : (exportChanges q).length = if q.exported then 0 else 1 := by
  cases h : q.exported <;> simp [exportChanges, h]

theorem length_sensorChanges (q : Pin) : (sensorChanges q).length = if q.exported then 4 else 5 := by
  cases h : q.exported <;> simp [sensorChanges, length_exportChanges, h]

theorem length_outputChanges (q : Pin) : (outputChanges q).length = if q.exported then 1 else 2 := by
  cases h : q.exported <;> simp [outputChanges, length_exportChanges, h]

section
variable {s : State} {p : Nat} {q : Pin} {k : State → Attempt Bool} {ok : Bool} {cs : List (Nat × (Pin → Pin))}

/-- The first step of a composite, on a pin that exists. -/
theorem State.gpioExportIfAbsent_ifOk (hq : s.pin? p = some q)
    (hk : ∀ u, (s.withPin p (q.changed (exportChanges q))).PinsOf u → k u = u.drawChanges ok cs) :
    (s.gpioExportIfAbsent p).ifOk k = s.drawChanges ok (onPin p (exportChanges q) ++ cs) := by
  have hself : (s.withPin p q).PinsOf s := by rw [State.withPin_self hq]; exact ⟨rfl, rfl⟩
  cases he : q.exported
  · rw [exportChanges_of_absent he] at hk ⊢
    rw [State.gpioExportIfAbsent_of_pin hq, he]
    exact State.primitive_ifOk hq hself (by simp [he]) hk
  · rw [exportChanges_of_exported he] at hk ⊢
    rw [State.gpioExportIfAbsent_of_pin hq, he]
    exact hk s hself

/-- The sensor's initialisation, on a pin that exists. -/
theorem State.sensorSteps_eq (hq : s.pin? s.cfg.pwkPin = some q) :
    s.sensorSteps = s.drawChanges true (onPin s.cfg.pwkPin (sensorChanges q)) := by
  have he := q.exported_changed_exportChanges
  simp only [State.sensorSteps, Attempt.ifOk_assoc]
  rw [sensorChanges, onPin_append]
  refine State.gpioExportIfAbsent_ifOk hq fun t ht => ?_
  rw [show t.cfg = s.cfg from ht.1]
  refine State.primitive_ifOk hq ht he fun u hu => ?_
  rw [show u.cfg = s.cfg from hu.1]
  refine State.primitive_ifOk hq hu he fun v hv => ?_
  rw [show v.cfg = s.cfg from hv.1]
  exact State.primitive_ifOk hq hv he fun w _ => w.gpioEnv_eq_drawChanges s.cfg.pwkPin

/-- An output pin's initialisation, on a pin that exists: up to its write, and then the write. -/
theorem State.outputSteps_eq (hq : s.pin? p = some q)
    (hw : ∀ u, (s.withPin p (q.changed (outputChanges q))).PinsOf u →
      u.gpioWriteValue (outputInitTarget s.cfg p) false = u.drawChanges ok cs) :
    s.outputSteps p = s.drawChanges ok (onPin p (outputChanges q) ++ cs) := by
  rw [outputChanges, Pin.changed_append] at hw
  simp only [State.outputSteps, Attempt.ifOk_assoc]
  rw [outputChanges, onPin_append, List.append_assoc]
  refine State.gpioExportIfAbsent_ifOk hq fun t ht => ?_
  refine State.primitive_ifOk hq ht q.exported_changed_exportChanges fun u hu => ?_
  rw [show u.cfg = s.cfg from hu.1]
  exact hw u hu

end

/-! ## The sensor -/

/-- What the sensor's initialisation answers (10_state.md R28). -/
def sensorResult (cfg : Config) (ok : Bool) : Result :=
  .handle (if ok then ⟨true, cfg.pwkPin⟩ else ⟨false, cfg.allOnesPin⟩)

theorem execInitPowerKeySensor_of_pin {s : State} {q : Pin} (hq : s.pin? s.cfg.pwkPin = some q) :
    exec .initPowerKeySensor s = s.finish (.answering (sensorResult s.cfg)
      (s.drawChanges true (onPin s.cfg.pwkPin (sensorChanges q)))) := by
  rw [← State.sensorSteps_eq hq]
  rfl

/-- Settles O42: all changes of the sensor's initialisation are made. -/
theorem sensorInitConfiguresThePin : Obligations.SensorInitConfiguresThePin := by
  intro s q rest hq hd
  have hlen := (length_onPin s.cfg.pwkPin (sensorChanges q)).trans (length_sensorChanges q)
  have hdraws : s.draws = List.replicate (onPin s.cfg.pwkPin (sensorChanges q)).length true ++ rest := by
    rw [hlen, hd]
    cases q.exported <;> rfl
  rw [execInitPowerKeySensor_of_pin hq, State.finish_drawChanges hdraws, hlen,
    State.updPins_onPin (s := s.withDraws rest) hq]
  obtain ⟨exported, _, _, _, _, _, _⟩ := q
  cases exported <;> rfl

/-- Settles O43: the changes before the first 0 stay made, and the tables list what the first `n` changes leave. -/
theorem sensorInitStopsAtFirstFailure : Obligations.SensorInitStopsAtFirstFailure := by
  intro s q rest hq n left hcase hd
  obtain ⟨hn, rfl⟩ : n < (sensorChanges q).length ∧ left = q.changed ((sensorChanges q).take n) := by
    rcases hcase with ⟨he, hmem⟩ | ⟨he, hmem⟩
    · rw [sensorChanges, exportChanges_of_absent he]
      simp only [List.mem_cons, Prod.mk.injEq, List.not_mem_nil, or_false] at hmem
      rcases hmem with ⟨rfl, rfl⟩ | ⟨rfl, rfl⟩ | ⟨rfl, rfl⟩ | ⟨rfl, rfl⟩ | ⟨rfl, rfl⟩ <;> exact ⟨by simp, rfl⟩
    · obtain ⟨_, _, _, _, _, _, _⟩ := q
      cases he
      rw [sensorChanges, exportChanges_of_exported rfl]
      simp only [List.mem_cons, Prod.mk.injEq, List.not_mem_nil, or_false] at hmem
      rcases hmem with ⟨rfl, rfl⟩ | ⟨rfl, rfl⟩ | ⟨rfl, rfl⟩ | ⟨rfl, rfl⟩ <;> exact ⟨by simp, rfl⟩
  rw [execInitPowerKeySensor_of_pin hq, State.finish_drawChanges_stops (by rwa [length_onPin]) hd, take_onPin,
    State.updPins_onPin (s := s.withDraws rest) hq]
  rfl

/-! ## An output pin -/

/-- The initial write of `INIT_OUTPUT_PIN(p)` draws: its target is `p`, or an exported output (R153). -/
def State.InitialWriteDraws (s : State) (p : Nat) : Prop :=
  s.cfg.initWriteTarget = .argPin ∨ s.cfg.fixedPin = p ∨ ∃ r, s.Exported s.cfg.fixedPin r ∧ r.dir = .output

theorem outputInitTarget_of_argPin {cfg : Config} (h : cfg.initWriteTarget = .argPin) (p : Nat) :
    outputInitTarget cfg p = p := by
  simp [outputInitTarget, h]

theorem outputInitTarget_of_fixedPin {cfg : Config} (h : cfg.initWriteTarget = .fixedPin) (p : Nat) :
    outputInitTarget cfg p = cfg.fixedPin := by
  simp [outputInitTarget, h]

theorem outputInitTarget_of_own {cfg : Config} {p : Nat} (h : cfg.initWriteTarget = .argPin ∨ cfg.fixedPin = p) :
    outputInitTarget cfg p = p := by
  cases ht : cfg.initWriteTarget with
  | argPin => exact outputInitTarget_of_argPin ht p
  | fixedPin => exact (outputInitTarget_of_fixedPin ht p).trans (h.resolve_left (by simp [ht]))

section
variable {s : State} {p : Nat} {q : Pin}

theorem Pin.changed_outputChanges (q : Pin) :
    (q.changed (outputChanges q)).exported = true ∧ (q.changed (outputChanges q)).dir = .output := by
  rw [outputChanges, Pin.changed_append]
  exact ⟨q.exported_changed_exportChanges, rfl⟩

/-- The target of a write that draws is an exported output when the write is made. -/
theorem State.InitialWriteDraws.target (hw : s.InitialWriteDraws p) (hq : s.pin? p = some q) :
    ∃ r, (s.withPin p (q.changed (outputChanges q))).pin? (outputInitTarget s.cfg p) = some r ∧
      r.exported = true ∧ r.dir = .output := by
  by_cases hp : outputInitTarget s.cfg p = p
  · rw [hp]
    exact ⟨_, State.pin?_withPin_same hq _, q.changed_outputChanges⟩
  · rcases hw with harg | hfix | ⟨r, ⟨hr, he⟩, hout⟩
    · exact absurd (outputInitTarget_of_own (.inl harg)) hp
    · exact absurd (outputInitTarget_of_own (.inr hfix)) hp
    · rw [State.pin?_withPin_other hp]
      cases ht : s.cfg.initWriteTarget with
      | argPin => exact absurd (outputInitTarget_of_argPin ht p) hp
      | fixedPin => exact ⟨r, by rw [outputInitTarget_of_fixedPin ht, hr], he, hout⟩

theorem execInitOutputPin_of_write (hq : s.pin? p = some q) (hw : s.InitialWriteDraws p) :
    exec (.initOutputPin p) s = s.finish (.answering primResult (s.drawChanges true
      (onPin p (outputChanges q) ++ [(outputInitTarget s.cfg p, Pin.withLatch false)]))) := by
  obtain ⟨r, hr, he, hout⟩ := hw.target hq
  rw [← State.outputSteps_eq hq fun u hu =>
    State.primitive_eq_drawChanges ((hu.pin? _).trans hr) (Pin.write_checked he hout)]
  rfl

/-- Where the write fails its check, the initialisation fails after its other draws. -/
theorem execInitOutputPin_of_no_write (hq : s.pin? p = some q) (hw : ¬ s.InitialWriteDraws p) :
    exec (.initOutputPin p) s =
      s.finish (.answering primResult (s.drawChanges false (onPin p (outputChanges q)))) := by
  obtain ⟨harg, hp, hno⟩ : s.cfg.initWriteTarget ≠ .argPin ∧ s.cfg.fixedPin ≠ p ∧
      ¬ ∃ r, s.Exported s.cfg.fixedPin r ∧ r.dir = .output := by simpa [State.InitialWriteDraws] using hw
  have htarget : outputInitTarget s.cfg p = s.cfg.fixedPin := by
    cases ht : s.cfg.initWriteTarget with
    | argPin => exact absurd ht harg
    | fixedPin => exact outputInitTarget_of_fixedPin ht p
  have hin : ∀ r, s.Exported s.cfg.fixedPin r → r.dir = .input := fun r hr => by
    cases hd : r.dir with
    | input => rfl
    | output => exact absurd ⟨r, hr, hd⟩ hno
  have hwrite : ∀ u, (s.withPin p (q.changed (outputChanges q))).PinsOf u →
      u.gpioWriteValue (outputInitTarget s.cfg p) false = u.drawChanges false [] := fun u hu =>
    State.primitive_unchecked fun r hr => by
      rw [htarget, hu.pin?, State.pin?_withPin_other hp] at hr
      exact State.write_unchecked hin hr
  rw [← List.append_nil (onPin p _), ← State.outputSteps_eq hq hwrite]
  rfl

/-- In either case the draws begin with those before the write. -/
theorem execInitOutputPin_begins (hq : s.pin? p = some q) : ∃ ok cs, exec (.initOutputPin p) s =
    s.finish (.answering primResult (s.drawChanges ok (onPin p (outputChanges q) ++ cs))) := by
  by_cases hw : s.InitialWriteDraws p
  · exact ⟨_, _, execInitOutputPin_of_write hq hw⟩
  · exact ⟨false, [], by rw [List.append_nil, execInitOutputPin_of_no_write hq hw]⟩

/-- Where the draws get as far as draw `n`, `n` of the changes before the write are made first. -/
theorem execInitOutputPin_reaches {n : Nat} (hq : s.pin? p = some q)
    (hn : n < (outputChanges q).length ∨ n = (outputChanges q).length ∧ s.InitialWriteDraws p) :
    ∃ ok cs, exec (.initOutputPin p) s = s.finish (.answering primResult (s.drawChanges ok cs)) ∧ n < cs.length ∧
      cs.take n = onPin p ((outputChanges q).take n) := by
  rcases hn with hn | ⟨rfl, hw⟩
  · obtain ⟨ok, cs, h⟩ := execInitOutputPin_begins hq
    refine ⟨ok, _, h, ?_, ?_⟩
    · rw [List.length_append, length_onPin]
      exact Nat.lt_add_right _ hn
    · rw [List.take_append_of_le_length (by rw [length_onPin]; exact hn.le), take_onPin]
  · refine ⟨true, _, execInitOutputPin_of_write hq hw, by simp, ?_⟩
    rw [List.take_left' (length_onPin ..), List.take_length]

end

/-- Settles O44: the changes before the write, then the write where it draws. -/
theorem outputInitClearsTheLatch : Obligations.OutputInitClearsTheLatch := by
  intro s p q out rest k hq hout hk
  have hlen : (outputChanges q).length = k := (length_outputChanges q).trans hk.symm
  have hchanged : q.changed (outputChanges q) = out := by
    obtain ⟨exported, _, _, _, _, _, _⟩ := q
    cases exported <;> exact hout.symm
  have hlatch : out.changed [Pin.withLatch false] = out := by rw [hout]; rfl
  refine ⟨fun hown hd => ?_, fun hfix hne => ⟨fun r hr hro hd => ?_, fun hin hd => ?_⟩⟩
  · have hcs : onPin p (outputChanges q) ++ [(outputInitTarget s.cfg p, Pin.withLatch false)] =
        onPin p (outputChanges q ++ [Pin.withLatch false]) := by
      rw [outputInitTarget_of_own hown, onPin_append]
      rfl
    have hcslen : (onPin p (outputChanges q ++ [Pin.withLatch false])).length = k + 1 := by simp [hlen]
    rw [execInitOutputPin_of_write hq (hown.imp_right .inl), hcs, State.finish_drawChanges (hcslen ▸ hd), hcslen,
      State.updPins_onPin (s := s.withDraws rest) hq, Pin.changed_append, hchanged, hlatch]
    rfl
  · have hcslen : (onPin p (outputChanges q) ++ onPin s.cfg.fixedPin [Pin.withLatch false]).length = k + 1 := by
      simp [hlen]
    rw [execInitOutputPin_of_write hq (.inr (.inr ⟨r, hr, hro⟩)), outputInitTarget_of_fixedPin hfix,
      show [(s.cfg.fixedPin, Pin.withLatch false)] = onPin s.cfg.fixedPin [Pin.withLatch false] from rfl,
      State.finish_drawChanges (hcslen ▸ hd), hcslen, State.updPins_append,
      State.updPins_onPin (s := s.withDraws rest) hq, hchanged,
      State.updPins_onPin ((State.pin?_withPin_other (s := s.withDraws rest) hne out).trans hr.1)]
    rfl
  · have hw : ¬ s.InitialWriteDraws p := by
      rintro (harg | hp | ⟨r, hr, hro⟩)
      · simp [harg] at hfix
      · exact hne hp
      · simp [hin r hr] at hro
    have hcslen : (onPin p (outputChanges q)).length = k := by simp [hlen]
    rw [execInitOutputPin_of_no_write hq hw, State.finish_drawChanges (hcslen ▸ hd), hcslen,
      State.updPins_onPin (s := s.withDraws rest) hq, hchanged]
    rfl

/-- Settles O53: without a pin the initial step fails; else the changes before the first 0 stay made, and the tables list what
the first `n` changes leave. -/
theorem outputInitStopsAtFirstFailure : Obligations.OutputInitStopsAtFirstFailure := by
  intro s p
  refine ⟨fun hp => ?_, fun q left rest n hq hcase hd => ?_⟩
  · rw [exec, execInitOutputPin, State.outputSteps, State.gpioExportIfAbsent_of_absent (State.pin?_of_nPins_le hp)]
    rfl
  · obtain ⟨hn, rfl⟩ : (n < (outputChanges q).length ∨ n = (outputChanges q).length ∧ s.InitialWriteDraws p) ∧
        left = q.changed ((outputChanges q).take n) := by
      rcases hcase with ⟨he, hmem⟩ | ⟨he, hnl⟩ | ⟨hw, hnl⟩
      · rw [outputChanges, exportChanges_of_absent he]
        simp only [List.mem_cons, Prod.mk.injEq, List.not_mem_nil, or_false] at hmem
        rcases hmem with ⟨rfl, rfl⟩ | ⟨rfl, rfl⟩ <;> exact ⟨.inl (by simp), rfl⟩
      · cases hnl
        exact ⟨.inl (by simp [length_outputChanges, he]), rfl⟩
      · obtain ⟨exported, _, _, _, _, _, _⟩ := q
        cases exported <;> cases hnl <;> exact ⟨.inr ⟨rfl, hw⟩, rfl⟩
    obtain ⟨ok, cs, hexec, hncs, htake⟩ := execInitOutputPin_reaches hq hn
    rw [hexec, State.finish_drawChanges_stops hncs hd, htake, State.updPins_onPin (s := s.withDraws rest) hq]
    rfl

/-! ## Draws without an answer -/

/-- Settles O55: a primitive whose checks pass waits for its draw, a composite for the first draw not answered. -/
theorem unansweredDrawsAreHeld : Obligations.UnansweredDrawsAreHeld := by
  intro s p q n hq hd
  refine ⟨fun hn he => ?_, fun hn he => ?_, fun hp hn => ?_, fun hn => ?_⟩
  · subst hn
    have hexport : exec (.exportPin p) s = .next { s with ret := .held } :=
      State.finish_primitive_held hq (by simp [he]) hd
    exact ⟨hexport, (exportIfAbsentIsIdempotent s p).2.1 q hq he ▸ hexport⟩
  · subst hn
    have configured {i : Instr} (hi : IsConfiguration p i) : exec i s = .next { s with ret := .held } := by
      obtain ⟨g, hg⟩ := exec_configuration hi s
      exact hg.trans (State.finish_primitive_held hq he hd)
    refine ⟨fun x => configured (.inl ⟨x, rfl⟩), fun a => configured (.inr (.inl ⟨a, rfl⟩)),
      fun e hne => configured (.inr (.inr ⟨e, hne, rfl⟩)), ?_, fun hout v => ⟨?_, ?_⟩⟩
    · exact (execReadValue_of_pin hq).trans (State.finish_primitive_held hq he hd)
    · exact State.finish_primitive_held (f := primResult) hq (Pin.write_checked he hout) hd
    · exact State.finish_primitive_held (f := fun ok => .count (if ok then 0 else 1)) hq (Pin.write_checked he hout) hd
  · subst hp
    rw [execInitPowerKeySensor_of_pin hq]
    exact State.finish_drawChanges_held (by rwa [length_onPin, length_sensorChanges]) hd true
  · rw [← length_outputChanges] at hn
    obtain ⟨ok, cs, hexec, hncs, -⟩ := execInitOutputPin_reaches hq hn
    exact hexec.trans (State.finish_drawChanges_held hncs hd ok)

end Sys2Proof.Machine
end

section
/-! SUPPORT. What the operations of the GPIO edge detector leave alone (42_gpio.md R156, R159): machines, channels and the
pins they do not act on, and the pads of those that change no direction, polarity or latch. -/

namespace Sys2Proof.Machine

/-! ## Other pins -/

/-- An instruction but `RESET` leaves every pin that `pinsOf` does not list for it. -/
theorem exec_pin?_of_not_mem {i : Instr} {s t : State} {p : Nat} (hi : i ≠ .reset) (hp : p ∉ pinsOf s.cfg i)
    (h : exec i s = .next t) : t.pin? p = s.pin? p := by
  cases hm : machineOf i with
  | some d =>
    obtain ⟨hpins, -, hcfg, -⟩ := exec_isolated hm h
    exact State.pin?_congr hcfg hpins p
  | none =>
    obtain ⟨u, r, ⟨pins, _, _, rfl, -, hother, -⟩, rfl⟩ := exec_touchesPins hm hi h
    simp [State.pin?, hother p hp]

theorem not_mem_pinsOf_initOutputPin {cfg : Config} {p e : Nat} (he : e ≠ p)
    (hfix : cfg.initWriteTarget = .fixedPin → e ≠ cfg.fixedPin) : e ∉ pinsOf cfg (.initOutputPin p) := by
  cases ht : cfg.initWriteTarget with
  | argPin => simp [pinsOf, outputInitTarget_of_argPin ht, he]
  | fixedPin => simp [pinsOf, outputInitTarget_of_fixedPin ht, he, hfix ht]

/-- Settles O48: the listed instructions are those of the detector, and `pinsOf` names their pins. -/
theorem detectorIsIsolated : Obligations.DetectorIsIsolated := by
  intro i p s t hi h
  have hpins : machineOf i = none ∧ i ≠ .reset ∧ (i ≠ .initOutputPin p → ∀ e ∈ pinsOf s.cfg i, e = p) := by
    rcases hi with hi | ⟨ok, rfl⟩ | ⟨x, rfl⟩ | ⟨a, rfl⟩ | ⟨e, rfl⟩ | ⟨v, rfl⟩ | ⟨ok, rfl⟩ | ⟨ok, rfl⟩ | ⟨v, rfl⟩ | ⟨v, rfl⟩ |
      ⟨rfl, rfl⟩
    · simp only [List.mem_cons, List.not_mem_nil, or_false] at hi
      rcases hi with rfl | rfl | rfl <;> simp [machineOf, pinsOf]
    all_goals simp [machineOf, pinsOf]
  obtain ⟨hm, hreset, hown⟩ := hpins
  obtain ⟨u, r, ⟨_, _, _, rfl, -⟩, rfl⟩ := exec_touchesPins hm hreset h
  refine ⟨rfl, rfl, rfl, fun e he hfix => exec_pin?_of_not_mem hreset ?_ h⟩
  by_cases ho : i = .initOutputPin p
  · subst ho
    exact not_mem_pinsOf_initOutputPin he (hfix rfl)
  · exact fun hmem => he (hown ho e hmem)

/-! ## Pads -/

/-- Every pad shows in `t` what it showed in `s`. -/
def State.KeepsPads (s t : State) : Prop := ∀ p, (t.pin? p).bind Pin.padOut = (s.pin? p).bind Pin.padOut

theorem State.KeepsPads.withPin {s : State} {p : Nat} {q r : Pin} (hq : s.pin? p = some q)
    (hr : r.padOut = q.padOut) : s.KeepsPads (s.withPin p r) := by
  intro e
  by_cases he : e = p
  · subst he
    rw [State.pin?_withPin_same hq, hq]
    exact hr
  · rw [State.pin?_withPin_other he]

/-- A primitive that changes no direction, polarity or latch. -/
theorem State.finish_primitive_keepsPads {s t : State} {p : Nat} {cond : Pin → Bool} {g : Pin → Pin} {f : Bool → Result}
    (hg : ∀ q, (g q).padOut = q.padOut) (h : s.finish (.answering f (s.primitive p cond g)) = .next t) :
    s.KeepsPads t := by
  rcases State.finish_eq_next.mp h with ⟨u, r, hr, rfl⟩ | ⟨-, rfl⟩
  · obtain ⟨v, ok, hx, hv⟩ := Attempt.andThen_eq_done.mp hr
    cases hv
    rcases State.primitive_eq_done hx with ⟨-, rfl⟩ | ⟨q, rest, hq, -, -, rfl⟩
    · exact fun _ => rfl
    · cases ok with
      | false => exact fun _ => rfl
      | true => exact State.KeepsPads.withPin (s := (s.withDraws rest).log (.gpioEnv true)) hq (hg q)
  · exact fun _ => rfl

theorem execSetEdge_keepsPads {s t : State} {p : Nat} {e : BitVec 2} (h : exec (.setEdge p e) s = .next t) :
    s.KeepsPads t := by
  by_cases he : e = 3
  · subst he
    cases h
    exact fun _ => rfl
  · obtain ⟨m, hm⟩ := EdgeMode.ofCode_of_ne_three he
    rw [execSetEdge_of_ofCode hm] at h
    exact State.finish_primitive_keepsPads (g := Pin.withEdge m) (fun _ => rfl) h

theorem execSample_keepsPads {s t : State} {p : Nat} {v : Bool} (h : exec (.sample p v) s = .next t) :
    s.KeepsPads t := by
  cases hq : s.pin? p with
  | none =>
    simp only [exec, execSample, hq] at h
    cases h
    exact fun _ => rfl
  | some q =>
    cases (execSample_of_pin hq v).symm.trans h
    exact State.KeepsPads.withPin hq rfl

theorem execPoll_keepsPads {s t : State} {hd : Handle} (h : exec (.poll hd) s = .next t) : s.KeepsPads t := by
  cases hq : s.handlePin hd with
  | none =>
    simp only [exec, execPoll, hq] at h
    cases h
    exact fun _ => rfl
  | some q =>
    cases (execPoll_of_handlePin hq).symm.trans h
    exact State.KeepsPads.withPin (State.pin?_of_handlePin hq) rfl

theorem execWaitEdge_keepsPads {s t : State} {hd : Handle} (h : exec (.waitEdge hd) s = .next t) : s.KeepsPads t := by
  cases hq : s.handlePin hd with
  | none =>
    simp only [exec, execWaitEdge, hq] at h
    cases h
    exact fun _ => rfl
  | some q =>
    cases hp : q.edgePending with
    | false =>
      cases (execWaitEdge_of_not_pending hq hp).symm.trans h
      exact fun _ => rfl
    | true =>
      cases (execWaitEdge_of_pending hq hp).symm.trans h
      exact State.KeepsPads.withPin (State.pin?_of_handlePin hq) rfl

/-- Settles O46: the pin is none of the instruction's, or the instruction is a named one on it, or it changes nothing that
a pad shows. -/
theorem padsChangeOnlyByPinOperations : Obligations.PadsChangeOnlyByPinOperations := by
  intro i s t p h
  by_cases hreset : i = .reset
  · simp [hreset]
  by_cases hp : p ∈ pinsOf s.cfg i
  · cases i <;> simp only [pinsOf, List.mem_cons, List.not_mem_nil, or_false] at hp
    case setEdge => exact .inl (execSetEdge_keepsPads h p)
    case sample => exact .inl (execSample_keepsPads h p)
    case poll => exact .inl (execPoll_keepsPads h p)
    case waitEdge => exact .inl (execWaitEdge_keepsPads h p)
    case initOutputPin e =>
      by_cases hown : p = e
      · simp [hown]
      · have htarget : p = outputInitTarget s.cfg e := hp.resolve_left hown
        cases ht : s.cfg.initWriteTarget with
        | argPin => exact absurd (htarget.trans (outputInitTarget_of_argPin ht e)) hown
        | fixedPin => simp [htarget.trans (outputInitTarget_of_fixedPin ht e)]
    all_goals simp [hp]
  · exact .inl (by rw [exec_pin?_of_not_mem hreset hp h])

end Sys2Proof.Machine
end

section
/-! SUPPORT. The host interface (43_host_interface.md): the operations on a machine's lifetime and its status record (R180 to
R182), then the runs that the history shows, which agree with the machines (R186). -/

namespace Sys2Proof.Machine

/-! ## Lifetime and status -/

theorem State.fdc?_of_nDir_le {s : State} {d : Nat} (h : s.cfg.nDir ≤ d) : s.fdc? d = none :=
  if_neg (Nat.not_lt.mpr h)

theorem State.onFdc_of_none {s : State} {d : Nat} (h : s.fdc? d = none) (k : Fdc → Attempt Result) :
    s.onFdc d k = s.refuse := by
  rw [State.onFdc, h]

theorem execFbInit_of_fdc? {s : State} {d : Nat} {f : Fdc} (hf : s.fdc? d = some f) :
    exec (.fbInit d) s = .next { s.withFdc d (f.cleared true) with ret := .done } := by
  rw [exec, execFbInit, State.onFdc_of_some hf, State.updFdc_eq_withFdc hf, State.finish_done]

theorem execFbDestroy_of_alive {s : State} {d : Nat} {f : Fdc} (ha : s.Alive d f) :
    exec (.fbDestroy d) s = .next { s.withFdc d { f with alive := false } with ret := .done } := by
  rw [exec, execFbDestroy, State.onAlive_of_alive ha, State.updFdc_eq_withFdc ha.1, State.finish_done]

theorem execFbDestroy_of_not_alive {s : State} {d : Nat} (h : ∀ f, ¬ s.Alive d f) :
    exec (.fbDestroy d) s = .next { s with ret := .refused } := by
  rw [exec, execFbDestroy, State.onAlive_of_not_alive h, State.finish_refuse]

theorem execRdStatus_of_fdc? {s : State} {d : Nat} {f : Fdc} (hf : s.fdc? d = some f) :
    exec (.rdStatus d) s = .next { s with ret := .status f.toStatus } := by
  rw [exec, execRdStatus, State.onFdc_of_some hf, State.finish_done]

/-- Settles O30: each operation replaces its machine, or its operand does not qualify. -/
theorem lifetimeOperations : Obligations.LifetimeOperations := by
  intro s d
  refine ⟨fun f hf => ?_, fun f ha => ?_, fun hd => ?_, execFbDestroy_of_not_alive⟩
  · rw [State.returning_nil]
    exact execFbInit_of_fdc? hf
  · rw [State.returning_nil]
    exact execFbDestroy_of_alive ha
  · rw [exec, execFbInit, State.onFdc_of_none (State.fdc?_of_nDir_le hd), State.finish_refuse]

/-- Settles O31: the record is that of the machine, and there is none for a number that names no machine. -/
theorem statusReadsChangeNothing : Obligations.StatusReadsChangeNothing := by
  refine fun s d => ⟨fun f hf => execRdStatus_of_fdc? hf, fun hd => ?_⟩
  rw [exec, execRdStatus, State.onFdc_of_none (State.fdc?_of_nDir_le hd), State.finish_refuse]

/-! ## Runs that fit a machine -/

/-- `State.RunsAgree` for one machine `f` with the runs `rs`: a run goes on exactly while the machine is alive, and it is
faulted exactly when `fault_full` is set (R186). -/
def Runs.Fits (rs : Runs) (f : Fdc) : Prop :=
  rs.current.isSome = f.alive ∧ ∀ r, rs.current = some r → r.faulted = f.faultFull

theorem State.RunsAgree.fits {s : State} {d : Nat} {f : Fdc} (hs : s.RunsAgree) (hf : s.fdc? d = some f) :
    (s.runs d).Fits f := hs d f hf

/-- A run that has just begun is not faulted, nor is a machine just initialised (R180). -/
theorem Runs.fits_begun (rs : Runs) (f : Fdc) : (rs.turn (some Run.fresh)).Fits (f.cleared true) :=
  ⟨rfl, fun _ h => by cases h; rfl⟩

theorem Runs.fits_ended (rs : Runs) {f : Fdc} (h : f.alive = false) : (rs.turn none).Fits f :=
  ⟨h.symm, nofun⟩

/-- A cycle that returned `c` faults a run that was not faulted exactly where it faults the machine: its read filled the
buffer and `c` is Incomplete (40_frame_reader.md R98). -/
theorem Runs.Fits.cycled {rs : Runs} {f g : Fdc} {full : Bool} {c : FrameTypeCode} (h : rs.Fits f)
    (hff : f.faultFull = false) (halive : g.alive = f.alive)
    (hfault : g.faultFull = (full && decide (c = .incomplete))) :
    ((rs.modify (Run.read full)).modify (Run.cycled c)).Fits g := by
  obtain ⟨hsome, hfaulted⟩ := h
  refine ⟨by simpa [Runs.modify, halive] using hsome, fun r hr => ?_⟩
  simp only [Runs.modify, Option.map_map, Option.map_eq_some_iff] at hr
  obtain ⟨r, hr, rfl⟩ := hr
  simp [Run.cycled, Run.read, hfaulted r hr, hff, hfault]

/-! ## What is recorded of an operation, and of which machine's runs it is part -/

theorem State.runs_log (s : State) (e : Event) (d : Nat) : (s.log e).runs d = (s.runs d).note d e :=
  State.runs_append (es := [e]) rfl d

/-- A read request of machine `e`, with plain events after it, is part of the run of machine `e` only. -/
theorem State.runs_of_read {s t : State} {e ch max : Nat} {a : ReadAns} {es : List Event}
    (h : t.history = s.history ++ .chRead e ch max a :: es) (hes : ∀ x ∈ es, x.isPlain = true) (d : Nat) :
    t.runs d = if e = d then (s.runs d).modify (Run.read (answeredInFull max a)) else s.runs d := by
  rw [State.runs_append h, List.foldl_cons, Runs.foldl_plain d _ hes, Runs.note]

theorem Runs.note_fbInit (d : Nat) (rs : Runs) (who : Agent) :
    rs.note d (.finished who (.fbInit d) .done) = rs.turn (some Run.fresh) := if_pos rfl

theorem Runs.note_fbDestroy (d : Nat) (rs : Runs) (who : Agent) :
    rs.note d (.finished who (.fbDestroy d) .done) = rs.turn none := if_pos rfl

theorem Runs.note_cycle (d : Nat) (rs : Runs) (who : Agent) (c : FrameTypeCode) :
    rs.note d (.finished who (.cycle d) (.code c)) = rs.modify (Run.cycled c) := if_pos rfl

/-- The end of an operation that is not on machine `d` is no part of its runs, `RESET` apart. -/
theorem Runs.note_finished_of_elsewhere {i : Instr} {d : Nat} (hm : machineOf i ≠ some d) (hreset : i ≠ .reset)
    (rs : Runs) (who : Agent) (r : Result) : rs.note d (.finished who i r) = rs := by
  have other {e : Nat} (he : machineOf i = some e) : ¬ e = d := fun hed => hm (hed ▸ he)
  unfold Runs.note
  split
  case h_1 h => cases h
  case h_2 h => cases h; exact if_neg (other rfl)
  case h_3 h => cases h; exact if_neg (other rfl)
  case h_4 h => cases h; exact if_neg (other rfl)
  case h_5 h => cases h; exact absurd rfl hreset
  case h_6 => rfl

theorem State.RunsAgree.of_adds {s t : State} (hs : s.RunsAgree) (h : s.Adds t) (hcfg : t.cfg = s.cfg)
    (hfdcs : t.fdcs = s.fdcs) : t.RunsAgree := by
  intro d f hf
  rw [h.runs d]
  exact hs.fits (State.fdc?_congr hcfg hfdcs d ▸ hf)

/-! ## `CYCLE` -/

/-- What `CYCLE` can do: it is refused or held, or its two phases ran to their ends (41_packet_dispatcher.md R110). -/
theorem execCycle_eq_next {d : Nat} {s t : State} (h : exec (.cycle d) s = .next t) :
    t = { s with ret := .refused } ∨ t = { s with ret := .held } ∨ ∃ f u v c, s.Ready d f ∧
      s.readPhase d = .done u c ∧ u.resolveArm d c = .done v () ∧ t = { v with ret := .code c } := by
  rcases s.onReady_cases d (fun _ =>
    (s.readPhase d).andThen fun t c => (t.resolveArm d c).andThen fun u _ => .done u (.code c)) with
    ⟨-, e⟩ | ⟨f, hf, e⟩ <;> rw [exec, execCycle, e] at h
  · cases h
    exact .inl rfl
  · rcases State.finish_eq_next.mp h with ⟨w, r, hw, rfl⟩ | ⟨-, rfl⟩
    · obtain ⟨u, c, hread, hrest⟩ := Attempt.andThen_eq_done.mp hw
      obtain ⟨v, _, hresolve, hv⟩ := Attempt.andThen_eq_done.mp hrest
      cases hv
      exact .inr (.inr ⟨f, u, w, c, hf, hread, hresolve, rfl⟩)
    · exact .inr (.inl rfl)

/-- A cycle of machine `e` records nothing of the runs of another machine. -/
theorem execCycle_runs_other {e d : Nat} {s t : State} (hne : e ≠ d) (h : exec (.cycle e) s = .next t) :
    t.runs d = s.runs d := by
  rcases execCycle_eq_next h with rfl | rfl | ⟨f, u, v, c, -, hread, hresolve, rfl⟩
  · rfl
  · rfl
  · obtain ⟨a, es, hhist, hplain⟩ := State.readPhase_records hread
    calc State.runs { v with ret := .code c } d
      _ = u.runs d := (u.resolveArm_adds e c v () hresolve).runs d
      _ = s.runs d := (State.runs_of_read hhist hplain d).trans (if_neg hne)

/-- The read phase of an admitted machine leaves it alive, and faulted exactly where the read filled the buffer and it is
left Incomplete (40_frame_reader.md R98); so much the run shows of the read. -/
theorem State.readPhase_runs {s u : State} {d : Nat} {f : Fdc} {c : FrameTypeCode} (hr : s.Ready d f)
    (h : s.readPhase d = .done u c) :
    ∃ g full, u.fdc? d = some g ∧ g.alive = f.alive ∧ g.faultFull = (full && decide (c = .incomplete)) ∧
      u.runs d = (s.runs d).modify (Run.read full) := by
  obtain ⟨⟨hf, -⟩, hff⟩ := hr
  obtain ⟨a, g, _, es, hfit, hu, -, -, -, -, -, -, halive, hincomplete, hother⟩ := State.readPhase_effect hf hff h
  obtain ⟨a', es', hhist, hplain⟩ := State.readPhase_records h
  have hes : es = es' := by
    rw [hu] at hhist
    exact (List.cons.inj (List.append_cancel_left hhist)).2
  subst hes
  refine ⟨g, answeredInFull (s.cfg.cap - f.cursor) a, (State.Replaces.of_withFdc hu).fdc?_same hf, halive, ?_, ?_⟩
  · by_cases hc : c = .incomplete
    · obtain ⟨bs, rfl, hg, -⟩ := hincomplete hc
      obtain ⟨hpos, hlen⟩ := ReadAns.fits_bytes.mp hfit
      have hcursor : g.cursor = f.cursor + bs.length := by rw [hg]; rfl
      have hfull : g.cursor = s.cfg.cap ↔ bs.length = s.cfg.cap - f.cursor := by omega
      have hfault : g.faultFull = decide (g.cursor = s.cfg.cap) := congrArg Fdc.faultFull hg
      simp [hfault, hfull, hc, answeredInFull]
    · simp [hother hc, hc]
  · exact (State.runs_of_read (congrArg State.history hu) hplain d).trans (if_pos rfl)

/-! ## Every operation of an agent -/

/-- Once the operation `i` that ended in `t` is recorded as finished, the runs of machine `d` fit it. -/
def State.FitsAfter (who : Agent) (i : Instr) (d : Nat) (t : State) : Prop :=
  ∀ g, t.fdc? d = some g → ((t.runs d).note d (.finished who i t.ret)).Fits g

section
variable {s t : State} {who : Agent} {d : Nat}

theorem execReset_fits (h : exec .reset s = .next t) : t.FitsAfter who .reset d := by
  cases h
  intro g hg
  obtain ⟨-, hg⟩ := State.fdc?_eq_some.mp hg
  obtain ⟨f, hf, rfl⟩ := List.mem_map.mp (List.mem_of_getElem? hg)
  exact Runs.fits_ended _ rfl

theorem execFbInit_fits (hs : s.RunsAgree) (h : exec (.fbInit d) s = .next t) : t.FitsAfter who (.fbInit d) d := by
  intro g hg
  rcases execFbInit_eq_next h with rfl | ⟨f, hf, rfl⟩
  · exact hs.fits hg
  · rw [State.updFdc_eq_withFdc hf] at hg
    obtain rfl : f.cleared true = g := Option.some.inj ((State.fdc?_withFdc_same hf _).symm.trans hg)
    exact (Runs.note_fbInit d (s.runs d) who).symm ▸ Runs.fits_begun (s.runs d) f

theorem execFbDestroy_fits (hs : s.RunsAgree) (h : exec (.fbDestroy d) s = .next t) :
    t.FitsAfter who (.fbDestroy d) d := by
  intro g hg
  by_cases ha : ∃ f, s.Alive d f
  · obtain ⟨f, ha⟩ := ha
    cases (execFbDestroy_of_alive ha).symm.trans h
    obtain rfl : { f with alive := false } = g :=
      Option.some.inj ((State.fdc?_withFdc_same ha.1 _).symm.trans hg)
    exact (Runs.note_fbDestroy d (s.runs d) who).symm ▸ Runs.fits_ended (s.runs d) rfl
  · cases (execFbDestroy_of_not_alive (not_exists.mp ha)).symm.trans h
    exact hs.fits hg

theorem execRdStatus_fits (hs : s.RunsAgree) (h : exec (.rdStatus d) s = .next t) :
    t.FitsAfter who (.rdStatus d) d := by
  intro g hg
  rcases s.onFdc_cases d (fun f => .done s (.status f.toStatus)) with ⟨-, e⟩ | ⟨f, -, e⟩ <;>
    rw [exec, execRdStatus, e] at h <;> cases h <;> exact hs.fits hg

theorem execCycle_fits (hs : s.RunsAgree) (h : exec (.cycle d) s = .next t) : t.FitsAfter who (.cycle d) d := by
  intro g' hg'
  rcases execCycle_eq_next h with rfl | rfl | ⟨f, u, v, c, hr, hread, hresolve, rfl⟩
  · exact hs.fits hg'
  · exact hs.fits hg'
  · obtain ⟨⟨hf, -⟩, hff⟩ := id hr
    obtain ⟨g, full, hug, halive, hfault, hruns⟩ := State.readPhase_runs hr hread
    obtain ⟨_, _, _, hvg⟩ := (State.resolveArm_eq_done hug hresolve).fdc?_same hug
    obtain rfl := Option.some.inj (hvg.symm.trans hg')
    show ((v.runs d).note d (.finished who (.cycle d) (.code c))).Fits _
    rw [Runs.note_cycle, (u.resolveArm_adds d c v () hresolve).runs d, hruns]
    exact (hs.fits hf).cycled hff halive hfault

/-- An operation of the hosts or of the environment on another machine or on none. -/
theorem exec_fits_of_elsewhere {i : Instr} (hs : s.RunsAgree) (hm : machineOf i ≠ some d) (hreset : i ≠ .reset)
    (hread : ∀ e, i ≠ .readInto e) (h : exec i s = .next t) : t.FitsAfter who i d := by
  intro g hg
  have hruns : t.runs d = s.runs d := by
    by_cases hc : ∃ e, i = .cycle e
    · obtain ⟨e, rfl⟩ := hc
      exact execCycle_runs_other (fun he => hm (congrArg some he)) h
    · exact (exec_adds (not_exists.mp hc) hread h).runs d
  rw [Runs.note_finished_of_elsewhere hm hreset, hruns]
  exact hs.fits (exec_fdc?_of_elsewhere hm hreset h ▸ hg)

/-- An offered instruction: on machine `d` it is one of the host's four commands. -/
theorem exec_fits {x : Item} {i : Instr} (hs : s.RunsAgree) (hx : s.offered who = some x) (hi : decode s.cfg x = .ok i)
    (h : exec i s = .next t) : t.FitsAfter who i d := by
  by_cases hreset : i = .reset
  · subst hreset
    exact execReset_fits h
  by_cases hm : machineOf i = some d
  · have hmem := machineOf_offered hx hi hm
    simp only [List.mem_cons, List.not_mem_nil, or_false] at hmem
    rcases hmem with rfl | rfl | rfl | rfl
    · exact execFbInit_fits hs h
    · exact execFbDestroy_fits hs h
    · exact execCycle_fits hs h
    · exact execRdStatus_fits hs h
  · refine exec_fits_of_elsewhere hs hm hreset (fun e hread => ?_) h
    have hmem := machineOf_offered hx hi (d := e) (by rw [hread]; rfl)
    simp [hread] at hmem

end

/-! ## The step -/

/-- A finished operation is recorded; a held one has changed nothing. -/
theorem State.RunsAgree.retire {s t : State} {i : Instr} (hs : s.RunsAgree) (who : Agent) (h : exec i s = .next t)
    (hfits : ∀ d, t.FitsAfter who i d) : (State.retire who i t).RunsAgree := by
  unfold State.retire
  split
  · next hheld =>
    rw [heldOperationsChangeNothing i s t h hheld]
    exact hs.of_adds (.of_eq rfl) rfl rfl
  · intro d g hg
    rw [State.log_fdc_eq, State.fdc?_congr (t.drop_cfg who) (t.drop_fdcs who)] at hg
    rw [State.runs_log, (State.Adds.of_eq (t.drop_history who)).runs d]
    exact hfits d g hg

theorem State.RunsAgree.rejectItem {s : State} (hs : s.RunsAgree) (who : Agent) (why : Reject) :
    (s.rejectItem who why).RunsAgree := by
  rw [State.rejectItem_eq]
  exact hs.of_adds (.one rfl rfl) rfl rfl

theorem stepAgent_runsAgree {who : Agent} {s t : State} (hs : s.RunsAgree) (h : stepAgent who s = .next t) :
    t.RunsAgree := by
  rcases stepAgent_eq_next h with rfl | ⟨why, rfl⟩ | ⟨x, i, u, hx, hi, hu, rfl⟩
  · exact hs
  · exact hs.rejectItem who why
  · exact hs.retire who hu fun _ => exec_fits hs hx hi hu

/-- No machine is alive after reset, and no run has begun. -/
theorem State.runsAgree_resetOf (cfg : Config) : (State.resetOf cfg).RunsAgree := by
  intro d f hf
  obtain ⟨hd, -⟩ := State.fdc?_eq_some.mp hf
  obtain rfl : Fdc.reset = f := Option.some.inj ((State.fdc?_resetOf hd).symm.trans hf)
  exact ⟨rfl, nofun⟩

/-- Settles O54: no run goes on at reset, an idle machine stays as it is, and an agent's turn keeps the agreement. -/
theorem runsFollowTheMachines : Obligations.RunsFollowTheMachines := by
  refine ⟨State.runsAgree_resetOf Config.hinted, fun s t hs h => ?_⟩
  rw [step] at h
  split at h
  · split at h
    · cases h
      exact hs
    · next who rest _ =>
      exact stepAgent_runsAgree (hs.of_adds (t := { s with turns := rest }) (.of_eq rfl) rfl rfl) h
  · cases h

end Sys2Proof.Machine
end

section
/-! SUPPORT. Where the model itself stops (60_exceptions.md R190; log entries 9, 29): an attempt is refused only by a channel
request, where the next of its data is no answer of the interface, and a step also by its configuration. -/

namespace Sys2Proof.Machine

/-! ## Attempts that only an ill-shaped answer can refuse -/

/-- Where `x` is refused it is as `notAnAnswer`, and `P` holds. -/
def Attempt.RefusedOnlyIf {α : Type} (P : Prop) (x : Attempt α) : Prop :=
  ∀ r, x = .refused r → r = .notAnAnswer ∧ P

section
variable {α β : Type} {P Q : Prop} {s : State} {d : Nat}

theorem Attempt.RefusedOnlyIf.done (t : State) (a : α) : Attempt.RefusedOnlyIf P (.done t a) := nofun

theorem Attempt.RefusedOnlyIf.held : Attempt.RefusedOnlyIf P (.held : Attempt α) := nofun

theorem Attempt.RefusedOnlyIf.mono {x : Attempt α} (hx : x.RefusedOnlyIf P) (h : P → Q) : x.RefusedOnlyIf Q :=
  fun r hr => ⟨(hx r hr).1, h (hx r hr).2⟩

theorem Attempt.RefusedOnlyIf.andThen {x : Attempt α} {k : State → α → Attempt β} (hx : x.RefusedOnlyIf P)
    (hk : ∀ t a, x = .done t a → (k t a).RefusedOnlyIf P) : (x.andThen k).RefusedOnlyIf P := by
  intro r h
  rcases Attempt.andThen_eq_refused.mp h with h | ⟨t, a, hx', h⟩
  · exact hx r h
  · exact hk t a hx' r h

/-- What is done with the answer of a request is no request. -/
theorem Attempt.RefusedOnlyIf.returning {x : Attempt α} {u : State → α → State} {f : State → α → β}
    (hx : x.RefusedOnlyIf P) : (x.andThen fun t a => .done (u t a) (f t a)).RefusedOnlyIf P :=
  hx.andThen fun t a _ => .done (u t a) (f t a)

theorem State.onFdc_refusedOnlyIf {k : Fdc → Attempt Result} (hk : ∀ f, s.fdc? d = some f → (k f).RefusedOnlyIf P) :
    (s.onFdc d k).RefusedOnlyIf P := by
  rcases s.onFdc_cases d k with ⟨-, e⟩ | ⟨f, hf, e⟩ <;> rw [e]
  · exact .done s Result.refused
  · exact hk f hf

theorem State.onAlive_refusedOnlyIf {k : Fdc → Attempt Result} (hk : ∀ f, s.Alive d f → (k f).RefusedOnlyIf P) :
    (s.onAlive d k).RefusedOnlyIf P := by
  rcases s.onAlive_cases d k with ⟨-, e⟩ | ⟨f, hf, e⟩ <;> rw [e]
  · exact .done s Result.refused
  · exact hk f hf

theorem State.onReady_refusedOnlyIf {k : Fdc → Attempt Result} (hk : ∀ f, s.Ready d f → (k f).RefusedOnlyIf P) :
    (s.onReady d k).RefusedOnlyIf P := by
  rcases s.onReady_cases d k with ⟨-, e⟩ | ⟨f, hf, e⟩ <;> rw [e]
  · exact .done s Result.refused
  · exact hk f hf

theorem State.finish_eq_refused_notAnAnswer {x : Attempt Result} {r : Refusal} (hx : x.RefusedOnlyIf P)
    (h : s.finish x = .refused r) : r = .notAnAnswer ∧ P := hx r (State.finish_eq_refused.mp h)

end

/-! ## The requests to the channels -/

/-- One of the next two write answers of `IN`, or the next one of `OUT`, is no answer of the interface. -/
def State.NextWriteUnfit (s : State) (d : Nat) : Prop :=
  (∃ a ∈ (s.chan (s.inCh d)).writes.take 2, WriteAns.fits s.cfg a = false) ∨
  (∃ a ∈ (s.chan (s.outCh d)).writes.take 1, WriteAns.fits s.cfg a = false)

/-- Whether a next write answer is unfit is read off the configuration and the write answers. -/
theorem State.NextWriteUnfit.congr {s u : State} {d : Nat} (h : u.NextWriteUnfit d) (hcfg : u.cfg = s.cfg)
    (hwrites : ∀ ch, (u.chan ch).writes = (s.chan ch).writes) : s.NextWriteUnfit d := by
  unfold State.NextWriteUnfit at h ⊢
  simpa only [hcfg, State.inCh_congr hcfg, State.outCh_congr hcfg, hwrites] using h

theorem State.NextWriteUnfit.meetsNoAnswer {s : State} {d : Nat} {f : Fdc} (h : s.NextWriteUnfit d)
    (ha : s.Alive d f) : s.MeetsNoAnswer d := ⟨f, ha, Or.inr h⟩

/-- The next of the answers is one of the next two. -/
theorem State.NextWriteUnfit.of_next_in {s : State} {d : Nat}
    (h : ∃ a ∈ (s.chan (s.inCh d)).writes.take 1, WriteAns.fits s.cfg a = false) : s.NextWriteUnfit d := by
  obtain ⟨a, ha, hfit⟩ := h
  exact Or.inl ⟨a, List.take_subset_take_left _ (by decide) ha, hfit⟩

section
variable (s : State) (d : Nat)

theorem State.chRead_refusedOnlyIf (max : Nat) : (s.chRead d max).RefusedOnlyIf
    (∃ a ∈ (s.chan (s.inCh d)).reads.take 1, ReadAns.fits s.cfg max a = false) := by
  intro r h
  refine ⟨State.chRead_refused h, ?_⟩
  cases hq : (s.chan (s.inCh d)).reads with
  | nil => rw [State.chRead_held hq] at h; cases h
  | cons a rest =>
    cases hfit : a.fits s.cfg max with
    | false => exact ⟨a, by simp, hfit⟩
    | true => rw [State.chRead_of_reads hq hfit] at h; cases h

theorem State.chWrite_refusedOnlyIf (ch : Nat) (bs : List Byte) : (s.chWrite d ch bs).RefusedOnlyIf
    (∃ a ∈ (s.chan ch).writes.take 1, WriteAns.fits s.cfg a = false) := by
  intro r h
  refine ⟨State.chWrite_refused h, ?_⟩
  cases hw : (s.chan ch).writes with
  | nil => rw [State.chWrite_held hw] at h; cases h
  | cons a rest =>
    cases hfit : a.fits s.cfg with
    | false => exact ⟨a, by simp, hfit⟩
    | true => rw [State.chWrite_of_writes hw hfit] at h; cases h

theorem State.countedWrite_refusedOnlyIf (ch : Nat) (bs : List Byte) : (s.countedWrite d ch bs).RefusedOnlyIf
    (∃ a ∈ (s.chan ch).writes.take 1, WriteAns.fits s.cfg a = false) :=
  (s.chWrite_refusedOnlyIf d ch bs).returning

/-- The second acknowledgement meets the answer after the one the first took (41_packet_dispatcher.md R122). -/
theorem State.handshake_refusedOnlyIf : (s.handshake d).RefusedOnlyIf (s.NextWriteUnfit d) := by
  refine ((s.countedWrite_refusedOnlyIf d _ _).mono .of_next_in).andThen fun t _ ht => ?_
  obtain ⟨a, rest, hw, -, rfl⟩ := State.countedWrite_eq_done ht
  refine (State.countedWrite_refusedOnlyIf _ d _ _).mono fun ⟨b, hb, hfit⟩ => Or.inl ⟨b, ?_, hfit⟩
  have hrest := congrArg ChannelEnv.writes (State.chan_withWrites_same hw rest)
  simp only [State.addWriteErrors, State.updFdc_inCh_eq, State.updFdc_chan_eq, State.log_inCh_eq, State.log_chan_eq,
    State.withWrites_inCh_eq, hrest] at hb
  rw [hw]
  exact List.mem_cons_of_mem a hb

theorem State.ack2Only_refusedOnlyIf : (s.ack2Only d).RefusedOnlyIf (s.NextWriteUnfit d) :=
  ((s.chWrite_refusedOnlyIf d _ _).mono .of_next_in).returning

theorem State.forward_refusedOnlyIf : (s.forward d).RefusedOnlyIf (s.NextWriteUnfit d) :=
  (s.countedWrite_refusedOnlyIf d _ _).mono Or.inr

/-- A resolve action is refused only where a write of it would meet no answer (41_packet_dispatcher.md R111). -/
theorem State.resolveArm_refusedOnlyIf (c : FrameTypeCode) : (s.resolveArm d c).RefusedOnlyIf (s.NextWriteUnfit d) := by
  cases c
  case keepalive => exact (s.handshake_refusedOnlyIf d).returning
  case init1 => exact (s.handshake_refusedOnlyIf d).returning
  case init2 => exact (s.ack2Only_refusedOnlyIf d).returning
  case panelPowerKey => exact .done _ _
  case forwardable => exact (s.forward_refusedOnlyIf d).returning
  case endOfStream => exact (s.forward_refusedOnlyIf d).returning
  case endOfFile => exact (s.forward_refusedOnlyIf d).returning
  case incomplete => exact .done _ _
  case invalid => exact .done _ _

end

/-- The read phase of an alive machine is refused only where its request would meet no answer (40_frame_reader.md R91). -/
theorem State.readPhase_refusedOnlyIf {s : State} {d : Nat} {f : Fdc} (ha : s.Alive d f) :
    (s.readPhase d).RefusedOnlyIf (s.MeetsNoAnswer d) := by
  have hread := s.chRead_refusedOnlyIf d (s.cfg.cap - (s.fdcD d).cursor)
  rw [State.fdcD_of_some ha.1] at hread
  rw [State.readPhase, State.fdcD_of_some ha.1]
  refine (hread.mono fun h => ⟨f, ha, Or.inl h⟩).andThen fun t a _ => ?_
  cases a <;> exact .done _ _

theorem State.raiseIfFull_chans (s : State) (d : Nat) : (s.raiseIfFull d).chans = s.chans := by
  unfold State.raiseIfFull
  split <;> rfl

/-- The read phase takes no write answer, also where the memory of its machine is not canonical. -/
theorem State.readPhase_writes {s u : State} {d : Nat} {c : FrameTypeCode} (h : s.readPhase d = .done u c) (ch : Nat) :
    (u.chan ch).writes = (s.chan ch).writes := by
  obtain ⟨t, a, hread, h⟩ := Attempt.andThen_eq_done.mp h
  obtain ⟨rest, -, -, rfl⟩ := State.chRead_eq_done hread
  rw [← s.writes_withReads (s.inCh d) rest ch]
  cases a <;> cases h
  case bytes bs => exact congrArg ChannelEnv.writes (State.chan_congr (State.raiseIfFull_chans _ d) ch)
  case eof => rfl
  case err e => rfl

/-! ## The operations of the GPIO edge detector issue no channel request -/

section
variable {P : Prop} (s : State) (p : Nat)

theorem State.gpioEnv_refusedOnlyIf : s.gpioEnv.RefusedOnlyIf P := fun r h => absurd h (s.gpioEnv_ne_refused r)

theorem State.primitive_refusedOnlyIf (cond : Pin → Bool) (g : Pin → Pin) : (s.primitive p cond g).RefusedOnlyIf P :=
  fun r h => absurd h (s.primitive_ne_refused p cond g r)

theorem State.gpioExportIfAbsent_refusedOnlyIf : (s.gpioExportIfAbsent p).RefusedOnlyIf P := by
  unfold State.gpioExportIfAbsent
  split
  · exact .done _ _
  · split
    · exact .done _ _
    · exact s.primitive_refusedOnlyIf p _ _

theorem State.gpioSetEdge_refusedOnlyIf (e : BitVec 2) : (s.gpioSetEdge p e).RefusedOnlyIf P := by
  unfold State.gpioSetEdge
  split
  · exact .done _ _
  · exact s.primitive_refusedOnlyIf p _ _

theorem State.gpioReadValue_refusedOnlyIf : (s.gpioReadValue p).RefusedOnlyIf P :=
  (s.primitive_refusedOnlyIf p _ _).andThen fun _ _ _ => by split <;> exact .done _ _

theorem Attempt.RefusedOnlyIf.ifOk {x : Attempt Bool} {k : State → Attempt Bool} (hx : x.RefusedOnlyIf P)
    (hk : ∀ t, (k t).RefusedOnlyIf P) : (x.ifOk k).RefusedOnlyIf P := hx.andThen fun t _ _ => by
  split
  · exact hk t
  · exact .done _ _

theorem State.sensorSteps_refusedOnlyIf : s.sensorSteps.RefusedOnlyIf P :=
  (((s.gpioExportIfAbsent_refusedOnlyIf _).ifOk fun t => t.primitive_refusedOnlyIf _ _ _).ifOk
    fun t => t.primitive_refusedOnlyIf _ _ _).ifOk
    fun t => (t.gpioSetEdge_refusedOnlyIf _ _).ifOk fun u => u.gpioEnv_refusedOnlyIf

theorem State.outputSteps_refusedOnlyIf : (s.outputSteps p).RefusedOnlyIf P :=
  ((s.gpioExportIfAbsent_refusedOnlyIf p).ifOk fun t => t.primitive_refusedOnlyIf _ _ _).ifOk
    fun t => t.primitive_refusedOnlyIf _ _ _

end

/-! ## Every instruction -/

/-- Every instruction is the end of an attempt. -/
theorem exec_eq_finish (i : Instr) (s : State) : ∃ x, exec i s = s.finish x := by
  cases i
  case reset => exact ⟨.done _ _, rfl⟩
  all_goals exact ⟨_, rfl⟩

theorem exec_ne_fault (i : Instr) (s : State) (f : Fault) : exec i s ≠ .fault f := by
  obtain ⟨x, hx⟩ := exec_eq_finish i s
  rw [hx]
  exact s.finish_ne_fault x f

/-- An instruction on machine `d` is refused only where its requests would meet no answer of the interface. -/
theorem exec_refused_of_machineOf {i : Instr} {s : State} {d : Nat} {r : Refusal} (hm : machineOf i = some d)
    (h : exec i s = .refused r) : r = .notAnAnswer ∧ s.MeetsNoAnswer d := by
  have onAlive {k : Fdc → Attempt Result} (hk : ∀ f, (k f).RefusedOnlyIf (s.NextWriteUnfit d))
      (h : s.finish (s.onAlive d k) = .refused r) : r = .notAnAnswer ∧ s.MeetsNoAnswer d :=
    State.finish_eq_refused_notAnAnswer
      (State.onAlive_refusedOnlyIf fun f ha => (hk f).mono fun hw => hw.meetsNoAnswer ha) h
  have frame (c : FrameTypeCode) (h : s.dispatchFrame d c = .refused r) : r = .notAnAnswer ∧ s.MeetsNoAnswer d :=
    onAlive (fun _ => (s.resolveArm_refusedOnlyIf d c).returning) h
  cases i <;> cases hm
  case keepalive => exact frame _ h
  case init1 => exact frame _ h
  case init2 => exact frame _ h
  case pwk => exact frame _ h
  case fwd => exact frame _ h
  case incomplete => exact frame _ h
  case eos => exact frame _ h
  case invalid => exact frame _ h
  case eof => exact frame _ h
  case invalidRdErr => exact onAlive (fun _ => .done _ _) h
  case ack1 => exact onAlive (fun _ => ((s.countedWrite_refusedOnlyIf d _ _).mono .of_next_in).returning) h
  case ack2 src =>
    refine onAlive (fun _ => Attempt.RefusedOnlyIf.returning ?_) h
    cases src
    · exact (s.countedWrite_refusedOnlyIf d _ _).mono .of_next_in
    · exact s.ack2Only_refusedOnlyIf d
  case resolve c => exact onAlive (fun _ => (s.resolveArm_refusedOnlyIf d c).returning) h
  case fbInit => exact State.finish_eq_refused_notAnAnswer (State.onFdc_refusedOnlyIf fun _ _ => .done _ _) h
  case fbDestroy => exact onAlive (fun _ => .done _ _) h
  case rdStatus => exact State.finish_eq_refused_notAnAnswer (State.onFdc_refusedOnlyIf fun _ _ => .done _ _) h
  case readInto =>
    exact State.finish_eq_refused_notAnAnswer
      (State.onReady_refusedOnlyIf fun _ hr => (State.readPhase_refusedOnlyIf hr.1).returning) h
  case cycle =>
    refine State.finish_eq_refused_notAnAnswer (State.onReady_refusedOnlyIf fun f hr =>
      (State.readPhase_refusedOnlyIf hr.1).andThen fun u c hu => ?_) h
    obtain ⟨-, -, hcfg, -⟩ := (s.readPhase_actsOn d u c hu).isolated
    exact ((u.resolveArm_refusedOnlyIf d c).mono fun hw =>
      (hw.congr hcfg (State.readPhase_writes hu)).meetsNoAnswer hr.1).returning

/-- `RESET` and the instructions of the detector are never refused by the model. -/
theorem exec_ne_refused_of_machineOf_none {i : Instr} {s : State} (hm : machineOf i = none) (r : Refusal) :
    exec i s ≠ .refused r := by
  intro h
  suffices hx : ∃ x, exec i s = s.finish x ∧ x.RefusedOnlyIf False by
    obtain ⟨x, e, hx⟩ := hx
    exact (State.finish_eq_refused_notAnAnswer hx (e.symm.trans h)).2
  cases i <;> cases hm
  case reset => exact ⟨_, rfl, .done _ _⟩
  case exportPin p => exact ⟨_, rfl, (s.primitive_refusedOnlyIf p _ _).returning⟩
  case exportIfAbsent p => exact ⟨_, rfl, (s.gpioExportIfAbsent_refusedOnlyIf p).returning⟩
  case setDirection p x => exact ⟨_, rfl, (s.primitive_refusedOnlyIf p _ _).returning⟩
  case setPolarity p a => exact ⟨_, rfl, (s.primitive_refusedOnlyIf p _ _).returning⟩
  case setEdge p e => exact ⟨_, rfl, (s.gpioSetEdge_refusedOnlyIf p e).returning⟩
  case writeValue p v => exact ⟨_, rfl, (s.primitive_refusedOnlyIf p _ _).returning⟩
  case setPin p v => exact ⟨_, rfl, (s.primitive_refusedOnlyIf p _ _).returning⟩
  case initPowerKeySensor => exact ⟨_, rfl, s.sensorSteps_refusedOnlyIf.returning⟩
  case initOutputPin p => exact ⟨_, rfl, (s.outputSteps_refusedOnlyIf p).returning⟩
  case readValue hd =>
    refine ⟨_, rfl, ?_⟩
    split
    · exact s.gpioReadValue_refusedOnlyIf hd.pin
    · exact .done _ _
  case poll hd =>
    refine ⟨_, rfl, ?_⟩
    split <;> exact .done _ _
  case waitEdge hd =>
    refine ⟨_, rfl, ?_⟩
    split
    · exact .done _ _
    · split
      · exact .done _ _
      · exact .held
  case sample p v =>
    refine ⟨_, rfl, ?_⟩
    split <;> exact .done _ _

theorem exec_eq_refused {i : Instr} {s : State} {r : Refusal} (h : exec i s = .refused r) :
    r = .notAnAnswer ∧ ∃ d, machineOf i = some d ∧ s.MeetsNoAnswer d := by
  cases hm : machineOf i with
  | none => exact absurd h (exec_ne_refused_of_machineOf_none hm r)
  | some d =>
    obtain ⟨hr, hmeets⟩ := exec_refused_of_machineOf hm h
    exact ⟨hr, d, rfl, hmeets⟩

/-! ## The step -/

/-- An agent's turn answers a next state, or what its instruction answers. -/
theorem stepAgent_cases (who : Agent) (s : State) :
    (∃ t, stepAgent who s = .next t) ∨ ∃ i, stepAgent who s = retireOutcome who i (exec i s) := by
  cases hx : s.offered who with
  | none => exact Or.inl ⟨_, stepAgent_of_none hx⟩
  | some x =>
    cases hd : decode s.cfg x with
    | error why => exact Or.inl ⟨_, stepAgent_of_error hx hd⟩
    | ok i => exact Or.inr ⟨i, stepAgent_of_ok hx hd⟩

theorem retireOutcome_eq_refused {who : Agent} {i : Instr} {o : Host.Outcome State Fault Refusal} {r : Refusal}
    (h : retireOutcome who i o = .refused r) : o = .refused r := by
  cases o <;> cases h
  rfl

theorem retireOutcome_eq_fault {who : Agent} {i : Instr} {o : Host.Outcome State Fault Refusal} {f : Fault}
    (h : retireOutcome who i o = .fault f) : o = .fault f := by
  cases o <;> cases h
  rfl

theorem step_of_not_wf {s : State} (h : s.cfg.wf = false) : step s = .refused .badConfiguration := by
  simp [step, h]

/-- A step whose configuration meets R6 answers a next state, or what an instruction answers in the state whose turn was
taken. -/
theorem step_cases {s : State} (hcfg : s.cfg.wf = true) :
    (∃ t, step s = .next t) ∨ ∃ who rest i, step s = retireOutcome who i (exec i { s with turns := rest }) := by
  cases hturns : s.turns with
  | nil => exact Or.inl ⟨s, step_idle hcfg hturns⟩
  | cons who rest =>
    rw [step_turn hcfg hturns]
    rcases stepAgent_cases who { s with turns := rest } with h | ⟨i, h⟩
    · exact Or.inl h
    · exact Or.inr ⟨who, rest, i, h⟩

theorem step_ne_fault (s : State) (f : Fault) : step s ≠ .fault f := by
  intro h
  cases hcfg : s.cfg.wf with
  | false =>
    rw [step_of_not_wf hcfg] at h
    cases h
  | true =>
    rcases step_cases hcfg with ⟨t, ht⟩ | ⟨who, rest, i, hi⟩
    · rw [ht] at h
      cases h
    · exact exec_ne_fault i _ f (retireOutcome_eq_fault (hi.symm.trans h))

/-- What refuses a step: its configuration, or data that an alive machine meets and that are no answer. -/
theorem step_eq_refused {s : State} {r : Refusal} (h : step s = .refused r) :
    (r = .badConfiguration ∧ s.cfg.wf = false) ∨ (r = .notAnAnswer ∧ s.cfg.wf = true ∧ ∃ d, s.MeetsNoAnswer d) := by
  cases hcfg : s.cfg.wf with
  | false =>
    rw [step_of_not_wf hcfg] at h
    cases h
    exact Or.inl ⟨rfl, rfl⟩
  | true =>
    rcases step_cases hcfg with ⟨t, ht⟩ | ⟨who, rest, i, hi⟩
    · rw [ht] at h
      cases h
    · obtain ⟨hr, d, -, hmeets⟩ := exec_eq_refused (retireOutcome_eq_refused (hi.symm.trans h))
      exact Or.inr ⟨hr, rfl, d, hmeets⟩

/-- Settles O11: no operation faults, only a channel request refuses one, and a step also refuses a configuration that
breaks R6. -/
theorem noConditionStopsTheBlock : Obligations.NoConditionStopsTheBlock :=
  ⟨exec_ne_fault, fun _ _ _ => exec_eq_refused, step_ne_fault, fun _ _ => step_eq_refused, fun _ => step_of_not_wf⟩

end Sys2Proof.Machine
end

section
/-! SUPPORT. `RESET` (70_reset_and_hazards.md R220): the machines and pins it leaves (10_state.md R30, R35). -/

namespace Sys2Proof.Machine

theorem getElem?_resetPins (n p i : Nat) (qs : List Pin) :
    (resetPins n p qs)[i]? = qs[i]?.map fun _ => { Pin.reset with line := Config.freeLevel n (p + i) } := by
  induction qs generalizing p i with
  | nil => rfl
  | cons q qs ih =>
    cases i with
    | zero => rfl
    | succ i =>
      rw [resetPins, List.getElem?_cons_succ, List.getElem?_cons_succ, ih, Nat.add_right_comm, Nat.add_assoc]

/-- `RESET` leaves every pin at its reset value, with whatever level its line shows (10_state.md R30). -/
theorem execReset_pin? {s t : State} (h : exec .reset s = .next t) (p : Nat) :
    t.pin? p = (s.pin? p).map fun _ => { Pin.reset with line := Config.freeLevel s.epoch p } := by
  cases h
  simp only [State.pin?, getElem?_resetPins, Nat.zero_add]
  split <;> rfl

/-- Settles O32: `execReset_cleared` for the machines, `execReset_pin?` for the pins. -/
theorem resetClearsMachinesAndPins : Obligations.ResetClearsMachinesAndPins := by
  intro s
  have hpin := execReset_pin? (s := s) rfl
  refine ⟨_, rfl, rfl, rfl, fun d f hf => ?_, fun p q hq => ?_, fun p => ?_, rfl, rfl, rfl, rfl, rfl, rfl, rfl⟩
  · obtain ⟨t, ht, hg⟩ := execReset_cleared hf
    cases ht
    exact ⟨f.buf, hg⟩
  · exact ⟨_, (hpin p).trans (congrArg _ hq)⟩
  · rw [hpin p]
    cases s.pin? p <;> rfl

end Sys2Proof.Machine
end

section
/-! SUPPORT. Fragmentation invariance of the frame path (70_reset_and_hazards.md R231): what a machine that read some bytes
holds does not depend on how the reads cut them, nor does what the dispatcher then does. -/

namespace Sys2Proof

/-! ## A whole frame and its beginnings -/

/-- `frame` is terminated, of type byte `c`, with no end marker before its last byte (R231). -/
structure WholeFrame (c : Byte) (frame : List Byte) : Prop where
  start : frame.head? = some 0xFE
  typeByte : frame[1]? = some c
  last : frame.getLast? = some 0xFD
  inner : 0xFD ∉ frame.dropLast

theorem WholeFrame.two_le_length {c : Byte} {frame : List Byte} (h : WholeFrame c frame) : 2 ≤ frame.length :=
  (List.getElem?_eq_some_iff.mp h.typeByte).1

theorem WholeFrame.classify_eq {c : Byte} {frame : List Byte} (h : WholeFrame c frame) (cfg : Config) :
    classify cfg frame = typeOf cfg c := by
  have hne : frame ≠ [] := List.length_pos_iff.mp (Nat.lt_of_lt_of_le Nat.two_pos h.two_le_length)
  obtain ⟨-, -, -, hterminated, -⟩ := classificationHasThreeCases cfg frame hne
  exact hterminated h.start h.two_le_length h.last c h.typeByte

/-- A proper beginning of the frame has its start marker and no end marker. -/
theorem WholeFrame.classify_beginning {c : Byte} {pre post : List Byte} (h : WholeFrame c (pre ++ post))
    (hpre : pre ≠ []) (hpost : post ≠ []) (cfg : Config) : classify cfg pre = .incomplete := by
  obtain ⟨-, -, hincomplete, -⟩ := classificationHasThreeCases cfg pre hpre
  refine hincomplete.mpr ⟨(List.head?_append_of_ne_nil pre hpre).symm.trans h.start, fun hend => h.inner ?_⟩
  rw [List.dropLast_append_of_ne_nil hpost]
  exact List.mem_append_left _ (List.mem_of_getLast? hend.2)

theorem typeOf_ne_incomplete (cfg : Config) (c : Byte) : typeOf cfg c ≠ .incomplete := fun h =>
  typeOf_not_mem_unterminated cfg c (by simp [h])

end Sys2Proof

namespace Sys2Proof.Machine

/-! ## Reads that follow one another -/

theorem Memory.fill_append (m : Memory) (off : Nat) (bs cs : List Byte) :
    m.fill off (bs ++ cs) = (m.fill off bs).fill (off + bs.length) cs := by
  induction bs generalizing m off with
  | nil => rfl
  | cons b bs ih => rw [List.cons_append, Memory.fill, ih, Memory.fill, List.length_cons, Nat.add_right_comm, Nat.add_assoc]

/-- Two fills are one (40_frame_reader.md R92). -/
theorem Fdc.fill_append (bs cs : List Byte) (f : Fdc) : Fdc.fill (bs ++ cs) f = Fdc.fill cs (Fdc.fill bs f) := by
  simp only [Fdc.fill, Memory.fill_append, List.length_append, Nat.add_assoc]

/-- A read that leaves the machine other than Incomplete and full only fills its buffer (40_frame_reader.md R98). -/
theorem Fdc.afterBytes_eq_fill {cfg : Config} {f : Fdc} {bs : List Byte}
    (h : ¬ (classify cfg (f.content ++ bs) = .incomplete ∧ f.cursor + bs.length = cfg.cap)) :
    f.afterBytes cfg bs = Fdc.fill bs f := by
  rw [Fdc.afterBytes, decide_eq_false h, Bool.or_false]
  rfl

theorem State.withReads_reads (s : State) (c : Nat) : s.withReads c (s.chan c).reads = s := by
  have hset : s.chans.set c (s.chan c) = s.chans := by
    by_cases hc : c < s.chans.length <;> simp [State.chan, hc, List.set_eq_of_length_le, Nat.le_of_not_lt]
  exact congrArg (fun chans => { s with chans := chans }) hset

theorem State.withReads_withReads (s : State) (c : Nat) (as bs : List ReadAns) :
    (s.withReads c as).withReads c bs = s.withReads c bs := by
  by_cases hc : c < s.chans.length <;>
    simp [State.withReads, State.chan, hc, List.set_eq_of_length_le, Nat.le_of_not_lt]

/-- `s` after machine `d`, which was `f`, took `bs` in some reads: `rest` is still to be read, `es` was recorded and the
last answer was `r`. -/
def State.holding (s : State) (d : Nat) (f : Fdc) (bs : List Byte) (rest : List ReadAns) (es : List Event) (r : Result) :
    State := ((s.withReads (s.inCh d) rest).withFdc d (Fdc.fill bs f)).returning es r

section
variable {s : State} {d : Nat} {f : Fdc}

/-- Before any read. -/
theorem State.holding_nil (hf : s.fdc? d = some f) (rest : List ReadAns) :
    s.holding d f [] rest [] s.ret = s.withReads (s.inCh d) rest := by
  rw [State.holding, State.returning_nil]
  exact congrArg (fun u : State => { u with ret := s.ret }) (State.withFdc_self (s := s.withReads (s.inCh d) rest) hf)

theorem State.holding_ready (hr : s.Ready d f) (bs : List Byte) (rest : List ReadAns) (es : List Event) (r : Result) :
    (s.holding d f bs rest es r).Ready d (Fdc.fill bs f) :=
  ⟨⟨State.fdc?_withFdc_same (s := s.withReads (s.inCh d) rest) hr.1.1 _, hr.1.2⟩, hr.2⟩

/-- A read of machine `d` adds its bytes to those of the reads before, unless it leaves the buffer full and Incomplete. -/
theorem State.holding_readPhase (hr : s.Ready d f) (hb : f.buf.wf = true)
    (hq : (s.chan (s.inCh d)).reads ≠ []) (bs : List Byte) {cs : List Byte} (rest : List ReadAns) (es : List Event)
    (r : Result) (hcs : cs ≠ []) (hlen : f.cursor + bs.length + cs.length ≤ s.cfg.cap)
    (hroom : classify s.cfg (f.content ++ bs ++ cs) = .incomplete → f.cursor + bs.length + cs.length < s.cfg.cap) :
    (s.holding d f bs (.bytes cs :: rest) es r).readPhase d = .done (s.holding d f (bs ++ cs) rest
      (es ++ [.chRead d (s.inCh d) (s.cfg.cap - (f.cursor + bs.length)) (.bytes cs)]) r)
      (classify s.cfg (f.content ++ bs ++ cs)) := by
  obtain ⟨a, as, hq⟩ := List.exists_cons_of_ne_nil hq
  have hread := State.readPhase_bytes (State.holding_ready hr bs (.bytes cs :: rest) es r).1.1 (Memory.wf_fill _ _ hb)
    (congrArg ChannelEnv.reads (State.chan_withReads_same hq (.bytes cs :: rest)))
    (List.length_pos_iff.mpr hcs) (Nat.le_sub_of_add_le' hlen)
  rw [hread, Fdc.content_fill hb, Fdc.afterBytes_eq_fill, ← Fdc.fill_append]
  · refine congrArg (Attempt.done · _) ?_
    calc _ = (((((s.withReads (s.inCh d) (.bytes cs :: rest)).withReads (s.inCh d) rest).withFdc d (Fdc.fill bs f)).withFdc
          d (Fdc.fill (bs ++ cs) f)).returning es r).returning _ r := rfl
      _ = _ := by
        rw [State.withFdc_withFdc, State.withReads_withReads, State.returning_returning]
        rfl
  · rw [Fdc.content_fill hb]
    rintro ⟨hc, hfull⟩
    exact absurd hfull (Nat.ne_of_lt (hroom hc))

end

/-! ## Cycles that follow one another -/

theorem cycles_succ {d : Nat} {s t : State} {c : FrameTypeCode} (h : exec (.cycle d) s = .next t)
    (ht : t.ret = .code c) (n : Nat) :
    cycles d (n + 1) s = (cycles d n t).map fun r => (r.1, c :: r.2) := by
  have h : execCycle d s = .next t := h
  simp only [cycles, h, ht]

/-- Cycles in a row begin with one that returned its code. -/
theorem cycles_succ_eq_some {d n : Nat} {s w : State} {cs : List FrameTypeCode} (h : cycles d (n + 1) s = some (w, cs)) :
    ∃ t c cs', exec (.cycle d) s = .next t ∧ t.ret = .code c ∧ cycles d n t = some (w, cs') ∧ cs = c :: cs' := by
  rw [cycles] at h
  split at h
  · next t ht =>
    split at h
    · next c hc =>
      obtain ⟨⟨w', cs'⟩, hn, heq⟩ := Option.map_eq_some_iff.mp h
      obtain ⟨rfl, rfl⟩ := Prod.mk.inj heq
      exact ⟨t, c, cs', ht, hc, hn, rfl⟩
    · cases h
  · cases h

/-- One more cycle after `n` in a row. -/
theorem cycles_succ_of_last {d n : Nat} {s w t : State} {cs : List FrameTypeCode} {c : FrameTypeCode}
    (h : cycles d n s = some (w, cs)) (hw : exec (.cycle d) w = .next t) (ht : t.ret = .code c) :
    cycles d (n + 1) s = some (t, cs ++ [c]) := by
  induction n generalizing s cs with
  | zero =>
    cases h
    exact cycles_succ hw ht 0
  | succ n ih =>
    obtain ⟨u, c', cs', hu, hc', hn, rfl⟩ := cycles_succ_eq_some h
    rw [cycles_succ hu hc', ih hn]
    rfl

theorem writesOf_append (es es' : List Event) : writesOf (es ++ es') = writesOf es ++ writesOf es' :=
  List.filter_append es es'

theorem writesOf_singleton {e : Event} (h : e.isWrite = false) : writesOf [e] = [] := by
  simp [writesOf, h]

/-- Action `act` ends in `s` the same whatever was recorded before and answered last, and only adds to the record. -/
def State.IgnoresRecord (s : State) (act : State → Attempt Unit) : Prop :=
  ∃ (u : State) (es : List Event), u.history = s.history ∧ ∀ es0 r,
    act (s.returning es0 r) = .done (u.returning (es0 ++ es) r) ()

/-- An action of answered writes, then `Done(d, valid)` (41_packet_dispatcher.md R124). -/
theorem State.ignoresRecord_thenValid {s : State} {d ch : Nat} {f g : Fdc} {as : List WriteAns} {es : List Event}
    {act : State → Attempt Unit} (hf : s.fdc? d = some f)
    (hact : ∀ es0 r, act (s.returning es0 r) =
      .done ((((s.returning es0 r).withWrites ch as).withFdc d g).returning es r) ()) :
    s.IgnoresRecord fun t => State.thenValid (act t) d := by
  refine ⟨(s.withWrites ch as).withFdc d { g with cursor := 0, valid := (g.valid + 1) % 2 ^ s.cfg.cntW }, es, rfl,
    fun es0 r => ?_⟩
  show State.thenValid (act (s.returning es0 r)) d = _
  rw [hact, State.thenValid_done (s := (s.returning es0 r).withWrites ch as) hf, ← State.returning_returning _ es0 es r r]
  rfl

/-- The resolve phase when the writes it may issue are answered. -/
theorem State.ignoresRecord_resolveArm {s : State} {d : Nat} {f : Fdc} (c : FrameTypeCode) {a1 a2 a3 : WriteAns}
    {ws vs : List WriteAns} (hf : s.fdc? d = some f) (hw : (s.chan (s.inCh d)).writes = a1 :: a2 :: ws)
    (hv : (s.chan (s.outCh d)).writes = a3 :: vs) (h1 : a1.fits s.cfg = true) (h2 : a2.fits s.cfg = true)
    (h3 : a3.fits s.cfg = true) : s.IgnoresRecord (State.resolveArm · d c) := by
  have handshake := State.ignoresRecord_thenValid (act := (State.handshake · d)) (ch := s.inCh d) (as := ws)
    (g := { f with writeErrors :=
      ((f.writeErrors + writeFails a1 3) % 2 ^ s.cfg.cntW + writeFails a2 3) % 2 ^ s.cfg.cntW })
    (es := [.chWrite d (s.inCh d) ack1Frame a1, .chWrite d (s.inCh d) ack2Frame a2]) hf
    fun es0 r => State.handshake_of_writes (s := s.returning es0 r) hf hw h1 h2
  have ack2Only := State.ignoresRecord_thenValid (act := (State.ack2Only · d)) (ch := s.inCh d) (as := a2 :: ws)
    (g := { f with writeErrors :=
      if s.cfg.init2CountsWerr then (f.writeErrors + writeFails a1 3) % 2 ^ s.cfg.cntW else f.writeErrors })
    (es := [.chWrite d (s.inCh d) ack2Frame a1]) hf
    fun es0 r => State.ack2Only_of_writes (s := s.returning es0 r) hf hw h1
  have forward := State.ignoresRecord_thenValid (act := (State.forward · d)) (ch := s.outCh d) (as := vs)
    (g := { f with writeErrors := (f.writeErrors + writeFails a3 f.cursor) % 2 ^ s.cfg.cntW })
    (es := [.chWrite d (s.outCh d) f.content a3]) hf
    fun es0 r => State.forward_of_writes (s := s.returning es0 r) hf hv h3
  cases c with
  | keepalive => exact handshake
  | init1 => exact handshake
  | init2 => exact ack2Only
  | forwardable _ => exact forward
  | endOfStream => exact forward
  | endOfFile => exact forward
  | panelPowerKey =>
    refine ⟨s.doneValid d, [.tracePwk d (s.frame d)], rfl, fun es0 r => ?_⟩
    rw [← State.returning_returning _ es0 _ r r]
    rfl
  | incomplete => exact ⟨s, [], rfl, fun es0 r => by rw [List.append_nil]; rfl⟩
  | invalid => exact ⟨s.doneInvalid d, [], rfl, fun es0 r => by rw [List.append_nil]; rfl⟩

theorem Fdc.content_of_empty {f : Fdc} (h : f.cursor = 0) : f.content = [] :=
  List.length_eq_zero_iff.mp (f.length_content.trans h)

theorem flatten_take_append_drop (chunks : List (List Byte)) {n : Nat} (hn : n < chunks.length) :
    (chunks.take n).flatten ++ chunks[n] ++ (chunks.drop (n + 1)).flatten = chunks.flatten := by
  rw [List.append_assoc, ← List.flatten_cons, ← List.drop_eq_getElem_cons hn, ← List.flatten_append,
    List.take_append_drop]

theorem reads_ne_nil {reads rest : List ReadAns} {chunks : List (List Byte)} (hq : reads = chunks.map .bytes ++ rest)
    (h : 0 < chunks.length) : reads ≠ [] := by
  obtain ⟨b, bs, rfl⟩ := List.exists_cons_of_length_pos h
  exact hq ▸ List.cons_ne_nil _ _

/-- The premises of R231 on the machine and the frame: machine `d`, which is `f`, is ready and empty, and the frame of type
byte `c` fits its buffer. -/
structure State.AwaitsFrame (s : State) (d : Nat) (f : Fdc) (c : Byte) (frame : List Byte) : Prop where
  ready : s.Ready d f
  canonical : f.buf.wf = true
  empty : f.cursor = 0
  whole : WholeFrame c frame
  fits : frame.length ≤ s.cfg.cap

section
variable {s : State} {d : Nat} {f : Fdc} {frame : List Byte} {c : Byte}

/-- The cycles before the last read of a frame that is cut into `chunks`: each is Incomplete, and together they fill the
buffer with the bytes read and record no write. -/
theorem cycles_holding {chunks : List (List Byte)} {rest : List ReadAns} (ha : s.AwaitsFrame d f c frame)
    (hcut : chunks.flatten = frame) (hne : ∀ b ∈ chunks, b ≠ [])
    (hq : (s.chan (s.inCh d)).reads = chunks.map .bytes ++ rest) {n : Nat} (hn : n < chunks.length) :
    ∃ es r, writesOf es = [] ∧ cycles d n s = some (s.holding d f (chunks.take n).flatten
      ((chunks.drop n).map .bytes ++ rest) es r, List.replicate n .incomplete) := by
  obtain ⟨hr, hb, h0, hframe, hfit⟩ := ha
  induction n with
  | zero =>
    refine ⟨[], s.ret, rfl, congrArg (fun u => some (u, [])) ?_⟩
    rw [List.drop_zero, ← hq]
    exact ((State.holding_nil hr.1.1 _).trans (s.withReads_reads _)).symm
  | succ n ih =>
    have hlt : n < chunks.length := Nat.lt_of_succ_lt hn
    obtain ⟨es, r, hes, hcycles⟩ := ih hlt
    have hsplit := (flatten_take_append_drop chunks hlt).trans hcut
    have hchunk : chunks[n] ≠ [] := hne _ (List.getElem_mem hlt)
    have hrest : (chunks.drop (n + 1)).flatten ≠ [] := by
      rw [List.drop_eq_getElem_cons hn, List.flatten_cons]
      exact List.append_ne_nil_of_left_ne_nil (hne _ (List.getElem_mem hn)) _
    have hclass : classify s.cfg (f.content ++ (chunks.take n).flatten ++ chunks[n]) = .incomplete := by
      rw [Fdc.content_of_empty h0, List.nil_append]
      exact (hsplit ▸ hframe).classify_beginning (List.append_ne_nil_of_right_ne_nil _ hchunk) hrest s.cfg
    have hroom : f.cursor + (chunks.take n).flatten.length + chunks[n].length < s.cfg.cap := by
      have := List.length_pos_iff.mpr hrest
      have := congrArg List.length hsplit
      simp only [List.length_append] at this
      omega
    rw [List.drop_eq_getElem_cons hlt] at hcycles
    have hread := State.holding_readPhase hr hb (reads_ne_nil hq (Nat.zero_lt_of_lt hn)) (chunks.take n).flatten
      ((chunks.drop (n + 1)).map .bytes ++ rest) es r hchunk (Nat.le_of_lt hroom) fun _ => hroom
    rw [hclass] at hread
    refine ⟨es ++ [.chRead d (s.inCh d) (s.cfg.cap - (f.cursor + (chunks.take n).flatten.length)) (.bytes chunks[n])],
      .code .incomplete, ?_, (cycles_succ_of_last hcycles
      (execCycle_of_incomplete (State.holding_ready hr _ _ es r) hread) rfl).trans ?_⟩
    · rw [writesOf_append, hes]
      rfl
    · rw [List.replicate_succ', List.take_succ_eq_append_getElem hlt, List.flatten_append, List.flatten_singleton]
      rfl

/-- The cycle that reads the last bytes of a frame ends the same however many reads there were before, but for what these
recorded: it returns the type of the frame and leaves the buffer empty. -/
theorem execCycle_last {rest : List ReadAns} {a1 a2 a3 : WriteAns} {ws vs : List WriteAns}
    (ha : s.AwaitsFrame d f c frame) (hq : (s.chan (s.inCh d)).reads ≠ [])
    (hw : (s.chan (s.inCh d)).writes = a1 :: a2 :: ws) (hv : (s.chan (s.outCh d)).writes = a3 :: vs)
    (h1 : a1.fits s.cfg = true) (h2 : a2.fits s.cfg = true) (h3 : a3.fits s.cfg = true) :
    ∃ (u : State) (g : Fdc) (es' : List Event), u.history = s.history ∧ u.fdc? d = some g ∧ g.cursor = 0 ∧
      ∀ (bs cs : List Byte) (es : List Event) (r : Result), bs ++ cs = frame → cs ≠ [] → ∃ e : Event, e.isWrite = false ∧
        exec (.cycle d) (s.holding d f bs (.bytes cs :: rest) es r) =
          .next (u.returning (es ++ [e] ++ es') (.code (typeOf s.cfg c))) := by
  obtain ⟨hr, hb, h0, hframe, hfit⟩ := ha
  have hheld := (State.holding_ready hr frame rest [] s.ret).1.1
  have hwrites := s.writes_withReads (s.inCh d) rest
  obtain ⟨u, es', hhist, hresolve⟩ := State.ignoresRecord_resolveArm
    (s := (s.withReads (s.inCh d) rest).withFdc d (Fdc.fill frame f)) (typeOf s.cfg c) hheld ((hwrites _).trans hw)
    ((hwrites _).trans hv) h1 h2 h3
  obtain ⟨_, _, _, hg⟩ := (State.resolveArm_eq_done hheld (hresolve [] s.ret)).fdc?_same hheld
  refine ⟨u, _, es', hhist, hg, if_neg (typeOf_ne_incomplete s.cfg c), fun bs cs es r hcut hcs => ?_⟩
  have hclass : classify s.cfg (f.content ++ bs ++ cs) = typeOf s.cfg c := by
    rw [Fdc.content_of_empty h0, List.nil_append, hcut]
    exact hframe.classify_eq s.cfg
  have hlen : f.cursor + bs.length + cs.length ≤ s.cfg.cap := by
    rw [h0, Nat.zero_add, ← List.length_append, hcut]
    exact hfit
  have hread := State.holding_readPhase hr hb hq bs rest es r hcs hlen fun h =>
    absurd (hclass.symm.trans h) (typeOf_ne_incomplete s.cfg c)
  rw [hclass, hcut] at hread
  refine ⟨.chRead d (s.inCh d) (s.cfg.cap - (f.cursor + bs.length)) (.bytes cs), rfl, ?_⟩
  rw [execCycle_of_readPhase (State.holding_ready hr _ _ es r) hread]
  exact congrArg (fun x : Attempt Unit => State.finish _ (x.andThen fun t _ => .done t (.code (typeOf s.cfg c))))
    (hresolve _ r)

end

/-- Settles O52: the cycles before the last read fill the buffer (`cycles_holding`), and the last one ends as a single
read of the whole frame does (`execCycle_last`). -/
theorem fragmentationInvariance : Obligations.FragmentationInvariance := by
  intro s d f frame c chunks rest a1 a2 a3 ws vs hr hb h0 hstart htype hlast hinner hfit hcut hne hq hw hv h1 h2 h3
  have ha : s.AwaitsFrame d f c frame := ⟨hr, hb, h0, ⟨hstart, htype, hlast, hinner⟩, hfit⟩
  have hnil : frame ≠ [] := List.length_pos_iff.mp (Nat.lt_of_lt_of_le Nat.two_pos ha.whole.two_le_length)
  have before {n : Nat} := cycles_holding (n := n) ha hcut hne hq
  obtain rfl | ⟨init, b, rfl⟩ := chunks.eq_nil_or_concat'
  · exact absurd hcut.symm hnil
  have hlength : (init ++ [b]).length = init.length + 1 := List.length_append
  have hlt : init.length < (init ++ [b]).length := by omega
  obtain ⟨u, g, es', hhist, hg, hcursor, last⟩ := execCycle_last (rest := rest) ha
    (reads_ne_nil hq (Nat.zero_lt_of_lt hlt)) hw hv h1 h2 h3
  obtain ⟨es, r, hes, hcycles⟩ := before hlt
  rw [List.take_left, List.drop_left] at hcycles
  rw [List.flatten_append, List.flatten_singleton] at hcut
  obtain ⟨e, he, hcuts⟩ := last _ b es r hcut (hne b (List.mem_append_right init (List.mem_singleton_self b)))
  obtain ⟨e', he', hwhole⟩ := last [] frame [] s.ret rfl hnil
  rw [State.holding_nil hr.1.1] at hwhole
  refine ⟨_, _, _, es ++ [e] ++ es', [] ++ [e'] ++ es', (congrArg (cycles d · s) hlength).trans
    (cycles_succ_of_last hcycles hcuts rfl), ?_, hwhole, rfl, rfl, ?_, ?_, ?_, fun g' hg' => ?_, fun n hn => ?_⟩
  · rw [hlength, Nat.add_sub_cancel]
  · exact congrArg (· ++ (es ++ [e] ++ es')) hhist
  · exact congrArg (· ++ ([] ++ [e'] ++ es')) hhist
  · simp only [writesOf_append, hes, writesOf_singleton he, writesOf_singleton he', List.nil_append]
  · obtain rfl : g = g' := Option.some.inj (hg.symm.trans hg')
    exact hcursor
  · obtain ⟨_, _, -, hm⟩ := before hn
    exact ⟨_, _, _, hm, (State.holding_ready hr _ _ _ _).1.1, rfl, rfl, rfl⟩

end Sys2Proof.Machine
end
